-- ==== Sys2Proof/Word.lean ====
section
/-! DEFINITION. The word types of LSBSTEG: a byte of a memory and of the 8-bit registers (spec/00_scope.md R7). -/

namespace Sys2Proof

/-- A byte: a natural number in `0 .. 255` (R7), taken as 8 bits because the rules mask and shift it (R8). -/
abbrev Byte := BitVec 8

end Sys2Proof
end

