-- ==== Sys2Proof/Config.lean ====
section
/-! DEFINITION. What is fixed for one LSBSTEG instance: the three memories' names, the fixed parameters (spec/00_scope.md
R5), the open parameters (R6), and the values the spec leaves unspecified (opaque constants, notes/assumptions/2.md and
3.md). -/

namespace Sys2Proof

/-- The three address spaces (spec/20_memory.md R50). -/
inductive MemId where
  | cb   -- the channel buffer CB (spec/10_state.md R21)
  | msg  -- the payload MSG (R22)
  | frm  -- the framed payload FRM (R23)
deriving DecidableEq, Repr

namespace Config

/-- `DEPTH` (R5): bits of a channel value. -/
abbrev depth : Nat := 8
/-- `GROUP` (R5): channel values of a pixel. -/
abbrev group : Nat := 4
/-- `USED` (R5): channel values of a pixel that carry a bit. -/
abbrev used : Nat := 3
/-- `BPC` (R5): payload bits of a used channel value. -/
abbrev bpc : Nat := 1
/-- `HDR` (R5): bytes of the length prefix. -/
abbrev hdr : Nat := 4
/-- `LEN_MAX` (R5): the greatest payload length. -/
abbrev lenMax : Nat := 2 ^ 32 - 1

/-- The open parameters `CB_CAP` and `MSG_CAP` of one instance (R6). They are arguments of the step relation (R20); the
interface gives `step` no other argument than the state, so State carries them as a field no step changes
(DESIGN CHOICE, notes/assumptions/1.md). -/
structure Params where
  cbCap : Nat
  msgCap : Nat
deriving DecidableEq, Repr

/-- `FRM_CAP = MSG_CAP + 4` (R6). -/
def Params.frmCap (p : Params) : Nat := p.msgCap + hdr

/-- The capacity of each memory (R6). -/
def Params.cap (p : Params) : MemId → Nat
  | .cb => p.cbCap
  | .msg => p.msgCap
  | .frm => p.frmCap

/-- The constraints of R6 on the open parameters. -/
abbrev Params.valid (p : Params) : Prop :=
  p.msgCap ≤ lenMax ∧ (3 * (p.cbCap / 4)) / 8 ≤ p.msgCap + 4

/-- FREE VALUE: the byte a cell that nothing has written since the last reset returns to a host read
(spec/10_state.md R35, spec/93_implementation_defined.md U1: "for a host read, `any value`"). It depends on the number of
resets so far, the memory and the index, so that two reads with no write between them agree (spec/20_memory.md R58). -/
opaque unwrittenByte : Nat → MemId → Nat → Byte

/-- FREE VALUE: the unspecified byte the hardware answers to a host read of a byte or of CTRL while STATUS.BUSY = 1
(spec/20_memory.md R63), a fresh one for each read. -/
opaque busyByte : Nat → Byte

/-- FREE VALUE: the unspecified number the hardware answers to a host read of a length register while
STATUS.BUSY = 1 (R63), a fresh one for each read. -/
opaque busyLength : Nat → Nat

end Config
end Sys2Proof
end

