-- ==== Sys2Proof/Syntax.lean ====
section
/-! DEFINITION. The commands of LSBSTEG: one constructor for each row of spec/opcode_table.json (spec/30_encoding.md
R79). A command has no operand field and no immediate (R78, R87). -/

namespace Sys2Proof

/-- The four commands (R79). -/
inductive Instr where
  | pack     -- PACK, spec/40_framing.md R100
  | unpack   -- UNPACK, spec/40_framing.md R104
  | embed    -- EMBED, spec/41_embedder.md R120
  | extract  -- EXTRACT, spec/42_extractor.md R140
deriving DecidableEq, Repr

end Sys2Proof
end

