-- ==== Sys2Proof/Machine/HostSyntax.lean ====
section
/-! DEFINITION. The host agent as data: its moves (spec/20_memory.md R62), the schedule of moves and engine steps a state
carries, and the lines of a host program (spec/30_encoding.md R86, R88). -/

namespace Sys2Proof

/-- The host's moves: all the ways the surroundings act on the block (R62). -/
inductive HostMove where
  | writeByte (m : MemId) (a : Nat) (v : Byte)
  | readByte (m : MemId) (a : Nat)
  | writeLen (m : MemId) (n : Nat)
  | readLen (m : MemId)
  | writeCtrl (v : Byte)
  | readCtrl
  | readStatus
  | writeCmd (v : Byte)
  | reset
deriving DecidableEq, Repr

/-- What a host read other than HostReadSTATUS returned. -/
inductive HostValue where
  | byte (b : Byte)
  | length (n : Nat)
deriving DecidableEq, Repr

/-- One entry of the host's schedule. R12 makes every host action and every engine step one atomic transition; which agent
moves next is the schedule's plain data (DESIGN CHOICE, notes/assumptions/4.md). -/
inductive HostAction where
  /-- one move of R62 -/
  | move (m : HostMove)
  /-- the host stands by while the engine takes one step -/
  | engine
  /-- HostWriteCMD(v) together with all engine steps up to the completion, as ONE step (the big step R32 allows) -/
  | run (v : Byte)
  /-- HostReadSTATUS repeated until DONE = 1 (R86), the engine stepping in between -/
  | await
  /-- `IFERR stop` inside the expansion of a pseudo-instruction: if the last status read has ERR ≠ 0, the next `n` actions,
  the rest of that expansion, are skipped (R86) -/
  | ifErrSkip (n : Nat)
  /-- `IFERR stop` as a line of a program: if the last status read has ERR ≠ 0, the rest of the program is skipped (R86) -/
  | ifErrStop
deriving DecidableEq, Repr

/-- The lines of a host program (R86, R88). -/
inductive Line where
  | reset
  | load (m : MemId) (bytes : List Byte)
  | fill (m : MemId) (n : Nat) (v : Byte)
  | wrLen (m : MemId) (n : Nat)
  | wrCtrl (v : Byte)
  | command (i : Instr)
  | cmd (v : Byte)
  | ifErrStop
  | encode
  | decode
deriving DecidableEq, Repr

end Sys2Proof
end

