-- ==== Sys2Proof/WellFormed.lean ====
section
/-! DEFINITION. Well-formedness: of a command (spec/30_encoding.md R87), of a host move and of a host program line against
the capacities (spec/20_memory.md R62, spec/10_state.md R24, spec/93_implementation_defined.md U4). -/

namespace Sys2Proof

/-- Every command is well formed: it takes no written operand (R87), so there is nothing to check. -/
def Instr.wellFormed : Instr → Bool
  | .pack => true
  | .unpack => true
  | .embed => true
  | .extract => true

/-- An index is legal below the memory's capacity (R50, R62). -/
def indexInRange (p : Config.Params) (m : MemId) (a : Nat) : Bool := decide (a < p.cap m)

/-- A length is legal up to the memory's capacity (R24, R62). -/
def lengthInRange (p : Config.Params) (m : MemId) (n : Nat) : Bool := decide (n ≤ p.cap m)

/-- The operands of a host move are within what R62's "enabled when" column allows of them. -/
def HostMove.wellFormed (p : Config.Params) : HostMove → Bool
  | .writeByte m a _ => indexInRange p m a
  | .readByte m a => indexInRange p m a
  | .writeLen m n => lengthInRange p m n
  | .readLen _ => true
  | .writeCtrl _ => true
  | .readCtrl => true
  | .readStatus => true
  | .writeCmd _ => true
  | .reset => true

/-- A line of a host program is well formed when every move it expands to is (R86). -/
def Line.wellFormed (p : Config.Params) : Line → Bool
  | .load m bytes => lengthInRange p m bytes.length
  | .fill m n _ => lengthInRange p m n
  | .wrLen m n => lengthInRange p m n
  | .reset => true
  | .wrCtrl _ => true
  | .command i => i.wellFormed
  | .cmd _ => true
  | .ifErrStop => true
  | .encode => true
  | .decode => true

end Sys2Proof
end

