-- ==== Sys2Proof/Decode.lean ====
section
/-! DEFINITION. The command word (spec/30_encoding.md R78 to R82): its fields, the decoder, total on every byte and
rejecting by name, and the encoder, written from the opcode map of R79. -/

namespace Sys2Proof

/-- `OP`, bits 2:0 of the command word (R78). -/
def opField (v : Byte) : BitVec 3 := v.extractLsb' 0 3

/-- `ZERO`, bits 7:3 of the command word (R78). -/
def zeroField (v : Byte) : BitVec 5 := v.extractLsb' 3 5

/-- Why a command word names no operation (R81). -/
inductive Reject where
  /-- a bit of `ZERO` is set (R78) -/
  | zeroFieldSet
  /-- `OP` is 0, 5, 6 or 7 (R79) -/
  | reservedOp
deriving DecidableEq, Repr

/-- The opcode map from `OP` to the operation (R79). -/
def operationOf (op : BitVec 3) : Option Instr :=
  if op = 1 then some .pack
  else if op = 2 then some .unpack
  else if op = 3 then some .embed
  else if op = 4 then some .extract
  else none

/-- The decoder of `CMD`, total on every byte (R78, R79, R81). -/
def decode (v : Byte) : Except Reject Instr :=
  if zeroField v ≠ 0 then .error .zeroFieldSet
  else match operationOf (opField v) with
    | some i => .ok i
    | none => .error .reservedOp

/-- The code of a command (R79). -/
def opcodeOf : Instr → BitVec 3
  | .pack => 1
  | .unpack => 2
  | .embed => 3
  | .extract => 4

/-- The encoder: `ZERO = 0` above `OP` (R78, R79). -/
def encode (i : Instr) : Byte := (0 : BitVec 5) ++ opcodeOf i

/-- The byte the `CMD` port receives for a table word of `nbits` bits whose higher bits are zero; no command is longer than
one byte (R82). -/
def tableByte (nbits w : Nat) : Option Byte :=
  if w % 2 ^ nbits < 2 ^ 8 then some (BitVec.ofNat 8 (w % 2 ^ nbits)) else none

/-- What the decoder reads from a table word (the host's numbering: bit 0 least significant). -/
def decodeTableWord (nbits w : Nat) : Option Instr :=
  match tableByte nbits w with
  | none => none
  | some v => match decode v with
    | .ok i => some i
    | .error _ => none

end Sys2Proof
end

