-- ==== Sys2Proof/Machine/State.lean ====
section
/-! DEFINITION. The whole state of one LSBSTEG instance (spec/10_state.md R20) with the host's schedule, the reasons a step
stops, and the state after reset (R34). -/

namespace Sys2Proof.Machine

/-- Why the machine stops with a fault. The spec gives the block no access fault (spec/30_encoding.md R90): each of these
is raised only in states that no launch reaches. -/
inductive Fault where
  /-- Raised by `State.loadByte` and `State.storeByte` at an index at or above the memory's capacity, which R50 says does
  not exist; R90 shows no command forms one from a legal length register. Safe: the model stops. -/
  | addressBeyondCapacity
  /-- Raised by `State.loadByte` on a cell that nothing has written since reset, whose content R35 leaves unspecified; the
  launch premise of R35 keeps every command from it. Safe: the model stops. -/
  | cellUnwritten
  /-- Raised by the engine's step when the sequencing state is one that the command in progress does not have; no launch
  leads there. Safe: the model stops. -/
  | noEnabledStep
deriving DecidableEq, Repr

/-- Why a step is refused. -/
inductive Refusal where
  /-- Raised by exec for an instruction that has no meaning yet. Safe: the model stops. -/
  | notModelled (mnemonic : String)
  /-- Raised by a launch when a cell below a length register the command reads was never written since reset: R35 "refuses
  the launch otherwise". Safe: the model stops. -/
  | inputCellUnwritten
  /-- Raised by HostWriteByte and HostReadByte at an index at or above the capacity: not a move of the model (U4 of
  spec/93_implementation_defined.md). Safe: the model stops. -/
  | indexAboveCapacity
  /-- Raised by HostWriteLen with a length above the capacity: not a move of the model (R24, U4). Safe: the model stops. -/
  | lengthAboveCapacity
deriving DecidableEq, Repr

/-- A byte memory: the cells written since the last reset, addresses strictly rising. A cell that is not listed holds no
known value (R35). -/
abbrev Memory := List Host.Cell

/-- Where the engine stands inside a command: the sequencing the step orders of R101, R105, R124 and R144 imply and the
registers of R29 do not hold (DEDUCED, notes/assumptions/5.md). -/
inductive Phase where
  | idle                 -- no command is in progress
  | illegal              -- an illegal command word was launched; the next step completes (R80, R81)
  | check                -- the first check step (R105, R124, R144)
  | header (t : Fin 4)   -- header step t (R101, R105)
  | lengthCheck          -- UNPACK's second check step (R105)
  | data                 -- copy or data steps, and the final step once the bound is reached
deriving DecidableEq, Repr

/-- The state. The fields down to `lreg` are R20's; `params` are its parameters; the rest are the model's own. -/
structure State where
  /-- `CB_CAP` and `MSG_CAP`, which no step changes (R6, R20) -/
  params : Config.Params
  /-- the channel buffer (R21) -/
  cb : Memory
  /-- the payload (R22) -/
  msg : Memory
  /-- the framed payload (R23) -/
  frm : Memory
  /-- `CBLEN`, a natural number (R21) -/
  cbLen : Nat
  /-- `MSGLEN`, 32 bits (R22) -/
  msgLen : BitVec 32
  /-- `FRMLEN`, 33 bits (R23) -/
  frmLen : BitVec 33
  /-- `CTRL`, 8 bits (R27) -/
  ctrl : Byte
  /-- `STATUS`, 8 bits (R28) -/
  status : Byte
  /-- `OPR`, the operation code in progress, 3 bits (R29) -/
  opr : BitVec 3
  /-- `SLOT`, index of the next usable slot, a natural number (R29) -/
  slot : Nat
  /-- `CUR`, the bit cursor, 36 bits (R29) -/
  cur : BitVec 36
  /-- `ACC`, the extractor's accumulator, 8 bits (R29, R30) -/
  acc : Byte
  /-- `NB`, the number of bits in `ACC`, 3 bits (R29, R30) -/
  nb : BitVec 3
  /-- `WIDX`, index of the next byte to copy or append, 33 bits (R29) -/
  widx : BitVec 33
  /-- `LREG`, the length UNPACK read, 32 bits (R29) -/
  lreg : BitVec 32
  /-- where the engine stands inside a command -/
  phase : Phase
  /-- the host's remaining actions, first one next -/
  host : List HostAction
  /-- what the host's last read other than HostReadSTATUS returned -/
  hostData : Option HostValue
  /-- what the host's last HostReadSTATUS returned -/
  hostStatus : Option Byte
  /-- the number of resets so far: the counter behind the free value of an unwritten cell -/
  epoch : Nat
  /-- the number of unspecified answers given so far: the counter behind the free values of reads while busy -/
  draws : Nat
deriving DecidableEq, Repr

/-- The sizes of the instance that starts at `State.reset` (DESIGN CHOICE, notes/assumptions/1.md): the greatest payload
memory R6 allows, and a channel buffer of 2^33 pixels, which satisfies R6's second constraint. -/
def resetParams : Config.Params := ⟨2 ^ 35, 2 ^ 32 - 1⟩

/-- The machine right after reset (R34): `STATUS`, `CTRL` and the length registers 0, no cell with a known value, the
engine idle. The engine registers, which R34 leaves unspecified and unobservable, are zero (DESIGN CHOICE,
notes/assumptions/6.md). -/
def State.reset : State where
  params := resetParams
  cb := []
  msg := []
  frm := []
  cbLen := 0
  msgLen := 0
  frmLen := 0
  ctrl := 0
  status := 0
  opr := 0
  slot := 0
  cur := 0
  acc := 0
  nb := 0
  widx := 0
  lreg := 0
  phase := .idle
  host := []
  hostData := none
  hostStatus := none
  epoch := 0
  draws := 0

end Sys2Proof.Machine
end

