-- ==== Sys2Proof/Machine/Flags.lean ====
section
/-! DEFINITION. The control and status registers: the fields of `STATUS` (spec/10_state.md R28) and of `CTRL` (R27), and
the error codes (R28, spec/60_exceptions.md R170). -/

namespace Sys2Proof.Machine

/-- The four error kinds (R170). -/
inductive ErrorKind where
  | capacity        -- CapacityError (R171)
  | format          -- FormatError (R172)
  | inputShape      -- InputShapeError (R173)
  | illegalCommand  -- IllegalCommand (R174)
deriving DecidableEq, Repr

/-- The error code written to `STATUS.ERR`: 0 for success, else the code of the kind (R28). -/
def errCode : Option ErrorKind → BitVec 3
  | none => 0
  | some .capacity => 1
  | some .format => 2
  | some .inputShape => 3
  | some .illegalCommand => 4

/-- `BUSY`, bit 0 of a status word (R28). -/
def busyField (w : Byte) : Bool := w.getLsbD 0

/-- `DONE`, bit 1 of a status word (R28). -/
def doneField (w : Byte) : Bool := w.getLsbD 1

/-- `ERR`, bits 4:2 of a status word (R28). -/
def errField (w : Byte) : BitVec 3 := w.extractLsb' 2 3

/-- The reserved bits 7:5 of a status word (R28). -/
def reservedField (w : Byte) : BitVec 3 := w.extractLsb' 5 3

/-- A status word with the three fields of R28 replaced and the reserved bits kept. -/
def statusWord (old : Byte) (busy done : Bool) (err : BitVec 3) : Byte :=
  reservedField old ++ err ++ BitVec.ofBool done ++ BitVec.ofBool busy

/-- `STATUS.BUSY`. -/
def State.busy (s : State) : Bool := busyField s.status

/-- `STATUS.DONE`. -/
def State.done (s : State) : Bool := doneField s.status

/-- `STATUS.ERR`. -/
def State.err (s : State) : BitVec 3 := errField s.status

/-- `CTRL.TRUNC`, bit 0 (R27). -/
def State.trunc (s : State) : Bool := s.ctrl.getLsbD 0

/-- What a write of `v` to `CTRL` leaves there: bits 7:1 are read as 0 and ignore writes (R27, spec/20_memory.md R62). -/
def ctrlWritten (v : Byte) : Byte := v &&& 0x01

end Sys2Proof.Machine
end

