-- ==== Sys2Proof/Machine/Operands.lean ====
section
/-! DEFINITION. The named functions of spec/00_scope.md R10: the slot map, the bit cursor, the length field's byte order
and the least-significant-bit operations. -/

namespace Sys2Proof.Machine

/-- `P(n)`, the pixel count of a channel buffer of `n` bytes (R10). -/
def pixels (n : Nat) : Nat := n / 4

/-- `U(n)`, the usable slots of a channel buffer of `n` bytes, its capacity in bits (R10). -/
def usable (n : Nat) : Nat := 3 * pixels n

/-- `slot(j)`, the index in `CB` of the `j`-th usable slot (R10; spec/20_memory.md R55). -/
def slotIndex (j : Nat) : Nat := 4 * (j / 3) + j % 3

/-- The bit of byte `f` that cursor value `k` names: most-significant first (R10 `fbit`; spec/30_encoding.md R73). -/
def cursorBit (f : Byte) (k : Nat) : Byte := (f >>> (7 - k % 8)) &&& 1

/-- `lsb(v)` (R10). -/
def lsb (v : Byte) : Byte := v &&& 1

/-- `setlsb(v, b)` for a bit `b` (R10). -/
def setLsb (v b : Byte) : Byte := (v &&& 0xFE) ||| b

/-- The accumulator with one more bit shifted in at the low end (spec/42_extractor.md R143). -/
def shiftIn (acc bit : Byte) : Byte := ((acc <<< 1) ||| bit) &&& 0xFF

/-- Byte `t` of `be32(L)`, `t = 0` the most significant (R10; spec/30_encoding.md R71). -/
def lengthByte (L : BitVec 32) (t : Nat) : Byte := ((L >>> (8 * (3 - t))) &&& 0xFF).setWidth 8

/-- `unbe32(b0, b1, b2, b3)` (R10). -/
def unbe32 (b0 b1 b2 b3 : Byte) : Nat :=
  b0.toNat * 2 ^ 24 + b1.toNat * 2 ^ 16 + b2.toNat * 2 ^ 8 + b3.toNat

/-- `LREG <- (LREG << 8) | FRM[t]`, UNPACK's header step on the register (spec/40_framing.md R105). -/
def shiftInByte (l : BitVec 32) (b : Byte) : BitVec 32 := (l <<< 8) ||| b.setWidth 32

end Sys2Proof.Machine
end

