-- ==== Sys2Proof/Machine/Ops.lean ====
section
/-! DEFINITION. The operations the meanings share: byte access to the three memories (spec/20_memory.md R50, R56), the
launch and the completion of a command (spec/30_encoding.md R80, R83), the error entry (spec/60_exceptions.md R176), the
launch premise (spec/10_state.md R35) and reset (spec/70_reset_and_hazards.md R190). -/

namespace Sys2Proof.Machine

/-! ### Memories -/

/-- The byte at index `a`, if something wrote it since the last reset. -/
def Memory.read : Memory → Nat → Option Byte
  | [], _ => none
  | (k, v) :: t, a => if a = k then some v else Memory.read t a

/-- Write byte `b` at index `a`, keeping the addresses strictly rising. -/
def Memory.write : Memory → Nat → Byte → Memory
  | [], a, b => [(a, b)]
  | (k, v) :: t, a, b =>
    if a < k then (a, b) :: (k, v) :: t
    else if a = k then (a, b) :: t
    else (k, v) :: Memory.write t a b

/-- The canonical form: addresses strictly rising. (No unlisted cell has a value, so no entry can equal one.) -/
def Memory.wf : Memory → Bool
  | [] => true
  | (k, _) :: t => t.all (fun c => decide (k < c.1)) && Memory.wf t

/-- Every cell of `[a, n)` is listed; the list is taken in its rising order. -/
def Memory.writtenFrom : Memory → Nat → Nat → Bool
  | [], a, n => decide (n ≤ a)
  | (k, _) :: t, a, n =>
    if n ≤ a then true
    else if k = a then Memory.writtenFrom t (a + 1) n
    else if k < a then Memory.writtenFrom t a n
    else false

/-- Every cell below `n` has been written since the last reset (R35). -/
def Memory.written (m : Memory) (n : Nat) : Bool := Memory.writtenFrom m 0 n

/-- Bit `k` of a memory in cursor order, `fbit(F, k)` (spec/00_scope.md R10). -/
def Memory.fbit (m : Memory) (k : Nat) : Option Byte := (m.read (k / 8)).map (fun f => cursorBit f k)

/-- The memory of a name. -/
def State.mem (s : State) : MemId → Memory
  | .cb => s.cb
  | .msg => s.msg
  | .frm => s.frm

/-- The state with the memory of a name replaced. -/
def State.setMem (s : State) (m : MemId) (v : Memory) : State :=
  match m with
  | .cb => { s with cb := v }
  | .msg => { s with msg := v }
  | .frm => { s with frm := v }

/-- The capacity of a memory (R6). -/
def State.cap (s : State) (m : MemId) : Nat := s.params.cap m

/-- The length register of a memory, as a number (spec/10_state.md R21 to R24). -/
def State.len (s : State) : MemId → Nat
  | .cb => s.cbLen
  | .msg => s.msgLen.toNat
  | .frm => s.frmLen.toNat

/-- The state with the length register of a memory written. A legal length fits the register (R22, R23). -/
def State.setLen (s : State) (m : MemId) (n : Nat) : State :=
  match m with
  | .cb => { s with cbLen := n }
  | .msg => { s with msgLen := BitVec.ofNat 32 n }
  | .frm => { s with frmLen := BitVec.ofNat 33 n }

/-- `MemRead(M, a, 1)` by the engine (R56). -/
def State.loadByte (s : State) (m : MemId) (a : Nat) : Except Fault Byte :=
  if s.cap m ≤ a then .error .addressBeyondCapacity
  else match (s.mem m).read a with
    | some b => .ok b
    | none => .error .cellUnwritten

/-- `MemWrite(M, a, 1, b)` by the engine (R56). -/
def State.storeByte (s : State) (m : MemId) (a : Nat) (b : Byte) : Except Fault State :=
  if s.cap m ≤ a then .error .addressBeyondCapacity
  else .ok (s.setMem m ((s.mem m).write a b))

/-! ### Launch, completion, error -/

/-- The memories whose cells below their length register a command reads (spec/70_reset_and_hazards.md R193). -/
def inputsOf : Instr → List MemId
  | .pack => [.msg]
  | .unpack => [.frm]
  | .embed => [.cb, .frm]
  | .extract => [.cb]

/-- The launch premise of R35: the host has written every cell below each length register the command reads. -/
def State.inputsWritten (s : State) (i : Instr) : Bool :=
  (inputsOf i).all (fun m => (s.mem m).written (s.len m))

/-- Where the engine stands right after the launch of `v` (R80; the step orders of R101, R105, R124, R144). -/
def firstPhase (v : Byte) : Phase :=
  match decode v with
  | .error _ => .illegal
  | .ok .pack => .header 0
  | .ok .unpack => .check
  | .ok .embed => .check
  | .ok .extract => .check

/-- The launch transition (R80). -/
def State.launch (v : Byte) (s : State) : State :=
  { s with
    status := statusWord s.status true false 0
    opr := opField v
    slot := 0
    cur := 0
    acc := 0
    nb := 0
    widx := 0
    phase := firstPhase v }

/-- The completion transition (R83): `BUSY <- 0; DONE <- 1; ERR <- e`. -/
def State.complete (e : Option ErrorKind) (s : State) : State :=
  { s with
    status := statusWord s.status false true (errCode e)
    phase := .idle }

/-- TAKING AN EXCEPTION: `raise E` is the completion with the code of `E`; nothing is saved, no mode changes, control goes
nowhere (spec/60_exceptions.md R176). There is no return instruction: the next launch clears `DONE` and `ERR` (R177), which
`State.launch` does. -/
def State.raise (e : ErrorKind) (s : State) : State := s.complete (some e)

/-- The outcome of a computation that may fault. -/
def outcomeOf : Except Fault State → Host.Outcome State Fault Refusal
  | .ok s => .next s
  | .error f => .fault f

/-- A command as one step: a write of `CMD` while busy is ignored (R26, spec/20_memory.md R63); a launch whose inputs were
not written is refused (R35); otherwise the launch, then the command's whole effect. -/
def issue (i : Instr) (body : State → Except Fault State) (s : State) : Host.Outcome State Fault Refusal :=
  if s.busy then .next s
  else if s.inputsWritten i then outcomeOf (body (s.launch (encode i)))
  else .refused .inputCellUnwritten

/-- An illegal command word as one step: it completes at once with `IllegalCommand` (R81, R174). -/
def illegalCommand (v : Byte) (s : State) : Host.Outcome State Fault Refusal :=
  if s.busy then .next s
  else .next ((s.launch v).raise .illegalCommand)

/-- The block right after the `Reset` move (R190). The host's own fields, the parameters and the count of resets are not
the block's and go on. -/
def State.resetBlock (s : State) : State :=
  { State.reset with
    params := s.params
    host := s.host
    hostData := s.hostData
    hostStatus := s.hostStatus
    epoch := s.epoch + 1
    draws := s.draws }

/-! ### Loops of the command pseudocode -/

/-- `for i in 0 .. n−1: D[dBase + i] <- S[sBase + i]`, in increasing order of `i` (spec/40_framing.md R100, R104). -/
def copyBytes (src : MemId) (sBase : Nat) (dst : MemId) (dBase : Nat) : Nat → State → Except Fault State
  | 0, s => .ok s
  | n + 1, s => do
    let s ← copyBytes src sBase dst dBase n s
    let b ← s.loadByte src (sBase + n)
    s.storeByte dst (dBase + n) b

end Sys2Proof.Machine
end

