-- ==== Sys2Proof/Machine/Embedder.lean ====
section
/-! DEFINITION. The embedder command EMBED (spec/41_embedder.md R120), with the truncation mode (R127). -/

namespace Sys2Proof.Machine

/-- The bits required, `N = 8 * FRMLEN` (R120). -/
def State.bitsRequired (s : State) : Nat := 8 * s.frmLen.toNat

/-- The number of slots EMBED writes, `M = min(N, U)` (R120). -/
def State.slotsWritten (s : State) : Nat := min s.bitsRequired (usable s.cbLen)

/-- One slot written: `CB[slot(k)] <- (CB[slot(k)] & 0xFE) | fbit(FRM, k)` (R120, spec/20_memory.md R59). -/
def embedSlot (k : Nat) (s : State) : Except Fault State := do
  let f ← s.loadByte .frm (k / 8)
  let v ← s.loadByte .cb (slotIndex k)
  s.storeByte .cb (slotIndex k) (setLsb v (cursorBit f k))

/-- `for k in 0 .. n−1`, in increasing order (R120). -/
def embedSlots : Nat → State → Except Fault State
  | 0, s => .ok s
  | n + 1, s => do
    let s ← embedSlots n s
    embedSlot n s

/-- EMBED after its launch (R120): both checks before the first write, in the order of spec/60_exceptions.md R175. -/
def embedBody (s : State) : Except Fault State :=
  if s.cbLen % 4 ≠ 0 then .ok (s.raise .inputShape)
  else if s.trunc = false ∧ s.bitsRequired > usable s.cbLen then .ok (s.raise .capacity)
  else do
    let s ← embedSlots s.slotsWritten s
    .ok (State.complete none
      { s with
        slot := s.slotsWritten
        cur := BitVec.ofNat 36 s.slotsWritten })

/-- EMBED (R120). -/
def execEmbed (s : State) : Host.Outcome State Fault Refusal := issue .embed embedBody s

end Sys2Proof.Machine
end

