-- ==== Sys2Proof/Machine/Extractor.lean ====
section
/-! DEFINITION. The extractor command EXTRACT (spec/42_extractor.md R140). -/

namespace Sys2Proof.Machine

/-- `n` slot bits from slot `j` on, shifted into an empty byte, the first highest (R140, spec/30_encoding.md R75). -/
def gatherBits (s : State) (j : Nat) : Nat → Except Fault Byte
  | 0 => .ok 0
  | n + 1 => do
    let acc ← gatherBits s j n
    let v ← s.loadByte .cb (slotIndex (j + n))
    .ok (shiftIn acc (lsb v))

/-- `for j in 0 .. n−1: FRM[j] <-` the byte of slots `8j .. 8j+7` (R140). -/
def extractBytes : Nat → State → Except Fault State
  | 0, s => .ok s
  | n + 1, s => do
    let s ← extractBytes n s
    let b ← gatherBits s (8 * n) 8
    s.storeByte .frm n b

/-- EXTRACT after its launch (R140). The last `U mod 8` bits stay in `ACC` and are dropped (R144). -/
def extractBody (s : State) : Except Fault State :=
  if s.cbLen % 4 ≠ 0 then .ok (s.raise .inputShape)
  else do
    let u := usable s.cbLen
    let s ← extractBytes (u / 8) s
    let left ← gatherBits s (8 * (u / 8)) (u % 8)
    .ok (State.complete none
      { s with
        slot := u
        acc := left
        nb := BitVec.ofNat 3 (u % 8)
        widx := BitVec.ofNat 33 (u / 8)
        frmLen := BitVec.ofNat 33 (u / 8) })

/-- EXTRACT (R140). -/
def execExtract (s : State) : Host.Outcome State Fault Refusal := issue .extract extractBody s

end Sys2Proof.Machine
end

