-- ==== Sys2Proof/Machine/Framing.lean ====
section
/-! DEFINITION. The framing commands: PACK (spec/40_framing.md R100) and UNPACK (R104). The engine registers end as the step
rules R101 and R105 leave them. -/

namespace Sys2Proof.Machine

/-- PACK after its launch (R100). -/
def packBody (s : State) : Except Fault State := do
  let s ← s.storeByte .frm 0 (lengthByte s.msgLen 0)
  let s ← s.storeByte .frm 1 (lengthByte s.msgLen 1)
  let s ← s.storeByte .frm 2 (lengthByte s.msgLen 2)
  let s ← s.storeByte .frm 3 (lengthByte s.msgLen 3)
  let s ← copyBytes .msg 0 .frm 4 s.msgLen.toNat s
  .ok (State.complete none
    { s with
      widx := BitVec.ofNat 33 s.msgLen.toNat
      frmLen := BitVec.ofNat 33 (4 + s.msgLen.toNat) })

/-- PACK (R100). -/
def execPack (s : State) : Host.Outcome State Fault Refusal := issue .pack packBody s

/-- UNPACK after its launch and a complete header whose length is `L`: check 2, which is exact (33 bits, no wrap), the copy
and the completion (R104). -/
def unpackPayload (L : Nat) (s : State) : Except Fault State :=
  let s := { s with lreg := BitVec.ofNat 32 L }
  if 4 + L > s.frmLen.toNat then .ok (s.raise .format)
  else do
    let s ← copyBytes .frm 4 .msg 0 L s
    .ok (State.complete none
      { s with
        widx := BitVec.ofNat 33 L
        msgLen := BitVec.ofNat 32 L })

/-- The length of a complete header, read byte by byte (R104). -/
def readHeader (s : State) : Except Fault Nat := do
  let b0 ← s.loadByte .frm 0
  let b1 ← s.loadByte .frm 1
  let b2 ← s.loadByte .frm 2
  let b3 ← s.loadByte .frm 3
  .ok (unbe32 b0 b1 b2 b3)

/-- UNPACK after its launch (R104). -/
def unpackBody (s : State) : Except Fault State :=
  if s.frmLen.toNat < 4 then .ok (s.raise .format)
  else do
    let L ← readHeader s
    unpackPayload L s

/-- UNPACK (R104). -/
def execUnpack (s : State) : Host.Outcome State Fault Refusal := issue .unpack unpackBody s

end Sys2Proof.Machine
end

