-- ==== Sys2Proof/Machine/Engine.lean ====
section
/-! DEFINITION. The engine one step at a time: the bit-serial and byte-serial step rules (spec/40_framing.md R101, R105;
spec/41_embedder.md R123, R124; spec/42_extractor.md R143, R144). -/

namespace Sys2Proof.Machine

/-- The phase after header step `t`. -/
def afterHeader (t : Fin 4) (last : Phase) : Phase := if t = 3 then last else .header (t + 1)

/-- One engine step of PACK (R101). -/
def stepPack (s : State) : Except Fault State :=
  match s.phase with
  | .header t => do
    let s ← s.storeByte .frm t.val (lengthByte s.msgLen t.val)
    .ok { s with phase := afterHeader t .data }
  | .data =>
    if s.widx.toNat < s.msgLen.toNat then do
      let b ← s.loadByte .msg s.widx.toNat
      let s ← s.storeByte .frm (4 + s.widx.toNat) b
      .ok { s with widx := s.widx + 1 }
    else .ok (State.complete none { s with frmLen := BitVec.ofNat 33 (4 + s.msgLen.toNat) })
  | .idle => .error .noEnabledStep
  | .illegal => .error .noEnabledStep
  | .check => .error .noEnabledStep
  | .lengthCheck => .error .noEnabledStep

/-- One engine step of UNPACK (R105). -/
def stepUnpack (s : State) : Except Fault State :=
  match s.phase with
  | .check =>
    if s.frmLen.toNat < 4 then .ok (s.raise .format)
    else .ok { s with phase := .header 0 }
  | .header t => do
    let b ← s.loadByte .frm t.val
    .ok { s with
      lreg := shiftInByte (if t = 0 then 0 else s.lreg) b
      phase := afterHeader t .lengthCheck }
  | .lengthCheck =>
    if 4 + s.lreg.toNat > s.frmLen.toNat then .ok (s.raise .format)
    else .ok { s with phase := .data }
  | .data =>
    if s.widx.toNat < s.lreg.toNat then do
      let b ← s.loadByte .frm (4 + s.widx.toNat)
      let s ← s.storeByte .msg s.widx.toNat b
      .ok { s with widx := s.widx + 1 }
    else .ok (State.complete none { s with msgLen := s.lreg })
  | .idle => .error .noEnabledStep
  | .illegal => .error .noEnabledStep

/-- One engine step of EMBED (R123, R124). -/
def stepEmbed (s : State) : Except Fault State :=
  match s.phase with
  | .check =>
    if s.cbLen % 4 ≠ 0 then .ok (s.raise .inputShape)
    else if s.trunc = false ∧ 8 * s.frmLen.toNat > 3 * (s.cbLen / 4) then .ok (s.raise .capacity)
    else .ok { s with phase := .data }
  | .data =>
    if s.cur.toNat < 8 * s.frmLen.toNat ∧ s.slot < 3 * (s.cbLen / 4) then do
      let a := 4 * (s.slot / 3) + s.slot % 3
      let f ← s.loadByte .frm (s.cur.toNat / 8)
      let v ← s.loadByte .cb a
      let s ← s.storeByte .cb a (setLsb v (cursorBit f s.cur.toNat))
      .ok { s with cur := s.cur + 1, slot := s.slot + 1 }
    else .ok (State.complete none s)
  | .idle => .error .noEnabledStep
  | .illegal => .error .noEnabledStep
  | .header _ => .error .noEnabledStep
  | .lengthCheck => .error .noEnabledStep

/-- One engine step of EXTRACT (R143, R144). -/
def stepExtract (s : State) : Except Fault State :=
  match s.phase with
  | .check =>
    if s.cbLen % 4 ≠ 0 then .ok (s.raise .inputShape)
    else .ok { s with phase := .data }
  | .data =>
    if s.slot < 3 * (s.cbLen / 4) then do
      let v ← s.loadByte .cb (4 * (s.slot / 3) + s.slot % 3)
      if s.nb.toNat < 7 then
        .ok { s with acc := shiftIn s.acc (lsb v), nb := s.nb + 1, slot := s.slot + 1 }
      else do
        let s ← s.storeByte .frm s.widx.toNat (shiftIn s.acc (lsb v))
        .ok { s with widx := s.widx + 1, acc := 0, nb := 0, slot := s.slot + 1 }
    else .ok (State.complete none { s with frmLen := s.widx })
  | .idle => .error .noEnabledStep
  | .illegal => .error .noEnabledStep
  | .header _ => .error .noEnabledStep
  | .lengthCheck => .error .noEnabledStep

/-- One step of the command in progress, chosen by `OPR` (spec/10_state.md R29). -/
def stepCommand (s : State) : Except Fault State :=
  match operationOf s.opr with
  | some .pack => stepPack s
  | some .unpack => stepUnpack s
  | some .embed => stepEmbed s
  | some .extract => stepExtract s
  | none => .error .noEnabledStep

/-- One step of the engine. When `BUSY = 0` it has no enabled step and the state stays as it is: idle, "quiescent and not
stuck" (spec/70_reset_and_hazards.md R204). After an illegal launch the step is the completion (spec/30_encoding.md R80). -/
def engineStep (s : State) : Host.Outcome State Fault Refusal :=
  if s.busy = false then .next s
  else if s.phase = .illegal then .next (s.raise .illegalCommand)
  else outcomeOf (stepCommand s)

/-- `n` engine steps. -/
def runEngine : Nat → State → Host.Outcome State Fault Refusal
  | 0, s => .next s
  | n + 1, s =>
    match engineStep s with
    | .next t => runEngine n t
    | .fault f => .fault f
    | .refused r => .refused r

end Sys2Proof.Machine
end

