-- ==== Sys2Proof/Machine/HostPort.lean ====
section
/-! DEFINITION. The host's moves (spec/20_memory.md R62, R63), the wait and the conditional of a host program
(spec/30_encoding.md R86), and the expansion of a program's lines (R86, R88). -/

namespace Sys2Proof.Machine

/-- The answer to a host read of a cell: its byte, or, if nothing wrote it since reset, an unspecified one (R62, R35). -/
def State.cellForHost (s : State) (m : MemId) (a : Nat) : Byte :=
  match (s.mem m).read a with
  | some b => b
  | none => Config.unwrittenByte s.epoch m a

/-- A read answered with unspecified data, a fresh draw (R63). -/
def State.answerBusy (s : State) (v : HostValue) : State :=
  { s with hostData := some v, draws := s.draws + 1 }

/-- The raw launch: HostWriteCMD(v) while idle (R80), refused when a legal command's inputs were not written (R35). -/
def launchMove (v : Byte) (s : State) : Host.Outcome State Fault Refusal :=
  match decode v with
  | .error _ => .next (s.launch v)
  | .ok i => if s.inputsWritten i then .next (s.launch v) else .refused .inputCellUnwritten

/-- One host move (R62). While `BUSY = 1` the hardware ignores every write but `Reset` and answers every read but that of
`STATUS` with unspecified data (R63). -/
def hostMove (m : HostMove) (s : State) : Host.Outcome State Fault Refusal :=
  match m with
  | .writeByte m a v =>
    if s.busy then .next s
    else if indexInRange s.params m a then .next (s.setMem m ((s.mem m).write a v))
    else .refused .indexAboveCapacity
  | .readByte m a =>
    if s.busy then .next (s.answerBusy (.byte (Config.busyByte s.draws)))
    else if indexInRange s.params m a then .next { s with hostData := some (.byte (s.cellForHost m a)) }
    else .refused .indexAboveCapacity
  | .writeLen m n =>
    if s.busy then .next s
    else if lengthInRange s.params m n then .next (s.setLen m n)
    else .refused .lengthAboveCapacity
  | .readLen m =>
    if s.busy then .next (s.answerBusy (.length (Config.busyLength s.draws)))
    else .next { s with hostData := some (.length (s.len m)) }
  | .writeCtrl v =>
    if s.busy then .next s
    else .next { s with ctrl := ctrlWritten v }
  | .readCtrl =>
    if s.busy then .next (s.answerBusy (.byte (Config.busyByte s.draws)))
    else .next { s with hostData := some (.byte s.ctrl) }
  | .readStatus => .next { s with hostStatus := some s.status }
  | .writeCmd v =>
    if s.busy then .next s
    else launchMove v s
  | .reset => .next s.resetBlock

/-- One step of the wait: HostReadSTATUS until `DONE = 1` (R86). Until then the engine takes a step and the wait stays at
the head of the schedule. -/
def awaitDone (s : State) : Host.Outcome State Fault Refusal :=
  if s.done then .next { s with hostStatus := some s.status }
  else match engineStep s with
    | .next t => .next { t with host := .await :: t.host }
    | .fault f => .fault f
    | .refused r => .refused r

/-- The last status the host read has `ERR ≠ 0` (R86). -/
def State.lastStatusError (s : State) : Bool :=
  match s.hostStatus with
  | some w => errField w != 0
  | none => false

/-- `IFERR stop` inside an expansion (R86; spec/90_conflicts.md C11). -/
def ifErrSkip (n : Nat) (s : State) : State :=
  if s.lastStatusError then { s with host := s.host.drop n } else s

/-- `IFERR stop` as a line of a program (R86). -/
def ifErrStop (s : State) : State :=
  if s.lastStatusError then { s with host := [] } else s

/-- A command line: the write of `CMD` and the wait (R86). -/
def commandActions (v : Byte) : List HostAction := [.run v, .await]

/-- The two commands of a pseudo-instruction with `IFERR stop` between them (R88). -/
def pairActions (i j : Instr) : List HostAction :=
  commandActions (encode i) ++ [.ifErrSkip 2] ++ commandActions (encode j)

/-- `LOAD M` from index `a` on: one HostWriteByte for each byte (R86). -/
def loadFrom (m : MemId) (a : Nat) : List Byte → List HostAction
  | [] => []
  | b :: bs => .move (.writeByte m a b) :: loadFrom m (a + 1) bs

/-- `LOAD M, b0 b1 ...` (R86). -/
def loadActions (m : MemId) (bytes : List Byte) : List HostAction :=
  loadFrom m 0 bytes ++ [.move (.writeLen m bytes.length)]

/-- ENCODE is `PACK ; IFERR stop ; EMBED` (R88, spec/43_pipeline.md R160). -/
def encodeActions : List HostAction := pairActions .pack .embed

/-- DECODE is `EXTRACT ; IFERR stop ; UNPACK` (R88, spec/43_pipeline.md R162). -/
def decodeActions : List HostAction := pairActions .extract .unpack

/-- The expansion of a line (R86, R88). -/
def expandLine : Line → List HostAction
  | .reset => [.move .reset]
  | .load m bytes => loadActions m bytes
  | .fill m n v => loadActions m (List.replicate n v)
  | .wrLen m n => [.move (.writeLen m n)]
  | .wrCtrl v => [.move (.writeCtrl v)]
  | .command i => commandActions (encode i)
  | .cmd v => commandActions v
  | .ifErrStop => [.ifErrStop]
  | .encode => encodeActions
  | .decode => decodeActions

/-- The expansion of a host program. -/
def expandProgram (p : List Line) : List HostAction := p.flatMap expandLine

end Sys2Proof.Machine
end

