-- ==== Sys2Proof/Machine/Step.lean ====
section
/-! DEFINITION. One step: the next action of the host's schedule, or, when it has none, an engine step (spec/00_scope.md
R12: every host action and every engine step is one atomic transition). -/

namespace Sys2Proof.Machine

/-- One step of the machine. `CMD` is the port a command arrives at, so the head of the schedule is where the next command
is fetched. -/
def step (s : State) : Host.Outcome State Fault Refusal :=
  match s.host with
  | [] => engineStep s
  | .move m :: rest => hostMove m { s with host := rest }
  | .engine :: rest => engineStep { s with host := rest }
  | .run v :: rest =>
    match decode v with
    | .ok i => exec i { s with host := rest }
    | .error _ => illegalCommand v { s with host := rest }
  | .await :: rest => awaitDone { s with host := rest }
  | .ifErrSkip n :: rest => .next (ifErrSkip n { s with host := rest })
  | .ifErrStop :: rest => .next (ifErrStop { s with host := rest })

/-- `s` with a table word placed where `step` takes its next command: a write of `CMD` at the head of the schedule, and the
engine idle, which a launch needs (notes/assumptions/7.md). -/
def State.withFetchWord (s : State) (nbits w : Nat) : State :=
  { s with
    status := statusWord s.status false s.done s.err
    host := .run (BitVec.ofNat 8 (w % 2 ^ nbits)) :: s.host }

end Sys2Proof.Machine
end

