-- ==== Sys2Proof/Safety.lean ====
section
/-! DEFINITION. The terms claims are stated in: the premises of a launch (spec/70_reset_and_hazards.md R205), what one state
keeps of another, what a command reads and gives, the engine's step counts (R203), and the invariant of every reachable
state. -/

namespace Sys2Proof.Machine

/-- The named premises of a launched command (R205): `BUSY = 0`; legal parameters (R6); every length register at most its
capacity (R24); every cell below each length register the command reads written since reset (R35). -/
structure Ready (i : Instr) (s : State) : Prop where
  idle : s.busy = false
  params : s.params.valid
  lengths : ∀ m, s.len m ≤ s.cap m
  inputs : s.inputsWritten i = true

/-- The parameters, the memories, the length registers and `CTRL` are the same: everything of the block but `STATUS` and
the engine registers (spec/60_exceptions.md R176). -/
structure SameData (s t : State) : Prop where
  params : t.params = s.params
  cb : t.cb = s.cb
  msg : t.msg = s.msg
  frm : t.frm = s.frm
  cbLen : t.cbLen = s.cbLen
  msgLen : t.msgLen = s.msgLen
  frmLen : t.frmLen = s.frmLen
  ctrl : t.ctrl = s.ctrl

/-- The engine registers and the engine's place inside a command are the same (spec/10_state.md R29). -/
structure SameEngine (s t : State) : Prop where
  opr : t.opr = s.opr
  slot : t.slot = s.slot
  cur : t.cur = s.cur
  acc : t.acc = s.acc
  nb : t.nb = s.nb
  widx : t.widx = s.widx
  lreg : t.lreg = s.lreg
  phase : t.phase = s.phase

/-- The host's side of the state and the counters of the free values are the same. -/
structure SameHost (s t : State) : Prop where
  host : t.host = s.host
  hostData : t.hostData = s.hostData
  hostStatus : t.hostStatus = s.hostStatus
  epoch : t.epoch = s.epoch
  draws : t.draws = s.draws

/-- `BUSY = 0`, `DONE = 1` and `ERR = e`, the reserved bits of `STATUS` as they were in `s`: what a completion leaves
(spec/30_encoding.md R83). -/
structure Completed (s : State) (e : Option ErrorKind) (t : State) : Prop where
  busy : t.busy = false
  done : t.done = true
  err : t.err = errCode e
  reserved : reservedField t.status = reservedField s.status

/-- Two states agree on what command `i` takes as its inputs: its input memories below their length registers, those
registers, and `CTRL.TRUNC` for EMBED (spec/20_memory.md R50, spec/70_reset_and_hazards.md R193). -/
def SameInputs (i : Instr) (s s' : State) : Prop :=
  (∀ m ∈ inputsOf i, s'.len m = s.len m ∧ ∀ a < s.len m, (s'.mem m).read a = (s.mem m).read a) ∧
    (i = .embed → s'.trunc = s.trunc)

/-- The memory a command writes (R50). -/
def outputOf : Instr → MemId
  | .pack => .frm
  | .unpack => .msg
  | .embed => .cb
  | .extract => .frm

/-- Two states agree on the result of command `i`: the status fields and, on success, the output memory's length and its
cells below that length. -/
def SameResult (i : Instr) (t t' : State) : Prop :=
  t'.busy = t.busy ∧ t'.done = t.done ∧ t'.err = t.err ∧
    (t.err = 0 → t'.len (outputOf i) = t.len (outputOf i) ∧
      ∀ a < t.len (outputOf i), (t'.mem (outputOf i)).read a = (t.mem (outputOf i)).read a)

/-- The payload length a complete header announces, `unbe32(FRM[0..3])` (spec/40_framing.md R104). -/
def State.headerLength (s : State) : Option Nat :=
  match s.frm.read 0, s.frm.read 1, s.frm.read 2, s.frm.read 3 with
  | some b0, some b1, some b2, some b3 => some (unbe32 b0 b1 b2 b3)
  | _, _, _, _ => none

/-- The condition of `FormatError` (spec/60_exceptions.md R172). -/
def State.frameBad (s : State) : Prop :=
  s.frmLen.toNat < 4 ∨ ∃ L, s.headerLength = some L ∧ 4 + L > s.frmLen.toNat

/-- The condition of `CapacityError` (spec/60_exceptions.md R171). -/
def State.frameTooLong (s : State) : Prop :=
  s.trunc = false ∧ s.cbLen % 4 = 0 ∧ 8 * s.frmLen.toNat > 3 * (s.cbLen / 4)

/-- The engine steps of a command between its launch and its completion, the completion included
(spec/70_reset_and_hazards.md R203). -/
def stepCount : Instr → State → Nat
  | .pack, s => 4 + s.msgLen.toNat + 1
  | .unpack, s =>
    if s.frmLen.toNat < 4 then 1
    else match s.headerLength with
      | none => 6
      | some L => if 4 + L > s.frmLen.toNat then 6 else 6 + L + 1
  | .embed, s =>
    if s.cbLen % 4 ≠ 0 ∨ (s.trunc = false ∧ 8 * s.frmLen.toNat > 3 * (s.cbLen / 4)) then 1
    else 1 + min (8 * s.frmLen.toNat) (3 * (s.cbLen / 4)) + 1
  | .extract, s => if s.cbLen % 4 ≠ 0 then 1 else 1 + 3 * (s.cbLen / 4) + 1

/-! ### The invariant -/

/-- PACK in progress (spec/40_framing.md R101). -/
def PackOk (s : State) : Prop :=
  s.inputsWritten .pack = true ∧
    ((∃ t, s.phase = .header t ∧ s.widx = 0) ∨ (s.phase = .data ∧ s.widx.toNat ≤ s.msgLen.toNat))

/-- UNPACK in progress (spec/40_framing.md R105). -/
def UnpackOk (s : State) : Prop :=
  s.inputsWritten .unpack = true ∧
    ((s.phase = .check ∧ s.widx = 0) ∨
      (∃ t, s.phase = .header t ∧ s.widx = 0 ∧ 4 ≤ s.frmLen.toNat) ∨
      (s.phase = .lengthCheck ∧ s.widx = 0 ∧ 4 ≤ s.frmLen.toNat) ∨
      (s.phase = .data ∧ 4 + s.lreg.toNat ≤ s.frmLen.toNat ∧ s.widx.toNat ≤ s.lreg.toNat))

/-- EMBED in progress: `SLOT = CUR`, and neither passes its bound (spec/10_state.md R31, spec/41_embedder.md R123). -/
def EmbedOk (s : State) : Prop :=
  s.inputsWritten .embed = true ∧ s.slot = s.cur.toNat ∧
    ((s.phase = .check ∧ s.slot = 0) ∨
      (s.phase = .data ∧ s.cbLen % 4 = 0 ∧ s.slot ≤ 8 * s.frmLen.toNat ∧ s.slot ≤ 3 * (s.cbLen / 4) ∧
        (s.trunc = false → 8 * s.frmLen.toNat ≤ 3 * (s.cbLen / 4))))

/-- EXTRACT in progress: `NB = SLOT mod 8`, `WIDX = SLOT div 8` and `ACC < 2^NB` (spec/10_state.md R30,
spec/42_extractor.md R143). -/
def ExtractOk (s : State) : Prop :=
  s.inputsWritten .extract = true ∧ s.nb.toNat = s.slot % 8 ∧ s.widx.toNat = s.slot / 8 ∧ s.acc.toNat < 2 ^ s.nb.toNat ∧
    ((s.phase = .check ∧ s.slot = 0) ∨ (s.phase = .data ∧ s.cbLen % 4 = 0 ∧ s.slot ≤ 3 * (s.cbLen / 4)))

/-- A command in progress is in one of the situations the step rules describe. -/
def EngineOk (s : State) : Prop :=
  s.phase = .illegal ∨
    match operationOf s.opr with
    | some .pack => PackOk s
    | some .unpack => UnpackOk s
    | some .embed => EmbedOk s
    | some .extract => ExtractOk s
    | none => False

/-- The invariant: legal parameters (R6); memories in canonical form, within their capacities (R50); legal length registers
(R24); reserved bits of `CTRL` and `STATUS` zero (R27, R28); `ERR` never 5 to 7, `BUSY` implies not `DONE`, and an error
implies `DONE` (R28); and, while busy, a command in one of the situations of its step rules. -/
structure Invariant (s : State) : Prop where
  params : s.params.valid
  canonical : ∀ m, (s.mem m).wf = true
  within : ∀ m, ∀ c ∈ s.mem m, c.1 < s.cap m
  lengths : ∀ m, s.len m ≤ s.cap m
  ctrlReserved : s.ctrl &&& 0xFE = 0
  statusReserved : reservedField s.status = 0
  errLegal : s.err.toNat ≤ 4
  busyNotDone : s.busy = true → s.done = false
  errDone : s.err ≠ 0 → s.done = true
  engine : s.busy = true → EngineOk s

end Sys2Proof.Machine
end

