-- ==== Sys2Proof/Certificates/Slice0/Obligations.lean ====
section
/-! DEFINITION. The statements for the provers, each from the numbered rules of spec/ that its docstring names. -/

open Sys2Proof Sys2Proof.Machine

/-! ### Reset -/

/-- R34: `STATUS`, `CTRL` and the length registers are 0 after reset, no cell of a memory holds a known value, and the
engine is idle and waits. That the step from reset answers the same state is the model's choice, not R34's: the host's schedule
is empty at reset (log entry 6) and an idle engine's step changes nothing (log entry 14). -/
def Obligations.ResetLeavesTheTabledValues : Prop :=
  State.reset.status = 0x00 ∧ State.reset.ctrl = 0x00 ∧ State.reset.cbLen = 0 ∧ State.reset.msgLen = 0 ∧
    State.reset.frmLen = 0 ∧ (∀ m a, (State.reset.mem m).read a = none) ∧ State.reset.busy = false ∧
    step State.reset = .next State.reset

/-- The invariant holds at reset (R24, R27, R28, R34). The capacities at reset are the model's choice (log entry 1). -/
def Obligations.ResetMeetsTheInvariant : Prop := Invariant State.reset

/-- R190, R191: the `Reset` move, at any time, busy or idle, with the whole table of R34. -/
def Obligations.ResetMoveClearsTheBlock : Prop :=
  ∀ (s : State) (rest : List HostAction), s.host = .move .reset :: rest →
    ∃ t, step s = .next t ∧ t.status = 0x00 ∧ t.ctrl = 0x00 ∧ t.cbLen = 0 ∧ t.msgLen = 0 ∧ t.frmLen = 0 ∧
      (∀ m a, (t.mem m).read a = none) ∧ t.params = s.params ∧ t.host = rest ∧ engineStep t = .next t

/-! ### Every step -/

/-- The invariant is kept by every step from every state that meets it. -/
def Obligations.EveryStepKeepsTheInvariant : Prop :=
  ∀ s t, Invariant s → step s = .next t → Invariant t

/-- R90, R204: from a state that meets the invariant no step faults: no access is out of range and the engine never stops
part-way. -/
def Obligations.NoStepFaultsUnderTheInvariant : Prop :=
  ∀ s, Invariant s → ∀ f, step s ≠ .fault f

/-- R83, R203, R204: a command in progress completes after finitely many engine steps. -/
def Obligations.EveryCommandCompletes : Prop :=
  ∀ s, Invariant s → s.busy = true → ∃ n t, runEngine n s = .next t ∧ t.busy = false ∧ t.done = true

/-- R21, R27: no command and no engine step changes `CTRL`, `CBLEN` or the parameters. -/
def Obligations.CommandsNeverWriteControlOrBufferLength : Prop :=
  (∀ i s t, exec i s = .next t → t.ctrl = s.ctrl ∧ t.cbLen = s.cbLen ∧ t.params = s.params) ∧
    ∀ s t, engineStep s = .next t → t.ctrl = s.ctrl ∧ t.cbLen = s.cbLen ∧ t.params = s.params

/-- R51, R129: a step writes an alpha cell of `CB` only by the host's own byte write there or by `Reset`. -/
def Obligations.OnlyTheHostWritesAlpha : Prop :=
  ∀ s t, step s = .next t → (∀ a v, s.host.head? ≠ some (.move (.writeByte .cb a v))) →
    s.host.head? ≠ some (.move .reset) → ∀ i, i % 4 = 3 → t.cb.read i = s.cb.read i

/-! ### The host's moves -/

/-- R62: the host's moves while the block is idle, row by row, and the two that are always enabled. -/
def Obligations.HostMovesActAsTabled : Prop :=
  ∀ (s : State) (rest : List HostAction),
    (s.busy = false →
      (∀ m a v, a < s.cap m → ∃ t, step { s with host := .move (.writeByte m a v) :: rest } = .next t ∧
        (t.mem m).read a = some v ∧ (∀ x, x ≠ a → (t.mem m).read x = (s.mem m).read x) ∧
        (∀ n, n ≠ m → t.mem n = s.mem n) ∧ (∀ n, t.len n = s.len n) ∧ t.ctrl = s.ctrl ∧ t.status = s.status ∧
        t.params = s.params ∧ SameEngine s t) ∧
      (∀ m a, a < s.cap m → ∃ t b, step { s with host := .move (.readByte m a) :: rest } = .next t ∧
        t.hostData = some (.byte b) ∧ (∀ v, (s.mem m).read a = some v → b = v) ∧ SameData s t ∧ SameEngine s t ∧
        t.status = s.status) ∧
      (∀ m n, s.params.valid → n ≤ s.cap m → ∃ t, step { s with host := .move (.writeLen m n) :: rest } = .next t ∧
        t.len m = n ∧ (∀ k, k ≠ m → t.len k = s.len k) ∧ (∀ k, t.mem k = s.mem k) ∧ t.ctrl = s.ctrl ∧
        t.status = s.status ∧ t.params = s.params ∧ SameEngine s t) ∧
      (∀ m, ∃ t, step { s with host := .move (.readLen m) :: rest } = .next t ∧
        t.hostData = some (.length (s.len m)) ∧ SameData s t ∧ SameEngine s t ∧ t.status = s.status) ∧
      (∀ v, ∃ t, step { s with host := .move (.writeCtrl v) :: rest } = .next t ∧ t.ctrl = v &&& 0x01 ∧
        (∀ k, t.mem k = s.mem k) ∧ (∀ k, t.len k = s.len k) ∧ t.status = s.status ∧ t.params = s.params ∧
        SameEngine s t) ∧
      (∃ t, step { s with host := .move .readCtrl :: rest } = .next t ∧ t.hostData = some (.byte s.ctrl) ∧
        SameData s t ∧ SameEngine s t ∧ t.status = s.status) ∧
      (∀ v, (∀ i, decode v = .ok i → s.inputsWritten i = true) →
        ∃ t, step { s with host := .move (.writeCmd v) :: rest } = .next t ∧ t.busy = true ∧ t.done = false ∧
          t.err = 0 ∧ t.opr = v.extractLsb' 0 3 ∧ t.slot = 0 ∧ t.cur = 0 ∧ t.acc = 0 ∧ t.nb = 0 ∧ t.widx = 0 ∧
          SameData s t)) ∧
    (∃ t, step { s with host := .move .readStatus :: rest } = .next t ∧ t.hostStatus = some s.status ∧ SameData s t ∧
      SameEngine s t ∧ t.status = s.status) ∧
    ∃ t, step { s with host := .move .reset :: rest } = .next t ∧ t.status = 0x00 ∧ t.ctrl = 0x00 ∧
      (∀ k, t.len k = 0) ∧ ∀ k a, (t.mem k).read a = none

/-- R63, R26: while `BUSY = 1` a host move other than `Reset` and HostReadSTATUS changes nothing of the block, and a
command issued then is ignored. A read is answered, with a value nothing is said of (log entry 8). -/
def Obligations.HostMovesWhileBusyChangeNothing : Prop :=
  ∀ (s : State) (rest : List HostAction), s.busy = true →
    (∀ m, m ≠ .reset → ∃ t, step { s with host := .move m :: rest } = .next t ∧ SameData s t ∧ SameEngine s t ∧
      t.status = s.status ∧ t.host = rest) ∧
    ∀ i, exec i s = .next s

/-- R24, U4: a length above the capacity and an index at or above it are not moves of the model. -/
def Obligations.MovesBeyondTheCapacityAreRefused : Prop :=
  ∀ (s : State) (rest : List HostAction) (m : MemId), s.busy = false →
    (∀ n, s.cap m < n → step { s with host := .move (.writeLen m n) :: rest } = .refused .lengthAboveCapacity) ∧
    (∀ a v, s.cap m ≤ a → step { s with host := .move (.writeByte m a v) :: rest } = .refused .indexAboveCapacity) ∧
    ∀ a, s.cap m ≤ a → step { s with host := .move (.readByte m a) :: rest } = .refused .indexAboveCapacity

/-- R58: two host reads of a cell with no write between them return the same byte, written or not, and reads change nothing
but what the host last read. -/
def Obligations.ReadingTwiceReturnsTheSameByte : Prop :=
  ∀ (s : State) (m : MemId) (a : Nat), s.busy = false → a < s.cap m →
    ∃ t u b, step { s with host := [.move (.readByte m a), .move (.readByte m a)] } = .next t ∧ step t = .next u ∧
      t.hostData = some (.byte b) ∧ u.hostData = some (.byte b) ∧ SameData s u ∧ SameEngine s u ∧ u.status = s.status

/-- R24, last sentence: shortening a buffer and lengthening it again shows the old bytes. -/
def Obligations.LengthWritesKeepTheCells : Prop :=
  ∀ (s : State) (m : MemId) (n k : Nat), s.busy = false → s.host = [] → n ≤ s.cap m → k ≤ s.cap m →
    ∃ t, Host.Core.run core 2
        { s with host := [.move (.writeLen m n), .move (.writeLen m k)] } = .next t ∧
      t.host = [] ∧ (∀ j, t.mem j = s.mem j) ∧ (s.params.valid → t.len m = k)

/-! ### Command words, launch, completion -/

/-- R79: the opcode map, and no other byte is a command. -/
def Obligations.CommandWordsAreTheOpcodeMap : Prop :=
  encode .pack = 0x01 ∧ encode .unpack = 0x02 ∧ encode .embed = 0x03 ∧ encode .extract = 0x04 ∧
    ∀ v i, decode v = .ok i ↔ v = encode i

/-- A few words written out from R78 and R79, and words with a set `ZERO` bit or a reserved `OP` (vectors HP2, HP3). -/
def Obligations.SpecWordsDecode : Prop :=
  decode 0b00000001 = .ok .pack ∧ decode 0b00000010 = .ok .unpack ∧ decode 0b00000011 = .ok .embed ∧
    decode 0b00000100 = .ok .extract ∧ decode 0x00 = .error .reservedOp ∧ decode 0x05 = .error .reservedOp ∧
    decode 0x07 = .error .reservedOp ∧ decode 0x09 = .error .zeroFieldSet ∧ decode 0x81 = .error .zeroFieldSet ∧
    decode 0xFF = .error .zeroFieldSet ∧ decodeTableWord 8 3 = some .embed

/-- R81: a reserved or illegal command word completes at once with `IllegalCommand` and changes nothing else. -/
def Obligations.ReservedWordsCompleteWithIllegalCommand : Prop :=
  ∀ (v : Byte) (s : State) (rest : List HostAction), v = 0x00 ∨ 0x05 ≤ v.toNat → s.busy = false →
    s.host = .run v :: rest →
    ∃ t, step s = .next t ∧ Completed s (some .illegalCommand) t ∧ t.err = 4 ∧ SameData s t ∧ t.host = rest

/-- R80: the launch transition; after an illegal word the next engine step is the completion with `IllegalCommand`, after a
legal one the engine's steps end in a completion. -/
def Obligations.LaunchSetsTheEngineUp : Prop :=
  ∀ (v : Byte) (s : State) (rest : List HostAction), s.busy = false → s.host = .move (.writeCmd v) :: rest →
    (∀ i, decode v = .ok i → Ready i s) →
    ∃ t, step s = .next t ∧ t.busy = true ∧ t.done = false ∧ t.err = 0 ∧ t.opr = v.extractLsb' 0 3 ∧ t.slot = 0 ∧
      t.cur = 0 ∧ t.acc = 0 ∧ t.nb = 0 ∧ t.widx = 0 ∧ SameData s t ∧
      ((∃ r, decode v = .error r) →
        ∃ u, engineStep t = .next u ∧ Completed t (some .illegalCommand) u ∧ SameData t u) ∧
      ∀ i, decode v = .ok i → ∃ n u, runEngine n t = .next u ∧ u.busy = false ∧ u.done = true

/-- When the host's next action is the command word of `i`, a step is `exec i` with that action taken off; the word placed
by `withFetchWord` is such an action, and needs the engine idle. -/
def Obligations.AStepRunsTheDecodedCommand : Prop :=
  (∀ (s : State) (v : Byte) (i : Instr) (rest : List HostAction), i.wellFormed = true → s.host = .run v :: rest →
      decode v = .ok i → step s = exec i { s with host := rest }) ∧
    ∀ (s : State) (i : Instr), s.busy = false → step (s.withFetchWord 8 (encode i).toNat) = exec i s

/-- R204: without a host action the step is the engine's, and an idle engine has none: the state stays as it is. -/
def Obligations.AStepWithoutHostActionIsTheEngines : Prop :=
  ∀ s : State, s.host = [] → step s = engineStep s ∧ (s.busy = false → step s = .next s)

/-- R35: a command is refused when a cell below a length register it reads was never written, both as one step and as a raw
launch; when all of them were, the premise holds. -/
def Obligations.UnwrittenInputsAreRefused : Prop :=
  ∀ (i : Instr) (s : State),
    ((∃ m ∈ inputsOf i, ∃ a < s.len m, (s.mem m).read a = none) → s.busy = false →
      exec i s = .refused .inputCellUnwritten ∧
        ∀ rest, step { s with host := .move (.writeCmd (encode i)) :: rest } = .refused .inputCellUnwritten) ∧
    ((∀ m, (s.mem m).wf = true) → (∀ m ∈ inputsOf i, ∀ a < s.len m, (s.mem m).read a ≠ none) →
      s.inputsWritten i = true)

/-! ### PACK -/

/-- R100: PACK's result, whatever the payload. -/
def Obligations.PackFramesThePayload : Prop :=
  encode .pack = 0x01 ∧ ∀ s, Ready .pack s → ∃ t, exec .pack s = .next t ∧ Completed s none t ∧
    t.frm.read 0 = some (BitVec.ofNat 8 ((s.msgLen.toNat >>> 24) &&& 0xFF)) ∧
    t.frm.read 1 = some (BitVec.ofNat 8 ((s.msgLen.toNat >>> 16) &&& 0xFF)) ∧
    t.frm.read 2 = some (BitVec.ofNat 8 ((s.msgLen.toNat >>> 8) &&& 0xFF)) ∧
    t.frm.read 3 = some (BitVec.ofNat 8 (s.msgLen.toNat &&& 0xFF)) ∧
    (∀ i < s.msgLen.toNat, t.frm.read (4 + i) = s.msg.read i ∧ s.msg.read i ≠ none) ∧
    t.frmLen.toNat = 4 + s.msgLen.toNat ∧ (∀ i, 4 + s.msgLen.toNat ≤ i → t.frm.read i = s.frm.read i) ∧
    t.msg = s.msg ∧ t.msgLen = s.msgLen ∧ t.cb = s.cb ∧ t.cbLen = s.cbLen ∧ t.ctrl = s.ctrl ∧ t.params = s.params ∧
    SameHost s t

/-- R102: after PACK the header reads as `MSGLEN`, and PACK never fails. -/
def Obligations.PackHeaderReadsBack : Prop :=
  ∀ s, Ready .pack s → ∃ t, exec .pack s = .next t ∧ t.err = 0 ∧ t.headerLength = some s.msgLen.toNat ∧
    t.frmLen.toNat = 4 + s.msgLen.toNat ∧ (∀ i < s.msgLen.toNat, t.frm.read (4 + i) = s.msg.read i) ∧
    t.msg = s.msg ∧ t.msgLen = s.msgLen

/-- The frame of PACK (R50, R100): whatever state it starts from, only `STATUS`, the engine registers a launch writes,
`FRMLEN`, and `FRM` below `4 + MSGLEN` may change. -/
def Obligations.PackFrame : Prop :=
  ∀ s t, exec .pack s = .next t →
    t.params = s.params ∧ t.cb = s.cb ∧ t.msg = s.msg ∧ t.cbLen = s.cbLen ∧ t.msgLen = s.msgLen ∧ t.ctrl = s.ctrl ∧
    t.lreg = s.lreg ∧ reservedField t.status = reservedField s.status ∧ SameHost s t ∧
    ∀ a, 4 + s.msgLen.toNat ≤ a → t.frm.read a = s.frm.read a

/-! ### UNPACK -/

/-- R104: UNPACK's result: the two checks in order, and the payload. -/
def Obligations.UnpackChecksThenCopies : Prop :=
  encode .unpack = 0x02 ∧ ∀ s, Ready .unpack s → ∃ t, exec .unpack s = .next t ∧
    (s.frmLen.toNat < 4 → Completed s (some .format) t ∧ SameData s t) ∧
    (4 ≤ s.frmLen.toNat → ∃ b0 b1 b2 b3, s.frm.read 0 = some b0 ∧ s.frm.read 1 = some b1 ∧ s.frm.read 2 = some b2 ∧
      s.frm.read 3 = some b3 ∧
      ∀ L, L = b0.toNat * 2 ^ 24 + b1.toNat * 2 ^ 16 + b2.toNat * 2 ^ 8 + b3.toNat →
        t.lreg.toNat = L ∧
        (4 + L > s.frmLen.toNat → Completed s (some .format) t ∧ SameData s t) ∧
        (4 + L ≤ s.frmLen.toNat → Completed s none t ∧ t.msgLen.toNat = L ∧
          (∀ i < L, t.msg.read i = s.frm.read (4 + i) ∧ s.frm.read (4 + i) ≠ none) ∧
          (∀ i, L ≤ i → t.msg.read i = s.msg.read i) ∧
          t.frm = s.frm ∧ t.frmLen = s.frmLen ∧ t.cb = s.cb ∧ t.cbLen = s.cbLen ∧ t.ctrl = s.ctrl ∧
          t.params = s.params)) ∧
    SameHost s t

/-- R172: UNPACK reports `FormatError` exactly on a short header or a length beyond the frame. -/
def Obligations.FormatErrorExactly : Prop :=
  ∀ s, Ready .unpack s → ∃ t, exec .unpack s = .next t ∧
    (t.err = 2 ↔ s.frmLen.toNat < 4 ∨
      (4 ≤ s.frmLen.toNat ∧ ∃ b0 b1 b2 b3, s.frm.read 0 = some b0 ∧ s.frm.read 1 = some b1 ∧ s.frm.read 2 = some b2 ∧
        s.frm.read 3 = some b3 ∧ 4 + unbe32 b0 b1 b2 b3 > s.frmLen.toNat))

/-- The frame of UNPACK (R50, R104): only `STATUS`, the engine registers, `MSGLEN` and `MSG` below the announced length may
change, and on an error not even those two. That a short header leaves `LREG` as it was is the model's choice (log entry
11), since R32 leaves the registers between commands unspecified. -/
def Obligations.UnpackFrame : Prop :=
  ∀ s t, exec .unpack s = .next t →
    t.params = s.params ∧ t.cb = s.cb ∧ t.frm = s.frm ∧ t.cbLen = s.cbLen ∧ t.frmLen = s.frmLen ∧ t.ctrl = s.ctrl ∧
    reservedField t.status = reservedField s.status ∧ SameHost s t ∧
    (∀ a, (∀ L, s.headerLength = some L → L ≤ a) → t.msg.read a = s.msg.read a) ∧
    (s.frameBad → t.msg = s.msg ∧ t.msgLen = s.msgLen) ∧ (s.frmLen.toNat < 4 → t.lreg = s.lreg)

/-- R106: UNPACK after PACK gives the payload back, also with any bytes appended to the frame. -/
def Obligations.UnpackInvertsPack : Prop :=
  ∀ s t u, Ready .pack s → exec .pack s = .next t → Ready .unpack u → t.frmLen.toNat ≤ u.frmLen.toNat →
    (∀ a < t.frmLen.toNat, u.frm.read a = t.frm.read a) →
    ∃ w, exec .unpack u = .next w ∧ w.err = 0 ∧ w.msgLen = s.msgLen ∧
      ∀ i < s.msgLen.toNat, w.msg.read i = s.msg.read i

/-! ### EMBED -/

/-- R120: EMBED's result: the two checks in order, then the bits of the frame in the slots. -/
def Obligations.EmbedWritesTheFrameBits : Prop :=
  encode .embed = 0x03 ∧ ∀ s, Ready .embed s → ∃ t, exec .embed s = .next t ∧
    (s.cbLen % 4 ≠ 0 → Completed s (some .inputShape) t ∧ t.cb = s.cb) ∧
    (s.cbLen % 4 = 0 → s.trunc = false → 8 * s.frmLen.toNat > 3 * (s.cbLen / 4) →
      Completed s (some .capacity) t ∧ t.cb = s.cb) ∧
    (s.cbLen % 4 = 0 → (s.trunc = true ∨ 8 * s.frmLen.toNat ≤ 3 * (s.cbLen / 4)) →
      Completed s none t ∧
      (∀ k < min (8 * s.frmLen.toNat) (3 * (s.cbLen / 4)), ∃ f v, s.frm.read (k / 8) = some f ∧
        s.cb.read (4 * (k / 3) + k % 3) = some v ∧
        t.cb.read (4 * (k / 3) + k % 3) = some ((v &&& 0xFE) ||| ((f >>> (7 - k % 8)) &&& 1))) ∧
      ∀ i, (∀ k < min (8 * s.frmLen.toNat) (3 * (s.cbLen / 4)), i ≠ 4 * (k / 3) + k % 3) →
        t.cb.read i = s.cb.read i) ∧
    t.frm = s.frm ∧ t.frmLen = s.frmLen ∧ t.cbLen = s.cbLen ∧ t.msg = s.msg ∧ t.msgLen = s.msgLen ∧
    t.ctrl = s.ctrl ∧ t.params = s.params ∧ SameHost s t

/-- R128: on `CapacityError` or `InputShapeError` the channel buffer is byte-identical to its pre-call state. -/
def Obligations.EmbedFailureIsAtomic : Prop :=
  ∀ s, Ready .embed s → (s.cbLen % 4 ≠ 0 ∨ (s.trunc = false ∧ 8 * s.frmLen.toNat > 3 * (s.cbLen / 4))) →
    ∃ t, exec .embed s = .next t ∧ (s.cbLen % 4 ≠ 0 → t.err = 3) ∧ (s.cbLen % 4 = 0 → t.err = 1) ∧ t.cb = s.cb ∧
      t.cbLen = s.cbLen ∧ t.busy = false ∧ t.done = true

/-- R129: EMBED leaves every alpha cell unchanged, and every other byte differs in at most its least-significant bit, so it
moves by −1, 0 or +1. -/
def Obligations.EmbedKeepsAlphaAndUpperBits : Prop :=
  ∀ s t, exec .embed s = .next t →
    (∀ i, i % 4 = 3 → t.cb.read i = s.cb.read i) ∧
    ∀ i v w, s.cb.read i = some v → t.cb.read i = some w →
      (v ^^^ w = 0 ∨ v ^^^ w = 1) ∧ v.extractLsb' 1 7 = w.extractLsb' 1 7 ∧
        (w.toNat = v.toNat ∨ w.toNat = v.toNat + 1 ∨ w.toNat + 1 = v.toNat)

/-- R171: EMBED reports `CapacityError` exactly when the check is on, the shape is good and the bits required exceed the
usable slots, and then before any mutation. -/
def Obligations.CapacityErrorExactly : Prop :=
  ∀ s, Ready .embed s → ∃ t, exec .embed s = .next t ∧
    (t.err = 1 ↔ s.trunc = false ∧ s.cbLen % 4 = 0 ∧ 8 * s.frmLen.toNat > 3 * (s.cbLen / 4)) ∧
    (t.err = 1 → t.cb = s.cb)

/-- R127: with `TRUNC = 1` EMBED writes the first `min(N, U)` bits and completes without an error, and where the frame fits
the result is the one of the default mode. -/
def Obligations.TruncationModeWritesWhatFits : Prop :=
  ∀ s, Ready .embed s → s.trunc = true → s.cbLen % 4 = 0 →
    ∃ t, exec .embed s = .next t ∧ t.err = 0 ∧
      (∀ k < min (8 * s.frmLen.toNat) (3 * (s.cbLen / 4)), ∃ v, t.cb.read (slotIndex k) = some v ∧
        s.frm.fbit k = some (lsb v)) ∧
      (8 * s.frmLen.toNat ≤ 3 * (s.cbLen / 4) →
        ∃ t', exec .embed { s with ctrl := 0x00 } = .next t' ∧ t'.err = 0 ∧ ∀ a, t'.cb.read a = t.cb.read a)

/-- The frame of EMBED (R50, R120): only `STATUS`, the engine registers a launch or the loop writes, and the written slots
of `CB` may change. -/
def Obligations.EmbedFrame : Prop :=
  ∀ s t, exec .embed s = .next t →
    t.params = s.params ∧ t.msg = s.msg ∧ t.frm = s.frm ∧ t.cbLen = s.cbLen ∧ t.msgLen = s.msgLen ∧
    t.frmLen = s.frmLen ∧ t.ctrl = s.ctrl ∧ t.lreg = s.lreg ∧ reservedField t.status = reservedField s.status ∧
    SameHost s t ∧ ∀ a, (∀ k < s.slotsWritten, a ≠ slotIndex k) → t.cb.read a = s.cb.read a

/-! ### EXTRACT -/

/-- R140: EXTRACT's result: the shape check, then the slots' bits packed first bit highest, the rest dropped. -/
def Obligations.ExtractPacksTheSlotBits : Prop :=
  encode .extract = 0x04 ∧ ∀ s, Ready .extract s → ∃ t, exec .extract s = .next t ∧
    (s.cbLen % 4 ≠ 0 → Completed s (some .inputShape) t ∧ t.frm = s.frm ∧ t.frmLen = s.frmLen) ∧
    (s.cbLen % 4 = 0 → Completed s none t ∧ t.frmLen.toNat = 3 * (s.cbLen / 4) / 8 ∧
      (∀ j < 3 * (s.cbLen / 4) / 8, ∃ (b : Byte) (bit : Nat → Byte), t.frm.read j = some b ∧
        (∀ k < 8, s.cb.read (4 * ((8 * j + k) / 3) + (8 * j + k) % 3) = some (bit k)) ∧
        b.toNat = ∑ k ∈ Finset.range 8, (bit k &&& 1).toNat <<< (7 - k)) ∧
      ∀ i, 3 * (s.cbLen / 4) / 8 ≤ i → t.frm.read i = s.frm.read i) ∧
    t.cb = s.cb ∧ t.cbLen = s.cbLen ∧ t.msg = s.msg ∧ t.msgLen = s.msgLen ∧ t.ctrl = s.ctrl ∧ t.params = s.params ∧
    SameHost s t

/-- R145: in cursor order, bit `k` of the extracted bytes is the least-significant bit of slot `k`. -/
def Obligations.ExtractedBitsAreTheSlotBits : Prop :=
  ∀ s, Ready .extract s → s.cbLen % 4 = 0 → ∃ t, exec .extract s = .next t ∧ t.err = 0 ∧
    t.frmLen.toNat = usable s.cbLen / 8 ∧
    ∀ k < 8 * t.frmLen.toNat, t.frm.fbit k ≠ none ∧ t.frm.fbit k = (s.cb.read (slotIndex k)).map lsb

/-- R146: EXTRACT depends on `CBLEN` and the least-significant bits of the usable slots only: not on the alpha bytes, the
upper seven bits, `CTRL`, the other memories or anything left by an earlier command. -/
def Obligations.ExtractDependsOnSlotBitsOnly : Prop :=
  ∀ s s', Ready .extract s → Ready .extract s' → s'.cbLen = s.cbLen →
    (∀ k < usable s.cbLen, (s'.cb.read (slotIndex k)).map lsb = (s.cb.read (slotIndex k)).map lsb) →
    ∃ t t', exec .extract s = .next t ∧ exec .extract s' = .next t' ∧ SameResult .extract t t'

/-- The frame of EXTRACT (R50, R140): only `STATUS`, the engine registers, `FRMLEN` and `FRM` below the bytes produced may
change. -/
def Obligations.ExtractFrame : Prop :=
  ∀ s t, exec .extract s = .next t →
    t.params = s.params ∧ t.cb = s.cb ∧ t.msg = s.msg ∧ t.cbLen = s.cbLen ∧ t.msgLen = s.msgLen ∧ t.ctrl = s.ctrl ∧
    t.lreg = s.lreg ∧ reservedField t.status = reservedField s.status ∧ SameHost s t ∧
    (∀ a, usable s.cbLen / 8 ≤ a → t.frm.read a = s.frm.read a) ∧
    (s.cbLen % 4 ≠ 0 → t.frm = s.frm ∧ t.frmLen = s.frmLen)

/-- R147: EXTRACT gives back the bits EMBED wrote, and without truncation the embedded frame is a prefix of its output. -/
def Obligations.ExtractInvertsEmbed : Prop :=
  ∀ s t u, Ready .embed s → exec .embed s = .next t → t.err = 0 → Ready .extract u → u.cb = t.cb → u.cbLen = t.cbLen →
    ∃ w, exec .extract u = .next w ∧ w.err = 0 ∧
      (∀ k < min (min (8 * s.frmLen.toNat) (usable s.cbLen)) (8 * w.frmLen.toNat), w.frm.fbit k = s.frm.fbit k) ∧
      (s.trunc = false → s.frmLen.toNat ≤ w.frmLen.toNat ∧ ∀ j < s.frmLen.toNat, w.frm.read j = s.frm.read j)

/-! ### Errors and results of every command -/

/-- R173: EMBED and EXTRACT report `InputShapeError` exactly when `CBLEN` is not a multiple of 4, whatever else holds; PACK
and UNPACK never do. -/
def Obligations.InputShapeErrorExactly : Prop :=
  ∀ i s, Ready i s → ∃ t, exec i s = .next t ∧
    (t.err = 3 ↔ (i = .embed ∨ i = .extract) ∧ s.cbLen % 4 ≠ 0)

/-- R170: which command can raise which error. -/
def Obligations.EachCommandsErrors : Prop :=
  ∀ i s, Ready i s → ∃ t, exec i s = .next t ∧ t.busy = false ∧ t.done = true ∧
    (match i with
      | .pack => t.err = 0
      | .unpack => t.err = 0 ∨ t.err = 2
      | .embed => t.err = 0 ∨ (t.err = 1 ∧ s.trunc = false) ∨ t.err = 3
      | .extract => t.err = 0 ∨ t.err = 3)

/-- R176: `raise E` writes `BUSY = 0`, `DONE = 1` and the code of `E` and nothing else of the block, and leaves the engine
idle; and a command that ends in an error has changed nothing but `STATUS` and the engine registers since its launch. -/
def Obligations.ErrorsChangeOnlyStatus : Prop :=
  (∀ (e : ErrorKind) (s : State), Completed s (some e) (s.raise e) ∧ SameData s (s.raise e) ∧
      engineStep (s.raise e) = .next (s.raise e)) ∧
    ∀ i s t, s.busy = false → exec i s = .next t → t.err ≠ 0 →
      (∃ e, Completed s (some e) t) ∧ SameData s t ∧ SameHost s t ∧ engineStep t = .next t

/-- R32: the result of a command is a function of its input memories, their length registers and `CTRL` alone. -/
def Obligations.ResultDependsOnInputsOnly : Prop :=
  ∀ i s s', Ready i s → Ready i s' → SameInputs i s s' →
    ∃ t t', exec i s = .next t ∧ exec i s' = .next t' ∧ SameResult i t t'

/-- R60: repeating a command changes nothing. -/
def Obligations.RepeatingACommandChangesNothing : Prop :=
  ∀ i s, Ready i s → (∀ m, (s.mem m).wf = true) →
    ∃ t u, exec i s = .next t ∧ exec i t = .next u ∧ SameData t u ∧ u.status = t.status

/-! ### The engine's steps -/

/-- R101, R105, R123, R124, R143, R144: after the launch, the engine's steps, as many as R203 counts, reach exactly the
state that `exec` gives in one step. The equality of the two ways at the completion is the model's inference (log entry 18). -/
def Obligations.EngineStepsRealiseTheCommand : Prop :=
  ∀ i s, Ready i s → ∃ t, exec i s = .next t ∧ runEngine (stepCount i s) (s.launch (encode i)) = .next t

/-- R203: the command is still busy before the last of the counted steps. -/
def Obligations.StepCountsAreExact : Prop :=
  ∀ i s, Ready i s → ∀ n < stepCount i s, ∃ t, runEngine n (s.launch (encode i)) = .next t ∧ t.busy = true

/-- R86, D19: writing `CMD` and waiting for `DONE`, step by step, ends where the one-step command and its wait end.
The one-step action `run` is the model's choice (log entries 4 and 18). -/
def Obligations.WaitingForDoneEqualsTheOneStepCommand : Prop :=
  ∀ i s rest, Ready i s → ∃ t,
    Host.Core.run core (stepCount i s + 2) { s with host := .move (.writeCmd (encode i)) :: .await :: rest } = .next t ∧
    Host.Core.run core 2 { s with host := .run (encode i) :: .await :: rest } = .next t ∧
    t.host = rest ∧ t.hostStatus = some t.status ∧ t.done = true

/-- R101: PACK's header steps, copy steps and final step. -/
def Obligations.PackStepsInOrder : Prop :=
  ∀ s, s.busy = true → s.opr = 1 →
    (∀ t : Fin 4, s.phase = .header t → ∃ u, engineStep s = .next u ∧
      u.frm.read t.val = some (BitVec.ofNat 8 ((s.msgLen.toNat >>> (8 * (3 - t.val))) &&& 0xFF)) ∧
      (∀ x, x ≠ t.val → u.frm.read x = s.frm.read x) ∧ u.phase = (if t = 3 then .data else .header (t + 1)) ∧
      u.widx = s.widx ∧ u.status = s.status ∧ u.frmLen = s.frmLen) ∧
    (∀ b, s.phase = .data → s.widx.toNat < s.msgLen.toNat → s.len .msg ≤ s.cap .msg →
      s.msg.read s.widx.toNat = some b → ∃ u, engineStep s = .next u ∧ u.frm.read (4 + s.widx.toNat) = some b ∧
      (∀ x, x ≠ 4 + s.widx.toNat → u.frm.read x = s.frm.read x) ∧ u.widx.toNat = s.widx.toNat + 1 ∧
      u.phase = .data ∧ u.status = s.status ∧ u.frmLen = s.frmLen) ∧
    (s.phase = .data → s.msgLen.toNat ≤ s.widx.toNat → ∃ u, engineStep s = .next u ∧
      u.frmLen.toNat = 4 + s.msgLen.toNat ∧ u.frm = s.frm ∧ Completed s none u)

/-- R105: UNPACK's check step, header steps, second check step, copy steps and final step. -/
def Obligations.UnpackStepsInOrder : Prop :=
  ∀ s, s.busy = true → s.opr = 2 → s.len .frm ≤ s.cap .frm →
    (s.phase = .check → s.frmLen.toNat < 4 → ∃ u, engineStep s = .next u ∧ Completed s (some .format) u ∧ SameData s u) ∧
    (s.phase = .check → 4 ≤ s.frmLen.toNat → ∃ u, engineStep s = .next u ∧ u.phase = .header 0 ∧ SameData s u ∧
      u.status = s.status) ∧
    (∀ (t : Fin 4) (b : Byte), s.phase = .header t → 4 ≤ s.frmLen.toNat → s.frm.read t.val = some b →
      ∃ u, engineStep s = .next u ∧ u.lreg = (((if t = 0 then 0 else s.lreg) <<< 8) ||| b.setWidth 32) ∧
      u.phase = (if t = 3 then .lengthCheck else .header (t + 1)) ∧ SameData s u ∧ u.status = s.status) ∧
    (s.phase = .lengthCheck → 4 + s.lreg.toNat > s.frmLen.toNat →
      ∃ u, engineStep s = .next u ∧ Completed s (some .format) u ∧ SameData s u) ∧
    (s.phase = .lengthCheck → 4 + s.lreg.toNat ≤ s.frmLen.toNat →
      ∃ u, engineStep s = .next u ∧ u.phase = .data ∧ SameData s u ∧ u.status = s.status) ∧
    (∀ b, s.phase = .data → s.widx.toNat < s.lreg.toNat → 4 + s.lreg.toNat ≤ s.frmLen.toNat →
      s.frm.read (4 + s.widx.toNat) = some b → ∃ u, engineStep s = .next u ∧ u.msg.read s.widx.toNat = some b ∧
      (∀ x, x ≠ s.widx.toNat → u.msg.read x = s.msg.read x) ∧ u.widx.toNat = s.widx.toNat + 1 ∧ u.phase = .data ∧
      u.status = s.status ∧ u.msgLen = s.msgLen) ∧
    (s.phase = .data → s.lreg.toNat ≤ s.widx.toNat → ∃ u, engineStep s = .next u ∧ u.msgLen = s.lreg ∧ u.msg = s.msg ∧
      Completed s none u)

/-- R123: EMBED's data step. That it keeps `SLOT = CUR` is EmbedKeepsSlotEqualToTheCursor. -/
def Obligations.EmbedDataStep : Prop :=
  ∀ (s : State) (f v : Byte), s.busy = true → s.opr = 3 → s.phase = .data → s.cur.toNat < 8 * s.frmLen.toNat →
    s.slot < 3 * (s.cbLen / 4) → s.len .frm ≤ s.cap .frm → s.len .cb ≤ s.cap .cb →
    s.frm.read (s.cur.toNat / 8) = some f → s.cb.read (4 * (s.slot / 3) + s.slot % 3) = some v →
    ∃ t, engineStep s = .next t ∧
      t.cb.read (4 * (s.slot / 3) + s.slot % 3) = some ((v &&& 0xFE) ||| ((f >>> (7 - s.cur.toNat % 8)) &&& 1)) ∧
      (∀ x, x ≠ 4 * (s.slot / 3) + s.slot % 3 → t.cb.read x = s.cb.read x) ∧
      t.cur.toNat = s.cur.toNat + 1 ∧ t.slot = s.slot + 1 ∧
      t.frm = s.frm ∧ t.msg = s.msg ∧ t.cbLen = s.cbLen ∧ t.msgLen = s.msgLen ∧ t.frmLen = s.frmLen ∧ t.ctrl = s.ctrl ∧
      t.status = s.status ∧ t.opr = s.opr ∧ t.acc = s.acc ∧ t.nb = s.nb ∧ t.widx = s.widx ∧ t.lreg = s.lreg ∧
      t.phase = s.phase

/-- R143: EXTRACT's data step: a bit into `ACC`, or, at the eighth bit, a byte into `FRM`. What it keeps of `ACC`, `NB` and
`WIDX` is ExtractKeepsTheAccumulatorRelations. -/
def Obligations.ExtractDataStep : Prop :=
  ∀ (s : State) (v : Byte), s.busy = true → s.opr = 4 → s.phase = .data → s.slot < 3 * (s.cbLen / 4) →
    s.len .cb ≤ s.cap .cb → s.cb.read (4 * (s.slot / 3) + s.slot % 3) = some v →
    (s.nb.toNat < 7 → ∃ t, engineStep s = .next t ∧ t.acc = ((s.acc <<< 1) ||| (v &&& 1)) &&& 0xFF ∧
      t.nb.toNat = s.nb.toNat + 1 ∧ t.slot = s.slot + 1 ∧ t.widx = s.widx ∧ SameData s t ∧ t.status = s.status ∧
      t.opr = s.opr ∧ t.cur = s.cur ∧ t.lreg = s.lreg ∧ t.phase = s.phase) ∧
    (s.nb.toNat = 7 → s.widx.toNat < s.cap .frm → s.widx.toNat < 2 ^ 33 - 1 → ∃ t, engineStep s = .next t ∧
      t.frm.read s.widx.toNat = some (((s.acc <<< 1) ||| (v &&& 1)) &&& 0xFF) ∧
      (∀ x, x ≠ s.widx.toNat → t.frm.read x = s.frm.read x) ∧ t.widx.toNat = s.widx.toNat + 1 ∧ t.acc = 0 ∧
      t.nb = 0 ∧ t.slot = s.slot + 1 ∧ t.cb = s.cb ∧ t.msg = s.msg ∧ t.cbLen = s.cbLen ∧ t.msgLen = s.msgLen ∧
      t.frmLen = s.frmLen ∧ t.ctrl = s.ctrl ∧ t.status = s.status ∧ t.opr = s.opr ∧ t.cur = s.cur ∧ t.lreg = s.lreg ∧
      t.phase = s.phase)

/-! ### Host programs -/

/-- R160: ENCODE as the host program it is: PACK, which does not fail, then EMBED on the frame PACK left. PACK's frame is in
`FRM` whatever the status, which is EMBED's, and `CB` is unchanged on an error. -/
def Obligations.EncodeIsPackThenEmbed : Prop :=
  expandLine .encode = [.run 0x01, .await, .ifErrSkip 2, .run 0x03, .await] ∧
  ∀ s, Ready .pack s → (∀ m, (s.mem m).wf = true) → s.cb.written s.cbLen = true → s.host = expandLine .encode →
    ∃ p e t, exec .pack s = .next p ∧ p.err = 0 ∧ exec .embed p = .next e ∧ Host.Core.run core 5 s = .next t ∧
      SameData e t ∧ t.status = e.status ∧ t.hostStatus = some e.status ∧ t.host = [] ∧
      t.busy = false ∧ t.done = true ∧ t.headerLength = some s.msgLen.toNat ∧ t.frmLen.toNat = 4 + s.msgLen.toNat ∧
      (∀ i < s.msgLen.toNat, t.frm.read (4 + i) = s.msg.read i) ∧ t.cbLen = s.cbLen ∧ t.msg = s.msg ∧
      t.msgLen = s.msgLen ∧
      (s.cbLen % 4 ≠ 0 → t.err = 3 ∧ t.cb = s.cb) ∧
      (s.cbLen % 4 = 0 → s.trunc = false → 8 * (4 + s.msgLen.toNat) > 3 * (s.cbLen / 4) → t.err = 1 ∧ t.cb = s.cb) ∧
      (s.cbLen % 4 = 0 → (s.trunc = true ∨ 8 * (4 + s.msgLen.toNat) ≤ 3 * (s.cbLen / 4)) → t.err = 0 ∧
        ∀ k < min (8 * (4 + s.msgLen.toNat)) (3 * (s.cbLen / 4)),
          (t.cb.read (slotIndex k)).map lsb = t.frm.fbit k ∧ t.frm.fbit k ≠ none)

/-- R162: DECODE as the host program it is: EXTRACT; if it raised an error, the sequence stops with that status; otherwise
UNPACK on the bytes EXTRACT left. `CB` is never written. -/
def Obligations.DecodeIsExtractThenUnpack : Prop :=
  expandLine .decode = [.run 0x04, .await, .ifErrSkip 2, .run 0x02, .await] ∧
  ∀ s, Ready .extract s → (∀ m, (s.mem m).wf = true) → s.host = expandLine .decode →
    ∃ x t, exec .extract s = .next x ∧ Host.Core.run core 5 s = .next t ∧ t.host = [] ∧ t.busy = false ∧
      t.done = true ∧ t.hostStatus = some t.status ∧ t.cb = s.cb ∧ t.cbLen = s.cbLen ∧
      (x.err ≠ 0 → SameData x t ∧ t.status = x.status) ∧
      (x.err = 0 → ∃ u, exec .unpack x = .next u ∧ SameData u t ∧ t.status = u.status) ∧
      (s.cbLen % 4 ≠ 0 → t.err = 3 ∧ SameData s t) ∧
      (s.cbLen % 4 = 0 → t.frm = x.frm ∧ t.frmLen = x.frmLen ∧ t.frmLen.toNat = 3 * (s.cbLen / 4) / 8 ∧
        (∀ k < 8 * t.frmLen.toNat, t.frm.fbit k = (s.cb.read (slotIndex k)).map lsb ∧ t.frm.fbit k ≠ none) ∧
        (t.frmLen.toNat < 4 → t.err = 2 ∧ t.msg = s.msg ∧ t.msgLen = s.msgLen) ∧
        (4 ≤ t.frmLen.toNat → ∃ L, t.headerLength = some L ∧
          (4 + L > t.frmLen.toNat → t.err = 2 ∧ t.msg = s.msg ∧ t.msgLen = s.msgLen) ∧
          (4 + L ≤ t.frmLen.toNat → t.err = 0 ∧ t.msgLen.toNat = L ∧
            ∀ i < L, t.msg.read i = t.frm.read (4 + i))))

/-- R164: the round-trip law: where the frame fits, ENCODE and then DECODE give the payload back, in either setting of
`CTRL.TRUNC`. -/
def Obligations.EncodeThenDecodeGivesThePayloadBack : Prop :=
  ∀ s, Ready .pack s → (∀ m, (s.mem m).wf = true) → s.cb.written s.cbLen = true → s.cbLen % 4 = 0 →
    8 * (4 + s.msgLen.toNat) ≤ 3 * (s.cbLen / 4) → s.host = expandLine .encode →
    ∃ t u, Host.Core.run core 5 s = .next t ∧ t.err = 0 ∧
      Host.Core.run core 5 { t with host := expandLine .decode } = .next u ∧ u.err = 0 ∧ u.host = [] ∧
      u.msgLen = s.msgLen ∧ ∀ i < s.msgLen.toNat, u.msg.read i = s.msg.read i

/-! ### The named functions of R10 -/

/-- R10: `slot` enumerates, in increasing order, exactly the indices that are not alpha positions. -/
def Obligations.SlotsEnumerateTheColourCells : Prop :=
  (∀ j k, j < k → slotIndex j < slotIndex k) ∧ (∀ i, (∃ j, slotIndex j = i) ↔ i % 4 ≠ 3) ∧
    (List.range 12).map slotIndex = [0, 1, 2, 4, 5, 6, 8, 9, 10, 12, 13, 14] ∧
    ∀ n k, n % 4 = 0 → (k < usable n ↔ slotIndex k < n)

/-- R10: `unbe32(be32(L)) = L` for every length. -/
def Obligations.LengthBytesReadBack : Prop :=
  ∀ L : BitVec 32,
    unbe32 (lengthByte L 0) (lengthByte L 1) (lengthByte L 2) (lengthByte L 3) = L.toNat

/-! ### What the engine's steps keep -/

/-- An inference the spec marks as its own (R31, R123, "derived"): `SLOT = CUR` after a launch, and every engine step of EMBED
keeps it. -/
def Obligations.EmbedKeepsSlotEqualToTheCursor : Prop :=
  (∀ (v : Byte) (s : State), (s.launch v).slot = (s.launch v).cur.toNat) ∧
    ∀ s t, s.opr = 3 → s.slot = s.cur.toNat → engineStep s = .next t → t.slot = t.cur.toNat

/-- Inferences the spec marks as its own (R30, R143, "derived"): `NB = SLOT mod 8`, `WIDX = SLOT div 8` and `ACC < 2^NB` after a
launch, every engine step of EXTRACT keeps them, and with `ACC < 2^NB` the `& 0xFF` of a data step removes no set bit. -/
def Obligations.ExtractKeepsTheAccumulatorRelations : Prop :=
  (∀ (v : Byte) (s t : State), t = s.launch v →
      t.nb.toNat = t.slot % 8 ∧ t.widx.toNat = t.slot / 8 ∧ t.acc.toNat < 2 ^ t.nb.toNat) ∧
    (∀ s t, s.params.valid → s.opr = 4 → s.nb.toNat = s.slot % 8 → s.widx.toNat = s.slot / 8 →
      s.acc.toNat < 2 ^ s.nb.toNat → engineStep s = .next t →
      t.nb.toNat = t.slot % 8 ∧ t.widx.toNat = t.slot / 8 ∧ t.acc.toNat < 2 ^ t.nb.toNat) ∧
    ∀ (s : State) (v : Byte), s.busy = true → s.opr = 4 → s.phase = .data → s.slot < 3 * (s.cbLen / 4) →
      s.len .cb ≤ s.cap .cb → s.cb.read (4 * (s.slot / 3) + s.slot % 3) = some v → s.acc.toNat < 2 ^ s.nb.toNat →
      (s.nb.toNat < 7 → ∃ t, engineStep s = .next t ∧ t.acc.toNat = 2 * s.acc.toNat + v.toNat % 2) ∧
      (s.nb.toNat = 7 → s.widx.toNat < s.cap .frm → ∃ t b, engineStep s = .next t ∧
        t.frm.read s.widx.toNat = some b ∧ b.toNat = 2 * s.acc.toNat + v.toNat % 2)
end

