-- ==== Sys2Proof/Laws/Memory.lean ====
section
/-! SUPPORT. The memory operations: a read after a write, the canonical form, the launch premise as a bounded statement, and
the reading of two equal memories. -/

namespace Sys2Proof.Machine

namespace Memory

@[simp] theorem read_nil (a : Nat) : Memory.read [] a = none := rfl

theorem read_cons (k : Nat) (v : Byte) (t : Memory) (a : Nat) :
    Memory.read ((k, v) :: t) a = if a = k then some v else Memory.read t a := rfl

/-- A read after a write gives the value written at that index and the old value elsewhere. -/
@[simp] theorem read_write (m : Memory) (a : Nat) (b : Byte) (x : Nat) :
    (Memory.write m a b).read x = if x = a then some b else m.read x := by
  induction m with
  | nil => simp [Memory.write, read_cons]
  | cons c t ih =>
    obtain ⟨k, v⟩ := c
    simp only [Memory.write]
    split
    · simp [read_cons]
    · split
      · subst_vars
        simp only [read_cons]
        split <;> rfl
      · simp only [read_cons, ih]
        split
        · subst_vars
          rw [if_neg (by omega)]
        · rfl

theorem mem_write {m : Memory} {a : Nat} {b : Byte} {c : Host.Cell} (h : c ∈ Memory.write m a b) :
    c = (a, b) ∨ c ∈ m := by
  induction m with
  | nil => exact .inl (by simpa [Memory.write] using h)
  | cons d t ih =>
    obtain ⟨k, v⟩ := d
    simp only [Memory.write] at h
    split at h
    · simpa using h
    · split at h
      · rcases List.mem_cons.1 h with h | h
        · exact .inl h
        · exact .inr (by simp [h])
      · rcases List.mem_cons.1 h with h | h
        · exact .inr (by simp [h])
        · rcases ih h with h | h
          · exact .inl h
          · exact .inr (by simp [h])

theorem wf_cons {k : Nat} {v : Byte} {t : Memory} :
    Memory.wf ((k, v) :: t) = true ↔ (∀ c ∈ t, k < c.1) ∧ Memory.wf t = true := by
  simp [Memory.wf]

/-- A write keeps the canonical form. -/
theorem wf_write {m : Memory} (a : Nat) (b : Byte) (h : m.wf = true) : (Memory.write m a b).wf = true := by
  induction m with
  | nil => simp [Memory.write, Memory.wf]
  | cons c t ih =>
    obtain ⟨k, v⟩ := c
    have h' := wf_cons.1 h
    simp only [Memory.write]
    split
    · rename_i hk
      refine wf_cons.2 ⟨?_, h⟩
      intro c hc
      rcases List.mem_cons.1 hc with rfl | hc
      · exact hk
      · exact Nat.lt_trans hk (h'.1 c hc)
    · split
      · subst_vars
        exact wf_cons.2 h'
      · refine wf_cons.2 ⟨?_, ih h'.2⟩
        intro c hc
        rcases mem_write hc with rfl | hc
        · simp only
          omega
        · exact h'.1 c hc

theorem read_none_of_lt {m : Memory} {a : Nat} (h : ∀ c ∈ m, a < c.1) : m.read a = none := by
  induction m with
  | nil => rfl
  | cons c t ih =>
    obtain ⟨k, v⟩ := c
    have hk : a < k := h (k, v) (by simp)
    rw [read_cons, if_neg (by omega), ih fun c hc => h c (by simp [hc])]

/-- Two canonical memories that read alike are equal. -/
theorem ext {m n : Memory} (hm : m.wf = true) (hn : n.wf = true) (h : ∀ a, m.read a = n.read a) : m = n := by
  induction m generalizing n with
  | nil =>
    cases n with
    | nil => rfl
    | cons c t => exact absurd (h c.1) (by simp [Memory.read])
  | cons c t ih =>
    obtain ⟨k, v⟩ := c
    cases n with
    | nil => exact absurd (h k) (by simp [Memory.read])
    | cons d u =>
      obtain ⟨l, w⟩ := d
      have hm' := wf_cons.1 hm
      have hn' := wf_cons.1 hn
      have hkl : k = l := by
        by_contra hne
        rcases Nat.lt_or_gt_of_ne hne with hlt | hgt
        · have := h k
          rw [read_cons, if_pos rfl, read_cons, if_neg hne,
            read_none_of_lt fun c hc => Nat.lt_trans hlt (hn'.1 c hc)] at this
          exact absurd this (by simp)
        · have := h l
          rw [read_cons, if_neg (Ne.symm hne), read_cons, if_pos rfl,
            read_none_of_lt fun c hc => Nat.lt_trans hgt (hm'.1 c hc)] at this
          exact absurd this (by simp)
      subst hkl
      have hv : v = w := by
        have := h k
        simpa [read_cons] using this
      subst hv
      rw [ih hm'.2 hn'.2 fun a => ?_]
      by_cases ha : a = k
      · subst ha
        rw [read_none_of_lt hm'.1, read_none_of_lt hn'.1]
      · simpa [read_cons, ha] using h a

theorem mem_of_read {m : Memory} {a : Nat} {b : Byte} (h : m.read a = some b) : (a, b) ∈ m := by
  induction m with
  | nil => simp at h
  | cons c t ih =>
    obtain ⟨k, v⟩ := c
    rw [read_cons] at h
    split at h
    · simp_all
    · simp [ih h]

/-- A cell with a known value lies within the capacity when all listed cells do. -/
theorem lt_of_read {m : Memory} {cap a : Nat} {b : Byte} (hm : ∀ c ∈ m, c.1 < cap) (h : m.read a = some b) : a < cap :=
  hm _ (mem_of_read h)

theorem writtenFrom_sound {m : Memory} {a n : Nat} (h : m.writtenFrom a n = true) :
    ∀ x, a ≤ x → x < n → (m.read x).isSome = true := by
  induction m generalizing a with
  | nil =>
    intro x hx hn
    have : n ≤ a := by simpa [Memory.writtenFrom] using h
    omega
  | cons c t ih =>
    obtain ⟨k, v⟩ := c
    intro x hx hn
    simp only [Memory.writtenFrom] at h
    rw [read_cons]
    split at h
    · omega
    · split at h
      · subst_vars
        split
        · rfl
        · exact ih h x (by omega) hn
      · split at h
        · split
          · rfl
          · exact ih h x hx hn
        · simp at h

theorem writtenFrom_complete {m : Memory} {a n : Nat} (hm : m.wf = true)
    (h : ∀ x, a ≤ x → x < n → (m.read x).isSome = true) : m.writtenFrom a n = true := by
  induction m generalizing a with
  | nil =>
    simp only [Memory.writtenFrom, decide_eq_true_eq]
    by_contra hlt
    exact absurd (h a (Nat.le_refl a) (by omega)) (by simp)
  | cons c t ih =>
    obtain ⟨k, v⟩ := c
    have hm' := wf_cons.1 hm
    simp only [Memory.writtenFrom]
    split
    · rfl
    · rename_i hna
      have hcell := h a (Nat.le_refl a) (by omega)
      split
      · subst_vars
        refine ih hm'.2 fun x hx hn => ?_
        have := h x (by omega) hn
        rwa [read_cons, if_neg (by omega)] at this
      · rename_i hne
        split
        · refine ih hm'.2 fun x hx hn => ?_
          have := h x hx hn
          rwa [read_cons, if_neg (by omega)] at this
        · rw [read_cons, if_neg (Ne.symm hne), read_none_of_lt fun c hc => ?_] at hcell
          · simp at hcell
          · exact Nat.lt_trans (by omega) (hm'.1 c hc)

/-- The premise of R35 on one memory gives a value for every cell below the length. -/
theorem read_of_written {m : Memory} {n a : Nat} (h : m.written n = true) (ha : a < n) : ∃ b, m.read a = some b :=
  Option.isSome_iff_exists.1 (writtenFrom_sound h a (Nat.zero_le a) ha)

/-- On a canonical memory the premise of R35 is exactly that every cell below the length has a value. -/
theorem written_iff {m : Memory} {n : Nat} (hm : m.wf = true) :
    m.written n = true ↔ ∀ a < n, (m.read a).isSome = true :=
  ⟨fun h a ha => writtenFrom_sound h a (Nat.zero_le a) ha,
    fun h => writtenFrom_complete hm fun x _ hx => h x hx⟩

end Memory
end Sys2Proof.Machine
end

