-- ==== Sys2Proof/Laws/State.lean ====
section
/-! SUPPORT. One lemma for each field of State under each of the shared updates, so that no later proof unfolds a record
update. -/

namespace Sys2Proof.Machine

variable (s : State)

@[simp] theorem State.launch_params (v : Byte) : (s.launch v).params = s.params := rfl
@[simp] theorem State.launch_cb (v : Byte) : (s.launch v).cb = s.cb := rfl
@[simp] theorem State.launch_msg (v : Byte) : (s.launch v).msg = s.msg := rfl
@[simp] theorem State.launch_frm (v : Byte) : (s.launch v).frm = s.frm := rfl
@[simp] theorem State.launch_cbLen (v : Byte) : (s.launch v).cbLen = s.cbLen := rfl
@[simp] theorem State.launch_msgLen (v : Byte) : (s.launch v).msgLen = s.msgLen := rfl
@[simp] theorem State.launch_frmLen (v : Byte) : (s.launch v).frmLen = s.frmLen := rfl
@[simp] theorem State.launch_ctrl (v : Byte) : (s.launch v).ctrl = s.ctrl := rfl
@[simp] theorem State.launch_status (v : Byte) : (s.launch v).status = statusWord s.status true false 0 := rfl
@[simp] theorem State.launch_opr (v : Byte) : (s.launch v).opr = opField v := rfl
@[simp] theorem State.launch_slot (v : Byte) : (s.launch v).slot = 0 := rfl
@[simp] theorem State.launch_cur (v : Byte) : (s.launch v).cur = 0 := rfl
@[simp] theorem State.launch_acc (v : Byte) : (s.launch v).acc = 0 := rfl
@[simp] theorem State.launch_nb (v : Byte) : (s.launch v).nb = 0 := rfl
@[simp] theorem State.launch_widx (v : Byte) : (s.launch v).widx = 0 := rfl
@[simp] theorem State.launch_lreg (v : Byte) : (s.launch v).lreg = s.lreg := rfl
@[simp] theorem State.launch_phase (v : Byte) : (s.launch v).phase = firstPhase v := rfl
@[simp] theorem State.launch_host (v : Byte) : (s.launch v).host = s.host := rfl
@[simp] theorem State.launch_hostData (v : Byte) : (s.launch v).hostData = s.hostData := rfl
@[simp] theorem State.launch_hostStatus (v : Byte) : (s.launch v).hostStatus = s.hostStatus := rfl
@[simp] theorem State.launch_epoch (v : Byte) : (s.launch v).epoch = s.epoch := rfl
@[simp] theorem State.launch_draws (v : Byte) : (s.launch v).draws = s.draws := rfl

@[simp] theorem State.complete_params (e : Option ErrorKind) : (s.complete e).params = s.params := rfl
@[simp] theorem State.complete_cb (e : Option ErrorKind) : (s.complete e).cb = s.cb := rfl
@[simp] theorem State.complete_msg (e : Option ErrorKind) : (s.complete e).msg = s.msg := rfl
@[simp] theorem State.complete_frm (e : Option ErrorKind) : (s.complete e).frm = s.frm := rfl
@[simp] theorem State.complete_cbLen (e : Option ErrorKind) : (s.complete e).cbLen = s.cbLen := rfl
@[simp] theorem State.complete_msgLen (e : Option ErrorKind) : (s.complete e).msgLen = s.msgLen := rfl
@[simp] theorem State.complete_frmLen (e : Option ErrorKind) : (s.complete e).frmLen = s.frmLen := rfl
@[simp] theorem State.complete_ctrl (e : Option ErrorKind) : (s.complete e).ctrl = s.ctrl := rfl
@[simp] theorem State.complete_status (e : Option ErrorKind) : (s.complete e).status = statusWord s.status false true (errCode e) := rfl
@[simp] theorem State.complete_opr (e : Option ErrorKind) : (s.complete e).opr = s.opr := rfl
@[simp] theorem State.complete_slot (e : Option ErrorKind) : (s.complete e).slot = s.slot := rfl
@[simp] theorem State.complete_cur (e : Option ErrorKind) : (s.complete e).cur = s.cur := rfl
@[simp] theorem State.complete_acc (e : Option ErrorKind) : (s.complete e).acc = s.acc := rfl
@[simp] theorem State.complete_nb (e : Option ErrorKind) : (s.complete e).nb = s.nb := rfl
@[simp] theorem State.complete_widx (e : Option ErrorKind) : (s.complete e).widx = s.widx := rfl
@[simp] theorem State.complete_lreg (e : Option ErrorKind) : (s.complete e).lreg = s.lreg := rfl
@[simp] theorem State.complete_phase (e : Option ErrorKind) : (s.complete e).phase = .idle := rfl
@[simp] theorem State.complete_host (e : Option ErrorKind) : (s.complete e).host = s.host := rfl
@[simp] theorem State.complete_hostData (e : Option ErrorKind) : (s.complete e).hostData = s.hostData := rfl
@[simp] theorem State.complete_hostStatus (e : Option ErrorKind) : (s.complete e).hostStatus = s.hostStatus := rfl
@[simp] theorem State.complete_epoch (e : Option ErrorKind) : (s.complete e).epoch = s.epoch := rfl
@[simp] theorem State.complete_draws (e : Option ErrorKind) : (s.complete e).draws = s.draws := rfl

theorem State.raise_eq (e : ErrorKind) : s.raise e = s.complete (some e) := rfl

@[simp] theorem State.resetBlock_params : (s.resetBlock).params = s.params := rfl
@[simp] theorem State.resetBlock_cb : (s.resetBlock).cb = [] := rfl
@[simp] theorem State.resetBlock_msg : (s.resetBlock).msg = [] := rfl
@[simp] theorem State.resetBlock_frm : (s.resetBlock).frm = [] := rfl
@[simp] theorem State.resetBlock_cbLen : (s.resetBlock).cbLen = 0 := rfl
@[simp] theorem State.resetBlock_msgLen : (s.resetBlock).msgLen = 0 := rfl
@[simp] theorem State.resetBlock_frmLen : (s.resetBlock).frmLen = 0 := rfl
@[simp] theorem State.resetBlock_ctrl : (s.resetBlock).ctrl = 0 := rfl
@[simp] theorem State.resetBlock_status : (s.resetBlock).status = 0 := rfl
@[simp] theorem State.resetBlock_opr : (s.resetBlock).opr = 0 := rfl
@[simp] theorem State.resetBlock_slot : (s.resetBlock).slot = 0 := rfl
@[simp] theorem State.resetBlock_cur : (s.resetBlock).cur = 0 := rfl
@[simp] theorem State.resetBlock_acc : (s.resetBlock).acc = 0 := rfl
@[simp] theorem State.resetBlock_nb : (s.resetBlock).nb = 0 := rfl
@[simp] theorem State.resetBlock_widx : (s.resetBlock).widx = 0 := rfl
@[simp] theorem State.resetBlock_lreg : (s.resetBlock).lreg = 0 := rfl
@[simp] theorem State.resetBlock_phase : (s.resetBlock).phase = .idle := rfl
@[simp] theorem State.resetBlock_host : (s.resetBlock).host = s.host := rfl
@[simp] theorem State.resetBlock_hostData : (s.resetBlock).hostData = s.hostData := rfl
@[simp] theorem State.resetBlock_hostStatus : (s.resetBlock).hostStatus = s.hostStatus := rfl
@[simp] theorem State.resetBlock_epoch : (s.resetBlock).epoch = s.epoch + 1 := rfl
@[simp] theorem State.resetBlock_draws : (s.resetBlock).draws = s.draws := rfl

@[simp] theorem State.setMem_params (m : MemId) (v : Memory) : (s.setMem m v).params = s.params := by cases m <;> rfl
@[simp] theorem State.setMem_cbLen (m : MemId) (v : Memory) : (s.setMem m v).cbLen = s.cbLen := by cases m <;> rfl
@[simp] theorem State.setMem_msgLen (m : MemId) (v : Memory) : (s.setMem m v).msgLen = s.msgLen := by cases m <;> rfl
@[simp] theorem State.setMem_frmLen (m : MemId) (v : Memory) : (s.setMem m v).frmLen = s.frmLen := by cases m <;> rfl
@[simp] theorem State.setMem_ctrl (m : MemId) (v : Memory) : (s.setMem m v).ctrl = s.ctrl := by cases m <;> rfl
@[simp] theorem State.setMem_status (m : MemId) (v : Memory) : (s.setMem m v).status = s.status := by cases m <;> rfl
@[simp] theorem State.setMem_opr (m : MemId) (v : Memory) : (s.setMem m v).opr = s.opr := by cases m <;> rfl
@[simp] theorem State.setMem_slot (m : MemId) (v : Memory) : (s.setMem m v).slot = s.slot := by cases m <;> rfl
@[simp] theorem State.setMem_cur (m : MemId) (v : Memory) : (s.setMem m v).cur = s.cur := by cases m <;> rfl
@[simp] theorem State.setMem_acc (m : MemId) (v : Memory) : (s.setMem m v).acc = s.acc := by cases m <;> rfl
@[simp] theorem State.setMem_nb (m : MemId) (v : Memory) : (s.setMem m v).nb = s.nb := by cases m <;> rfl
@[simp] theorem State.setMem_widx (m : MemId) (v : Memory) : (s.setMem m v).widx = s.widx := by cases m <;> rfl
@[simp] theorem State.setMem_lreg (m : MemId) (v : Memory) : (s.setMem m v).lreg = s.lreg := by cases m <;> rfl
@[simp] theorem State.setMem_phase (m : MemId) (v : Memory) : (s.setMem m v).phase = s.phase := by cases m <;> rfl
@[simp] theorem State.setMem_host (m : MemId) (v : Memory) : (s.setMem m v).host = s.host := by cases m <;> rfl
@[simp] theorem State.setMem_hostData (m : MemId) (v : Memory) : (s.setMem m v).hostData = s.hostData := by cases m <;> rfl
@[simp] theorem State.setMem_hostStatus (m : MemId) (v : Memory) : (s.setMem m v).hostStatus = s.hostStatus := by cases m <;> rfl
@[simp] theorem State.setMem_epoch (m : MemId) (v : Memory) : (s.setMem m v).epoch = s.epoch := by cases m <;> rfl
@[simp] theorem State.setMem_draws (m : MemId) (v : Memory) : (s.setMem m v).draws = s.draws := by cases m <;> rfl
@[simp] theorem State.setLen_params (m : MemId) (n : Nat) : (s.setLen m n).params = s.params := by cases m <;> rfl
@[simp] theorem State.setLen_cb (m : MemId) (n : Nat) : (s.setLen m n).cb = s.cb := by cases m <;> rfl
@[simp] theorem State.setLen_msg (m : MemId) (n : Nat) : (s.setLen m n).msg = s.msg := by cases m <;> rfl
@[simp] theorem State.setLen_frm (m : MemId) (n : Nat) : (s.setLen m n).frm = s.frm := by cases m <;> rfl
@[simp] theorem State.setLen_ctrl (m : MemId) (n : Nat) : (s.setLen m n).ctrl = s.ctrl := by cases m <;> rfl
@[simp] theorem State.setLen_status (m : MemId) (n : Nat) : (s.setLen m n).status = s.status := by cases m <;> rfl
@[simp] theorem State.setLen_opr (m : MemId) (n : Nat) : (s.setLen m n).opr = s.opr := by cases m <;> rfl
@[simp] theorem State.setLen_slot (m : MemId) (n : Nat) : (s.setLen m n).slot = s.slot := by cases m <;> rfl
@[simp] theorem State.setLen_cur (m : MemId) (n : Nat) : (s.setLen m n).cur = s.cur := by cases m <;> rfl
@[simp] theorem State.setLen_acc (m : MemId) (n : Nat) : (s.setLen m n).acc = s.acc := by cases m <;> rfl
@[simp] theorem State.setLen_nb (m : MemId) (n : Nat) : (s.setLen m n).nb = s.nb := by cases m <;> rfl
@[simp] theorem State.setLen_widx (m : MemId) (n : Nat) : (s.setLen m n).widx = s.widx := by cases m <;> rfl
@[simp] theorem State.setLen_lreg (m : MemId) (n : Nat) : (s.setLen m n).lreg = s.lreg := by cases m <;> rfl
@[simp] theorem State.setLen_phase (m : MemId) (n : Nat) : (s.setLen m n).phase = s.phase := by cases m <;> rfl
@[simp] theorem State.setLen_host (m : MemId) (n : Nat) : (s.setLen m n).host = s.host := by cases m <;> rfl
@[simp] theorem State.setLen_hostData (m : MemId) (n : Nat) : (s.setLen m n).hostData = s.hostData := by cases m <;> rfl
@[simp] theorem State.setLen_hostStatus (m : MemId) (n : Nat) : (s.setLen m n).hostStatus = s.hostStatus := by cases m <;> rfl
@[simp] theorem State.setLen_epoch (m : MemId) (n : Nat) : (s.setLen m n).epoch = s.epoch := by cases m <;> rfl
@[simp] theorem State.setLen_draws (m : MemId) (n : Nat) : (s.setLen m n).draws = s.draws := by cases m <;> rfl
@[simp] theorem State.answerBusy_params (v : HostValue) : (s.answerBusy v).params = s.params := rfl
@[simp] theorem State.answerBusy_cb (v : HostValue) : (s.answerBusy v).cb = s.cb := rfl
@[simp] theorem State.answerBusy_msg (v : HostValue) : (s.answerBusy v).msg = s.msg := rfl
@[simp] theorem State.answerBusy_frm (v : HostValue) : (s.answerBusy v).frm = s.frm := rfl
@[simp] theorem State.answerBusy_cbLen (v : HostValue) : (s.answerBusy v).cbLen = s.cbLen := rfl
@[simp] theorem State.answerBusy_msgLen (v : HostValue) : (s.answerBusy v).msgLen = s.msgLen := rfl
@[simp] theorem State.answerBusy_frmLen (v : HostValue) : (s.answerBusy v).frmLen = s.frmLen := rfl
@[simp] theorem State.answerBusy_ctrl (v : HostValue) : (s.answerBusy v).ctrl = s.ctrl := rfl
@[simp] theorem State.answerBusy_status (v : HostValue) : (s.answerBusy v).status = s.status := rfl
@[simp] theorem State.answerBusy_opr (v : HostValue) : (s.answerBusy v).opr = s.opr := rfl
@[simp] theorem State.answerBusy_slot (v : HostValue) : (s.answerBusy v).slot = s.slot := rfl
@[simp] theorem State.answerBusy_cur (v : HostValue) : (s.answerBusy v).cur = s.cur := rfl
@[simp] theorem State.answerBusy_acc (v : HostValue) : (s.answerBusy v).acc = s.acc := rfl
@[simp] theorem State.answerBusy_nb (v : HostValue) : (s.answerBusy v).nb = s.nb := rfl
@[simp] theorem State.answerBusy_widx (v : HostValue) : (s.answerBusy v).widx = s.widx := rfl
@[simp] theorem State.answerBusy_lreg (v : HostValue) : (s.answerBusy v).lreg = s.lreg := rfl
@[simp] theorem State.answerBusy_phase (v : HostValue) : (s.answerBusy v).phase = s.phase := rfl
@[simp] theorem State.answerBusy_host (v : HostValue) : (s.answerBusy v).host = s.host := rfl
@[simp] theorem State.answerBusy_hostData (v : HostValue) : (s.answerBusy v).hostData = some v := rfl
@[simp] theorem State.answerBusy_hostStatus (v : HostValue) : (s.answerBusy v).hostStatus = s.hostStatus := rfl
@[simp] theorem State.answerBusy_epoch (v : HostValue) : (s.answerBusy v).epoch = s.epoch := rfl
@[simp] theorem State.answerBusy_draws (v : HostValue) : (s.answerBusy v).draws = s.draws + 1 := rfl

theorem State.setMem_mem (m n : MemId) (v : Memory) :
    (s.setMem m v).mem n = if n = m then v else s.mem n := by
  cases m <;> cases n <;> rfl

@[simp] theorem State.setMem_mem_self (m : MemId) (v : Memory) : (s.setMem m v).mem m = v := by cases m <;> rfl

theorem State.setMem_mem_ne {m n : MemId} (h : n ≠ m) (v : Memory) : (s.setMem m v).mem n = s.mem n := by
  rw [State.setMem_mem, if_neg h]

@[simp] theorem State.setMem_cb_cb (v : Memory) : (s.setMem .cb v).cb = v := rfl
@[simp] theorem State.setMem_cb_msg (v : Memory) : (s.setMem .cb v).msg = s.msg := rfl
@[simp] theorem State.setMem_cb_frm (v : Memory) : (s.setMem .cb v).frm = s.frm := rfl
@[simp] theorem State.setMem_msg_cb (v : Memory) : (s.setMem .msg v).cb = s.cb := rfl
@[simp] theorem State.setMem_msg_msg (v : Memory) : (s.setMem .msg v).msg = v := rfl
@[simp] theorem State.setMem_msg_frm (v : Memory) : (s.setMem .msg v).frm = s.frm := rfl
@[simp] theorem State.setMem_frm_cb (v : Memory) : (s.setMem .frm v).cb = s.cb := rfl
@[simp] theorem State.setMem_frm_msg (v : Memory) : (s.setMem .frm v).msg = s.msg := rfl
@[simp] theorem State.setMem_frm_frm (v : Memory) : (s.setMem .frm v).frm = v := rfl

@[simp] theorem State.setMem_setMem (m : MemId) (v w : Memory) : (s.setMem m v).setMem m w = s.setMem m w := by
  cases m <;> rfl

@[simp] theorem State.setMem_self (m : MemId) : s.setMem m (s.mem m) = s := by cases m <;> rfl

@[simp] theorem State.setMem_len (m n : MemId) (v : Memory) : (s.setMem m v).len n = s.len n := by
  cases m <;> cases n <;> rfl

@[simp] theorem State.setMem_cap (m n : MemId) (v : Memory) : (s.setMem m v).cap n = s.cap n := by cases m <;> rfl

@[simp] theorem State.setLen_mem (m n : MemId) (k : Nat) : (s.setLen m k).mem n = s.mem n := by
  cases m <;> cases n <;> rfl

@[simp] theorem State.setLen_cap (m n : MemId) (k : Nat) : (s.setLen m k).cap n = s.cap n := by cases m <;> rfl

@[simp] theorem State.launch_mem (v : Byte) (m : MemId) : (s.launch v).mem m = s.mem m := by cases m <;> rfl
@[simp] theorem State.launch_len (v : Byte) (m : MemId) : (s.launch v).len m = s.len m := by cases m <;> rfl
@[simp] theorem State.launch_cap (v : Byte) (m : MemId) : (s.launch v).cap m = s.cap m := rfl
@[simp] theorem State.complete_mem (e : Option ErrorKind) (m : MemId) : (s.complete e).mem m = s.mem m := by
  cases m <;> rfl
@[simp] theorem State.complete_len (e : Option ErrorKind) (m : MemId) : (s.complete e).len m = s.len m := by
  cases m <;> rfl
@[simp] theorem State.complete_cap (e : Option ErrorKind) (m : MemId) : (s.complete e).cap m = s.cap m := rfl

@[simp] theorem State.mem_cb : s.mem .cb = s.cb := rfl
@[simp] theorem State.mem_msg : s.mem .msg = s.msg := rfl
@[simp] theorem State.mem_frm : s.mem .frm = s.frm := rfl
@[simp] theorem State.len_cb : s.len .cb = s.cbLen := rfl
@[simp] theorem State.len_msg : s.len .msg = s.msgLen.toNat := rfl
@[simp] theorem State.len_frm : s.len .frm = s.frmLen.toNat := rfl
@[simp] theorem State.cap_frm : s.cap .frm = s.cap .msg + 4 := rfl

/-- The launch premise does not look at the parts of a state a launch writes. -/
@[simp] theorem State.launch_inputsWritten (v : Byte) (i : Instr) :
    (s.launch v).inputsWritten i = s.inputsWritten i := by
  simp [State.inputsWritten]

end Sys2Proof.Machine
end

