-- ==== Sys2Proof/Laws/Status.lean ====
section
/-! SUPPORT. The fields of a status word after `statusWord`, and of `STATUS` after a launch and a completion. -/

namespace Sys2Proof.Machine

@[simp] theorem busyField_statusWord (o : Byte) (b d : Bool) (e : BitVec 3) : busyField (statusWord o b d e) = b := by
  simp only [busyField, statusWord, BitVec.getLsbD_append]
  simp

@[simp] theorem doneField_statusWord (o : Byte) (b d : Bool) (e : BitVec 3) : doneField (statusWord o b d e) = d := by
  simp only [doneField, statusWord, BitVec.getLsbD_append]
  simp

@[simp] theorem errField_statusWord (o : Byte) (b d : Bool) (e : BitVec 3) : errField (statusWord o b d e) = e := by
  ext i hi
  simp only [errField, statusWord, BitVec.getElem_extractLsb', BitVec.getLsbD_append]
  simp [show ¬ (2 + i < 1) by omega, hi]

@[simp] theorem reservedField_statusWord (o : Byte) (b d : Bool) (e : BitVec 3) :
    reservedField (statusWord o b d e) = reservedField o := by
  ext i hi
  simp only [reservedField, statusWord, BitVec.getElem_extractLsb', BitVec.getLsbD_append]
  simp [show ¬ (5 + i < 1) by omega, hi]

/-- The later of two replacements stands. -/
@[simp] theorem statusWord_statusWord (o : Byte) (b d b' d' : Bool) (e e' : BitVec 3) :
    statusWord (statusWord o b d e) b' d' e' = statusWord o b' d' e' := by
  rw [statusWord, reservedField_statusWord]
  rfl

/-- A status word is fixed by its fields and its reserved bits (R28). -/
theorem statusWord_of_fields (w : Byte) : statusWord w (busyField w) (doneField w) (errField w) = w := by
  revert w
  decide

variable (s : State)

@[simp] theorem State.launch_busy (v : Byte) : (s.launch v).busy = true := by simp [State.busy]
@[simp] theorem State.launch_done (v : Byte) : (s.launch v).done = false := by simp [State.done]
@[simp] theorem State.launch_err (v : Byte) : (s.launch v).err = 0 := by simp [State.err]
@[simp] theorem State.launch_trunc (v : Byte) : (s.launch v).trunc = s.trunc := rfl
@[simp] theorem State.complete_busy (e : Option ErrorKind) : (s.complete e).busy = false := by simp [State.busy]
@[simp] theorem State.complete_done (e : Option ErrorKind) : (s.complete e).done = true := by simp [State.done]
@[simp] theorem State.complete_err (e : Option ErrorKind) : (s.complete e).err = errCode e := by simp [State.err]
@[simp] theorem State.complete_trunc (e : Option ErrorKind) : (s.complete e).trunc = s.trunc := rfl
@[simp] theorem State.setMem_busy (m : MemId) (v : Memory) : (s.setMem m v).busy = s.busy := by simp [State.busy]
@[simp] theorem State.setMem_done (m : MemId) (v : Memory) : (s.setMem m v).done = s.done := by simp [State.done]
@[simp] theorem State.setMem_err (m : MemId) (v : Memory) : (s.setMem m v).err = s.err := by simp [State.err]
@[simp] theorem State.setMem_trunc (m : MemId) (v : Memory) : (s.setMem m v).trunc = s.trunc := by simp [State.trunc]
@[simp] theorem State.setLen_busy (m : MemId) (n : Nat) : (s.setLen m n).busy = s.busy := by simp [State.busy]
@[simp] theorem State.setLen_done (m : MemId) (n : Nat) : (s.setLen m n).done = s.done := by simp [State.done]
@[simp] theorem State.setLen_err (m : MemId) (n : Nat) : (s.setLen m n).err = s.err := by simp [State.err]
@[simp] theorem State.setLen_trunc (m : MemId) (n : Nat) : (s.setLen m n).trunc = s.trunc := by simp [State.trunc]

@[simp] theorem errCode_none : errCode none = 0 := rfl
@[simp] theorem errCode_capacity : errCode (some .capacity) = 1 := rfl
@[simp] theorem errCode_format : errCode (some .format) = 2 := rfl
@[simp] theorem errCode_inputShape : errCode (some .inputShape) = 3 := rfl
@[simp] theorem errCode_illegalCommand : errCode (some .illegalCommand) = 4 := rfl

/-- The fields of an encoded command (R78, R79). -/
@[simp] theorem opField_encode (i : Instr) : opField (encode i) = opcodeOf i := by cases i <;> decide
@[simp] theorem decode_encode (i : Instr) : decode (encode i) = .ok i := by cases i <;> rfl
@[simp] theorem operationOf_opcodeOf (i : Instr) : operationOf (opcodeOf i) = some i := by cases i <;> rfl

/-- Only the absence of an error has code 0, and no code is above 4 (R28). -/
theorem errCode_eq_zero {e : Option ErrorKind} : errCode e = 0 ↔ e = none := by
  cases e with
  | none => simp
  | some k => cases k <;> simp [errCode]

theorem errCode_le (e : Option ErrorKind) : (errCode e).toNat ≤ 4 := by
  cases e with
  | none => simp
  | some k => cases k <;> simp [errCode]

/-- The codes of two different outcomes differ (R28). -/
theorem errCode_injective {d e : Option ErrorKind} (h : errCode d = errCode e) : d = e := by
  revert h
  cases d with
  | none => cases e with
    | none => simp
    | some k => cases k <;> simp [errCode]
  | some j => cases e with
    | none => cases j <;> simp [errCode]
    | some k => cases j <;> cases k <;> simp [errCode]

/-- A completion leaves what `Completed` says. -/
theorem State.complete_completed (e : Option ErrorKind) : Completed s e (s.complete e) :=
  ⟨by simp, by simp, by simp, by simp⟩

end Sys2Proof.Machine
end

