-- ==== Sys2Proof/Laws/Access.lean ====
section
/-! SUPPORT. The byte accesses of the engine and the copy loop: everything each can do, said once. -/

namespace Sys2Proof.Machine

@[simp] theorem except_ok_bind {α β : Type} (a : α) (f : α → Except Fault β) : (Except.ok a >>= f) = f a := by
  simp [bind, Except.bind]

theorem except_bind_eq_ok {α β : Type} {x : Except Fault α} {f : α → Except Fault β} {b : β} :
    (x >>= f) = .ok b ↔ ∃ a, x = .ok a ∧ f a = .ok b := by
  cases x with
  | error e => exact ⟨fun h => (nomatch h), fun ⟨_, h, _⟩ => (nomatch h)⟩
  | ok a =>
    constructor
    · intro h
      exact ⟨a, rfl, h⟩
    · rintro ⟨a', h, h'⟩
      cases h
      exact h'

/-- A load answers exactly when the index is below the capacity and the cell has a value. -/
theorem State.loadByte_eq_ok {s : State} {m : MemId} {a : Nat} {b : Byte} :
    s.loadByte m a = .ok b ↔ a < s.cap m ∧ (s.mem m).read a = some b := by
  unfold State.loadByte
  split
  · simp
    omega
  · split <;> simp_all

/-- A store answers exactly when the index is below the capacity, and writes that one cell. -/
theorem State.storeByte_eq_ok {s t : State} {m : MemId} {a : Nat} {b : Byte} :
    s.storeByte m a b = .ok t ↔ a < s.cap m ∧ t = s.setMem m ((s.mem m).write a b) := by
  unfold State.storeByte
  split
  · simp
    omega
  · simp only [Except.ok.injEq]
    exact ⟨fun h => ⟨by omega, h.symm⟩, fun h => h.2.symm⟩

/-- `t` is `s` with memory `d` rewritten, keeping the canonical form and the bound by the capacity. -/
def WroteMem (d : MemId) (s t : State) : Prop :=
  ∃ v, t = s.setMem d v ∧ ((s.mem d).wf = true → v.wf = true) ∧
    ((∀ c ∈ s.mem d, c.1 < s.cap d) → ∀ c ∈ v, c.1 < s.cap d)

theorem WroteMem.refl (d : MemId) (s : State) : WroteMem d s s :=
  ⟨s.mem d, by simp, id, id⟩

theorem WroteMem.trans {d : MemId} {s t u : State} (h : WroteMem d s t) (h' : WroteMem d t u) : WroteMem d s u := by
  obtain ⟨v, rfl, hw, hb⟩ := h
  obtain ⟨w, rfl, hw', hb'⟩ := h'
  simp only [State.setMem_mem_self, State.setMem_cap] at hw' hb'
  exact ⟨w, by simp, fun hs => hw' (hw hs), fun hs => hb' (hb hs)⟩

theorem State.storeByte_wrote {s t : State} {m : MemId} {a : Nat} {b : Byte} (h : s.storeByte m a b = .ok t) :
    WroteMem m s t := by
  obtain ⟨ha, rfl⟩ := State.storeByte_eq_ok.1 h
  refine ⟨_, rfl, Memory.wf_write a b, fun hs c hc => ?_⟩
  rcases Memory.mem_write hc with rfl | hc
  · exact ha
  · exact hs c hc

theorem WroteMem.mem_ne {d m : MemId} {s t : State} (h : WroteMem d s t) (hm : m ≠ d) : t.mem m = s.mem m := by
  obtain ⟨v, rfl, _⟩ := h
  exact State.setMem_mem_ne _ hm v

theorem WroteMem.cap {d m : MemId} {s t : State} (h : WroteMem d s t) : t.cap m = s.cap m := by
  obtain ⟨v, rfl, _⟩ := h
  simp

theorem WroteMem.len {d m : MemId} {s t : State} (h : WroteMem d s t) : t.len m = s.len m := by
  obtain ⟨v, rfl, _⟩ := h
  simp

/-- Rewriting a memory and then a field outside the memories is the same in either order. -/
theorem WroteMem.eq_setMem {d : MemId} {s t : State} (h : WroteMem d s t) : t = s.setMem d (t.mem d) := by
  obtain ⟨v, rfl, _⟩ := h
  simp

theorem State.storeByte_read {s t : State} {m : MemId} {a : Nat} {b : Byte} (h : s.storeByte m a b = .ok t) (x : Nat) :
    (t.mem m).read x = if x = a then some b else (s.mem m).read x := by
  obtain ⟨_, rfl⟩ := State.storeByte_eq_ok.1 h
  simp

/-- The copy loop answers only with `n` cells of the destination rewritten from the source. -/
theorem copyBytes_spec {src dst : MemId} (hne : src ≠ dst) {sB dB n : Nat} {s t : State}
    (h : copyBytes src sB dst dB n s = .ok t) :
    WroteMem dst s t ∧ ∀ x, (t.mem dst).read x =
      if dB ≤ x ∧ x < dB + n then (s.mem src).read (sB + (x - dB)) else (s.mem dst).read x := by
  induction n generalizing t with
  | zero =>
    cases h
    exact ⟨WroteMem.refl _ _, fun x => by rw [if_neg (by omega)]⟩
  | succ n ih =>
    simp only [copyBytes] at h
    obtain ⟨u, hu, h⟩ := except_bind_eq_ok.1 h
    obtain ⟨b, hb, h⟩ := except_bind_eq_ok.1 h
    obtain ⟨hw, hr⟩ := ih hu
    have hb' := (State.loadByte_eq_ok.1 hb).2
    rw [hw.mem_ne hne] at hb'
    refine ⟨hw.trans (State.storeByte_wrote h), fun x => ?_⟩
    rw [State.storeByte_read h, hr]
    by_cases hx : x = dB + n
    · subst hx
      rw [if_pos rfl, if_pos (by omega), ← hb', show dB + n - dB = n by omega]
    · rw [if_neg hx]
      by_cases hin : dB ≤ x ∧ x < dB + n
      · rw [if_pos hin, if_pos (by omega)]
      · rw [if_neg hin, if_neg (by omega)]

/-- The copy loop answers when the source cells have values and both ranges are within the capacities. -/
theorem copyBytes_total {src dst : MemId} (hne : src ≠ dst) {sB dB n : Nat} {s : State}
    (hs : sB + n ≤ s.cap src) (hr : ∀ i < n, ∃ b, (s.mem src).read (sB + i) = some b) (hd : dB + n ≤ s.cap dst) :
    ∃ t, copyBytes src sB dst dB n s = .ok t := by
  induction n with
  | zero => exact ⟨s, rfl⟩
  | succ n ih =>
    obtain ⟨u, hu⟩ := ih (by omega) (fun i hi => hr i (by omega)) (by omega)
    have hw := (copyBytes_spec hne hu).1
    obtain ⟨b, hb⟩ := hr n (by omega)
    refine ⟨_, except_bind_eq_ok.2 ⟨u, hu, except_bind_eq_ok.2 ⟨b, ?_, State.storeByte_eq_ok.2 ⟨?_, rfl⟩⟩⟩⟩
    · exact State.loadByte_eq_ok.2 ⟨by rw [hw.cap]; omega, by rw [hw.mem_ne hne, hb]⟩
    · rw [hw.cap]
      omega

/-- A command issued while the machine is idle, with its inputs written, is its body on the launched state. -/
theorem issue_eq {i : Instr} {body : State → Except Fault State} {s : State} (hb : s.busy = false)
    (hw : s.inputsWritten i = true) : issue i body s = outcomeOf (body (s.launch (encode i))) := by
  simp [issue, hb, hw]

theorem outcomeOf_eq_next {x : Except Fault State} {t : State} : outcomeOf x = .next t ↔ x = .ok t := by
  cases x <;> simp [outcomeOf]

/-- A command answers a next state only by being ignored while busy or by its body's success on the launched state. -/
theorem issue_eq_next {i : Instr} {body : State → Except Fault State} {s t : State} (h : issue i body s = .next t) :
    (s.busy = true ∧ t = s) ∨
      (s.busy = false ∧ s.inputsWritten i = true ∧ body (s.launch (encode i)) = .ok t) := by
  unfold issue at h
  split at h
  · exact .inl ⟨‹_›, by cases h; rfl⟩
  · split at h
    · exact .inr ⟨by simp_all, ‹_›, outcomeOf_eq_next.1 h⟩
    · cases h

theorem State.inputsWritten_read {s : State} {i : Instr} {m : MemId} {a : Nat} (h : s.inputsWritten i = true)
    (hm : m ∈ inputsOf i) (ha : a < s.len m) : ∃ b, (s.mem m).read a = some b :=
  Memory.read_of_written (by simpa using (List.all_eq_true.1 h) m hm) ha

end Sys2Proof.Machine
end

