-- ==== Sys2Proof/Laws/Bits.lean ====
section
/-! SUPPORT. The slot map and the single-bit operations of spec/00_scope.md R10. -/

namespace Sys2Proof.Machine

/-- A slot is never an alpha position (spec/20_memory.md R51). -/
theorem slotIndex_mod (k : Nat) : slotIndex k % 4 ≠ 3 := by
  unfold slotIndex
  omega

theorem slotIndex_injective {j k : Nat} (h : slotIndex j = slotIndex k) : j = k := by
  unfold slotIndex at h
  omega

theorem slotIndex_lt_slotIndex {j k : Nat} : slotIndex j < slotIndex k ↔ j < k := by
  unfold slotIndex
  omega

/-- The usable slots of `n` bytes lie below `n` (spec/30_encoding.md R90). -/
theorem slotIndex_lt {n k : Nat} (h : k < usable n) : slotIndex k < n := by
  unfold usable pixels at h
  unfold slotIndex
  omega

/-- Every index that is not an alpha position is a slot (R10). -/
theorem exists_slotIndex {i : Nat} (h : i % 4 ≠ 3) : ∃ j, slotIndex j = i :=
  ⟨3 * (i / 4) + i % 4, by unfold slotIndex; omega⟩

/-- A bit as a byte. -/
theorem and_one_eq (v : Byte) : v &&& 1 = if v.getLsbD 0 then 1 else 0 := by
  revert v
  decide

theorem lsb_eq (v : Byte) : lsb v = if v.getLsbD 0 then 1 else 0 := and_one_eq v

theorem cursorBit_eq (f : Byte) (k : Nat) : cursorBit f k = if f.getLsbD (7 - k % 8) then 1 else 0 := by
  unfold cursorBit
  rw [and_one_eq]
  simp

theorem lsb_toNat (v : Byte) : (lsb v).toNat = v.toNat % 2 := by
  revert v
  decide

/-- Two bytes name the same cursor bit exactly when they agree there. -/
theorem cursorBit_eq_iff (f g : Byte) (j k : Nat) :
    cursorBit f j = cursorBit g k ↔ f.getLsbD (7 - j % 8) = g.getLsbD (7 - k % 8) := by
  rw [cursorBit_eq, cursorBit_eq]
  cases f.getLsbD (7 - j % 8) <;> cases g.getLsbD (7 - k % 8) <;> simp

theorem cursorBit_eq_lsb_iff (f v : Byte) (k : Nat) :
    cursorBit f k = lsb v ↔ f.getLsbD (7 - k % 8) = v.getLsbD 0 := by
  rw [cursorBit_eq, lsb_eq]
  cases f.getLsbD (7 - k % 8) <;> cases v.getLsbD 0 <;> simp

/-- The bit written is the bit read back. -/
theorem lsb_setLsb_cursorBit (v f : Byte) (k : Nat) : lsb (setLsb v (cursorBit f k)) = cursorBit f k := by
  rw [cursorBit_eq]
  have h : ∀ w : Byte, lsb (setLsb w 1) = 1 ∧ lsb (setLsb w 0) = 0 := by decide
  split
  · exact (h v).1
  · exact (h v).2

/-- A written slot changes in at most its least-significant bit (spec/41_embedder.md R129). -/
theorem xor_setLsb (v f : Byte) (k : Nat) :
    v ^^^ setLsb v (cursorBit f k) = 0 ∨ v ^^^ setLsb v (cursorBit f k) = 1 := by
  rw [cursorBit_eq]
  have h : ∀ w : Byte, (w ^^^ setLsb w 1 = 0 ∨ w ^^^ setLsb w 1 = 1) ∧ (w ^^^ setLsb w 0 = 0 ∨ w ^^^ setLsb w 0 = 1) := by
    decide
  split
  · exact (h v).1
  · exact (h v).2

/-- Writing the same bit twice is writing it once (spec/20_memory.md R60). -/
theorem setLsb_setLsb (v b : Byte) : setLsb (setLsb v b) b = setLsb v b := by
  unfold setLsb
  ext i hi
  simp only [BitVec.getElem_or, BitVec.getElem_and]
  cases v[i] <;> cases b[i] <;> cases (0xFE : Byte)[i] <;> rfl

theorem shiftIn_getLsbD (acc v : Byte) (i : Nat) (hi : i < 8) :
    (shiftIn acc (lsb v)).getLsbD i = if i = 0 then v.getLsbD 0 else acc.getLsbD (i - 1) := by
  rw [lsb_eq]
  have h : ∀ (w : Byte) (j : Fin 8), (shiftIn w 1).getLsbD j.val = (if j.val = 0 then true else w.getLsbD (j.val - 1)) ∧
      (shiftIn w 0).getLsbD j.val = (if j.val = 0 then false else w.getLsbD (j.val - 1)) := by
    decide
  have := h acc ⟨i, hi⟩
  cases v.getLsbD 0
  · simpa using this.2
  · simpa using this.1

/-- Shifting a bit into an accumulator of at most seven bits doubles it and adds the bit (spec/10_state.md R30). -/
theorem shiftIn_toNat (acc v : Byte) (h : acc.toNat < 2 ^ 7) :
    (shiftIn acc (lsb v)).toNat = 2 * acc.toNat + v.toNat % 2 := by
  have key : ∀ w : Byte, w.toNat < 2 ^ 7 → (shiftIn w 1).toNat = 2 * w.toNat + 1 ∧ (shiftIn w 0).toNat = 2 * w.toNat := by
    decide
  have hv := lsb_toNat v
  rw [lsb_eq] at hv ⊢
  cases hb : v.getLsbD 0
  · rw [hb] at hv
    simp only [Bool.false_eq_true, if_false] at hv ⊢
    rw [← hv, (key acc h).2]
    rfl
  · rw [hb] at hv
    simp only [if_true] at hv ⊢
    rw [← hv, (key acc h).1]
    rfl

end Sys2Proof.Machine
end

