-- ==== Sys2Proof/Laws/Embedder.lean ====
section
/-! SUPPORT. EMBED's slot loop and its body: everything each can answer, and when it answers. -/

namespace Sys2Proof.Machine

theorem embedSlot_eq_ok {k : Nat} {s t : State} (h : embedSlot k s = .ok t) :
    WroteMem .cb s t ∧ ∃ f v, s.frm.read (k / 8) = some f ∧ s.cb.read (slotIndex k) = some v ∧
      ∀ x, t.cb.read x = if x = slotIndex k then some (setLsb v (cursorBit f k)) else s.cb.read x := by
  obtain ⟨f, hf, h⟩ := except_bind_eq_ok.1 h
  obtain ⟨v, hv, h⟩ := except_bind_eq_ok.1 h
  exact ⟨State.storeByte_wrote h, f, v, (State.loadByte_eq_ok.1 hf).2, (State.loadByte_eq_ok.1 hv).2,
    fun x => State.storeByte_read h x⟩

/-- The slot loop writes the bit of each cursor value below `n` into its slot, and no other cell (R125). -/
theorem embedSlots_spec {n : Nat} {s t : State} (h : embedSlots n s = .ok t) :
    WroteMem .cb s t ∧
      (∀ k < n, ∃ f v, s.frm.read (k / 8) = some f ∧ s.cb.read (slotIndex k) = some v ∧
        t.cb.read (slotIndex k) = some (setLsb v (cursorBit f k))) ∧
      ∀ x, (∀ k < n, x ≠ slotIndex k) → t.cb.read x = s.cb.read x := by
  induction n generalizing t with
  | zero =>
    cases h
    exact ⟨WroteMem.refl _ _, fun k hk => absurd hk (Nat.not_lt_zero k), fun _ _ => rfl⟩
  | succ n ih =>
    obtain ⟨u, hu, h⟩ := except_bind_eq_ok.1 h
    obtain ⟨wu, hin, hout⟩ := ih hu
    obtain ⟨wt, f, v, hf, hv, hr⟩ := embedSlot_eq_ok h
    have hfrm : u.frm = s.frm := wu.mem_ne (m := .frm) (by decide)
    have hcell : s.cb.read (slotIndex n) = some v := by
      rw [← hv, hout]
      intro k hk he
      exact absurd (slotIndex_injective he) (by omega)
    refine ⟨wu.trans wt, fun k hk => ?_, fun x hx => ?_⟩
    · by_cases hkn : k = n
      · subst hkn
        exact ⟨f, v, by rw [← hfrm, hf], hcell, by rw [hr, if_pos rfl]⟩
      · obtain ⟨f', v', h1, h2, h3⟩ := hin k (by omega)
        refine ⟨f', v', h1, h2, ?_⟩
        rw [hr, if_neg fun he => hkn (slotIndex_injective he), h3]
    · rw [hr, if_neg (hx n (by omega)), hout x fun k hk => hx k (by omega)]

theorem embedSlots_total {n : Nat} {s : State} (hf : n ≤ 8 * s.len .frm) (hfc : s.len .frm ≤ s.cap .frm)
    (hc : n ≤ usable (s.len .cb)) (hcc : s.len .cb ≤ s.cap .cb) (hi : s.inputsWritten .embed = true) :
    ∃ t, embedSlots n s = .ok t := by
  induction n with
  | zero => exact ⟨s, rfl⟩
  | succ n ih =>
    obtain ⟨u, hu⟩ := ih (by omega) (by omega)
    obtain ⟨wu, _, hout⟩ := embedSlots_spec hu
    obtain ⟨f, hfr⟩ := State.inputsWritten_read (m := .frm) (a := n / 8) hi (by simp [inputsOf]) (by omega)
    have hlt : slotIndex n < s.len .cb := slotIndex_lt (by omega)
    obtain ⟨v, hv⟩ := State.inputsWritten_read (m := .cb) hi (by simp [inputsOf]) hlt
    have hv' : u.cb.read (slotIndex n) = some v := by
      rw [hout]
      · exact hv
      · intro k hk he
        exact absurd (slotIndex_injective he) (by omega)
    have hfm : u.frm = s.frm := wu.mem_ne (m := .frm) (by decide)
    refine ⟨_, except_bind_eq_ok.2 ⟨u, hu, except_bind_eq_ok.2 ⟨f, ?_, except_bind_eq_ok.2 ⟨v, ?_,
      State.storeByte_eq_ok.2 ⟨?_, rfl⟩⟩⟩⟩⟩
    · exact State.loadByte_eq_ok.2 ⟨by rw [wu.cap]; omega, by rw [State.mem_frm, hfm]; exact hfr⟩
    · exact State.loadByte_eq_ok.2 ⟨by rw [wu.cap]; omega, hv'⟩
    · rw [wu.cap]
      omega

theorem WroteMem.slotsWritten {d : MemId} {s t : State} (h : WroteMem d s t) : t.slotsWritten = s.slotsWritten := by
  obtain ⟨v, rfl, _⟩ := h
  simp [State.slotsWritten, State.bitsRequired]

/-- EMBED's body answers only so: a shape error, a capacity error, or the slot loop and the completion (R120). -/
theorem embedBody_spec {s t : State} (h : embedBody s = .ok t) :
    (s.cbLen % 4 ≠ 0 ∧ t = s.raise .inputShape) ∨
      (s.cbLen % 4 = 0 ∧ (s.trunc = false ∧ s.bitsRequired > usable s.cbLen) ∧ t = s.raise .capacity) ∨
      (s.cbLen % 4 = 0 ∧ ¬ (s.trunc = false ∧ s.bitsRequired > usable s.cbLen) ∧
        ∃ u, embedSlots s.slotsWritten s = .ok u ∧
          t = State.complete none { u with slot := s.slotsWritten, cur := BitVec.ofNat 36 s.slotsWritten }) := by
  unfold embedBody at h
  split at h
  · left
    cases h
    exact ⟨‹_›, rfl⟩
  · right
    split at h
    · left
      cases h
      exact ⟨by omega, ‹_›, rfl⟩
    · right
      obtain ⟨u, hu, h⟩ := except_bind_eq_ok.1 h
      have := (embedSlots_spec hu).1.slotsWritten
      cases h
      exact ⟨by omega, ‹_›, u, hu, by rw [this]⟩

theorem embedBody_total {s : State} (hf : s.len .frm ≤ s.cap .frm) (hc : s.len .cb ≤ s.cap .cb)
    (hi : s.inputsWritten .embed = true) : ∃ t, embedBody s = .ok t := by
  unfold embedBody
  split
  · exact ⟨_, rfl⟩
  · split
    · exact ⟨_, rfl⟩
    · obtain ⟨u, hu⟩ := embedSlots_total (n := s.slotsWritten) (s := s) (Nat.min_le_left ..) hf (Nat.min_le_right ..) hc hi
      exact ⟨_, except_bind_eq_ok.2 ⟨u, hu, rfl⟩⟩

end Sys2Proof.Machine
end

