-- ==== Sys2Proof/Laws/Extractor.lean ====
section
/-! SUPPORT. EXTRACT's loops and its body: everything each can answer, and when it answers. -/

namespace Sys2Proof.Machine

/-- The bit a slot carries, as a number; 0 where the cell has no value. -/
def slotBit (m : Memory) (k : Nat) : Nat :=
  match m.read (slotIndex k) with
  | some v => v.toNat % 2
  | none => 0

/-- At most eight gathered bits: each stands at its place, first bit highest, and nothing stands above them (R75, R30). -/
theorem gatherBits_spec {s : State} {j n : Nat} {b : Byte} (h : gatherBits s j n = .ok b) (hn : n ≤ 8) :
    b.toNat < 2 ^ n ∧ b.toNat = ∑ t ∈ Finset.range n, slotBit s.cb (j + t) * 2 ^ (n - 1 - t) ∧
      ∀ t < n, ∃ v, s.cb.read (slotIndex (j + t)) = some v ∧ b.getLsbD (n - 1 - t) = v.getLsbD 0 := by
  induction n generalizing b with
  | zero =>
    cases h
    exact ⟨by decide, by simp, fun t ht => absurd ht (Nat.not_lt_zero t)⟩
  | succ n ih =>
    obtain ⟨acc, ha, h⟩ := except_bind_eq_ok.1 h
    obtain ⟨v, hv, h⟩ := except_bind_eq_ok.1 h
    obtain ⟨hlt, hsum, hbits⟩ := ih ha (by omega)
    have hv' : s.cb.read (slotIndex (j + n)) = some v := (State.loadByte_eq_ok.1 hv).2
    have hpow : 2 ^ n ≤ 2 ^ 7 := Nat.pow_le_pow_right (by omega) (by omega)
    have hb := shiftIn_toNat acc v (by omega)
    cases h
    refine ⟨?_, ?_, fun t ht => ?_⟩
    · rw [hb, Nat.pow_succ]
      omega
    · rw [hb, Finset.sum_range_succ, hsum, Finset.mul_sum]
      have hs : slotBit s.cb (j + n) = v.toNat % 2 := by simp [slotBit, hv']
      rw [hs, show n + 1 - 1 - n = 0 by omega, Nat.pow_zero, Nat.mul_one]
      congr 1
      refine Finset.sum_congr rfl fun t ht => ?_
      have ht' : t < n := Finset.mem_range.1 ht
      rw [show n + 1 - 1 - t = (n - 1 - t) + 1 by omega, Nat.pow_succ]
      ring
    · rw [shiftIn_getLsbD _ _ _ (by omega)]
      by_cases htn : t = n
      · subst htn
        exact ⟨v, hv', by rw [if_pos (by omega)]⟩
      · obtain ⟨w, hw, hbit⟩ := hbits t (by omega)
        refine ⟨w, hw, ?_⟩
        rw [if_neg (by omega), show n + 1 - 1 - t - 1 = n - 1 - t by omega, hbit]

theorem gatherBits_total {s : State} {j n : Nat} (hc : j + n ≤ usable (s.len .cb)) (hcc : s.len .cb ≤ s.cap .cb)
    (hi : ∀ a < s.len .cb, ∃ v, s.cb.read a = some v) : ∃ b, gatherBits s j n = .ok b := by
  induction n with
  | zero => exact ⟨0, rfl⟩
  | succ n ih =>
    obtain ⟨acc, ha⟩ := ih (by omega)
    have hlt : slotIndex (j + n) < s.len .cb := slotIndex_lt (by omega)
    obtain ⟨v, hv⟩ := hi _ hlt
    exact ⟨_, except_bind_eq_ok.2 ⟨acc, ha, except_bind_eq_ok.2 ⟨v, State.loadByte_eq_ok.2 ⟨by omega, hv⟩, rfl⟩⟩⟩

/-- Gathering looks only at the channel buffer and its capacity. -/
theorem gatherBits_congr {s t : State} (hc : t.cb = s.cb) (hp : t.params = s.params) (j n : Nat) :
    gatherBits t j n = gatherBits s j n := by
  have hl : ∀ a, t.loadByte .cb a = s.loadByte .cb a := fun a => by
    have hm : t.mem .cb = s.mem .cb := hc
    have hcap : t.cap .cb = s.cap .cb := congrArg (·.cap .cb) hp
    unfold State.loadByte
    rw [hm, hcap]
  induction n with
  | zero => rfl
  | succ n ih => simp only [gatherBits, ih, hl]

theorem WroteMem.params {d : MemId} {s t : State} (h : WroteMem d s t) : t.params = s.params := by
  obtain ⟨v, rfl, _⟩ := h
  simp

/-- The byte loop writes the gathered byte of each eight slots into `FRM`, and no other cell (R145). -/
theorem extractBytes_spec {n : Nat} {s t : State} (h : extractBytes n s = .ok t) :
    WroteMem .frm s t ∧
      (∀ j < n, ∃ b, gatherBits s (8 * j) 8 = .ok b ∧ t.frm.read j = some b) ∧
      ∀ x, n ≤ x → t.frm.read x = s.frm.read x := by
  induction n generalizing t with
  | zero =>
    cases h
    exact ⟨WroteMem.refl _ _, fun k hk => absurd hk (Nat.not_lt_zero k), fun _ _ => rfl⟩
  | succ n ih =>
    obtain ⟨u, hu, h⟩ := except_bind_eq_ok.1 h
    obtain ⟨b, hb, h⟩ := except_bind_eq_ok.1 h
    obtain ⟨wu, hin, hout⟩ := ih hu
    have hcb : u.cb = s.cb := wu.mem_ne (m := .cb) (by decide)
    rw [gatherBits_congr hcb wu.params] at hb
    have hr : ∀ x, t.frm.read x = if x = n then some b else u.frm.read x := fun x => State.storeByte_read h x
    refine ⟨wu.trans (State.storeByte_wrote h), fun j hj => ?_, fun x hx => ?_⟩
    · by_cases hjn : j = n
      · subst hjn
        exact ⟨b, hb, by rw [hr, if_pos rfl]⟩
      · obtain ⟨b', h1, h2⟩ := hin j (by omega)
        exact ⟨b', h1, by rw [hr, if_neg hjn, h2]⟩
    · rw [hr, if_neg (by omega), hout x (by omega)]

theorem extractBytes_total {n : Nat} {s : State} (hc : 8 * n ≤ usable (s.len .cb)) (hcc : s.len .cb ≤ s.cap .cb)
    (hf : n ≤ s.cap .frm) (hi : ∀ a < s.len .cb, ∃ v, s.cb.read a = some v) : ∃ t, extractBytes n s = .ok t := by
  induction n with
  | zero => exact ⟨s, rfl⟩
  | succ n ih =>
    obtain ⟨u, hu⟩ := ih (by omega) (by omega)
    have wu := (extractBytes_spec hu).1
    obtain ⟨b, hb⟩ := gatherBits_total (s := s) (j := 8 * n) (n := 8) (by omega) hcc hi
    rw [← gatherBits_congr (wu.mem_ne (m := .cb) (by decide)) wu.params] at hb
    refine ⟨_, except_bind_eq_ok.2 ⟨u, hu, except_bind_eq_ok.2 ⟨b, hb, State.storeByte_eq_ok.2 ⟨?_, rfl⟩⟩⟩⟩
    rw [wu.cap]
    omega

/-- EXTRACT's body answers only so: a shape error, or the byte loop, the left-over bits and the completion (R140, R144). -/
theorem extractBody_spec {s t : State} (h : extractBody s = .ok t) :
    (s.cbLen % 4 ≠ 0 ∧ t = s.raise .inputShape) ∨
      (s.cbLen % 4 = 0 ∧ ∃ u left, extractBytes (usable s.cbLen / 8) s = .ok u ∧
        gatherBits s (8 * (usable s.cbLen / 8)) (usable s.cbLen % 8) = .ok left ∧
        t = State.complete none { u with
          slot := usable s.cbLen
          acc := left
          nb := BitVec.ofNat 3 (usable s.cbLen % 8)
          widx := BitVec.ofNat 33 (usable s.cbLen / 8)
          frmLen := BitVec.ofNat 33 (usable s.cbLen / 8) }) := by
  unfold extractBody at h
  split at h
  · left
    cases h
    exact ⟨‹_›, rfl⟩
  · right
    obtain ⟨u, hu, h⟩ := except_bind_eq_ok.1 h
    obtain ⟨left, hl, h⟩ := except_bind_eq_ok.1 h
    have wu := (extractBytes_spec hu).1
    rw [gatherBits_congr (wu.mem_ne (m := .cb) (by decide)) wu.params] at hl
    cases h
    exact ⟨by omega, u, left, hu, hl, rfl⟩

theorem extractBody_total {s : State} (hp : s.params.valid) (hc : s.len .cb ≤ s.cap .cb)
    (hi : s.inputsWritten .extract = true) : ∃ t, extractBody s = .ok t := by
  have cell : ∀ a < s.len .cb, ∃ v, s.cb.read a = some v := fun a ha =>
    State.inputsWritten_read (m := .cb) hi (by simp [inputsOf]) ha
  unfold extractBody
  split
  · exact ⟨_, rfl⟩
  · have hfit : usable s.cbLen / 8 ≤ s.cap .frm := by
      have h1 := hp.2
      have h2 : s.cbLen ≤ s.params.cbCap := hc
      have h3 : s.cap .frm = s.params.msgCap + 4 := rfl
      unfold usable pixels
      omega
    obtain ⟨u, hu⟩ := extractBytes_total (n := usable s.cbLen / 8) (s := s) (by simp only [State.len_cb]; omega) hc hfit cell
    have wu := (extractBytes_spec hu).1
    obtain ⟨left, hl⟩ := gatherBits_total (s := s) (j := 8 * (usable s.cbLen / 8)) (n := usable s.cbLen % 8)
      (by simp only [State.len_cb]; omega) hc cell
    rw [← gatherBits_congr (wu.mem_ne (m := .cb) (by decide)) wu.params] at hl
    exact ⟨_, except_bind_eq_ok.2 ⟨u, hu, except_bind_eq_ok.2 ⟨left, hl, rfl⟩⟩⟩

end Sys2Proof.Machine
end

