-- ==== Sys2Proof/Laws/Framing.lean ====
section
/-! SUPPORT. PACK and UNPACK after their launch: everything each can answer, and when it answers. -/

namespace Sys2Proof.Machine

/-- Two adjacent fields of a state that only rewrites a memory. -/
theorem WroteMem.msgLen {d : MemId} {s t : State} (h : WroteMem d s t) : t.msgLen = s.msgLen := by
  obtain ⟨v, rfl, _⟩ := h
  simp

theorem WroteMem.frmLen {d : MemId} {s t : State} (h : WroteMem d s t) : t.frmLen = s.frmLen := by
  obtain ⟨v, rfl, _⟩ := h
  simp

theorem WroteMem.cbLen {d : MemId} {s t : State} (h : WroteMem d s t) : t.cbLen = s.cbLen := by
  obtain ⟨v, rfl, _⟩ := h
  simp

/-- PACK's body answers only with the frame of the payload in `FRM` (R100). -/
theorem packBody_spec {s t : State} (h : packBody s = .ok t) :
    ∃ u, WroteMem .frm s u ∧
      t = State.complete none { u with
        widx := BitVec.ofNat 33 s.msgLen.toNat
        frmLen := BitVec.ofNat 33 (4 + s.msgLen.toNat) } ∧
      ∀ x, u.frm.read x = if x < 4 then some (lengthByte s.msgLen x)
        else if x < 4 + s.msgLen.toNat then s.msg.read (x - 4) else s.frm.read x := by
  simp only [packBody] at h
  obtain ⟨s0, h0, h⟩ := except_bind_eq_ok.1 h
  obtain ⟨s1, h1, h⟩ := except_bind_eq_ok.1 h
  obtain ⟨s2, h2, h⟩ := except_bind_eq_ok.1 h
  obtain ⟨s3, h3, h⟩ := except_bind_eq_ok.1 h
  obtain ⟨u, hu, h⟩ := except_bind_eq_ok.1 h
  have w0 := State.storeByte_wrote h0
  have w1 := w0.trans (State.storeByte_wrote h1)
  have w2 := w1.trans (State.storeByte_wrote h2)
  have w3 := w2.trans (State.storeByte_wrote h3)
  obtain ⟨wu, ru⟩ := copyBytes_spec (by decide) hu
  have w := w3.trans wu
  cases h
  refine ⟨u, w, by rw [w.msgLen], fun x => ?_⟩
  have rx := ru x
  have r3 := State.storeByte_read h3 x
  have r2 := State.storeByte_read h2 x
  have r1 := State.storeByte_read h1 x
  have r0 := State.storeByte_read h0 x
  have hm : s3.msg = s.msg := w3.mem_ne (m := .msg) (by decide)
  simp only [State.mem_frm, State.mem_msg] at rx r0 r1 r2 r3
  rw [rx, r3, r2, r1, r0, w3.msgLen, w2.msgLen, w1.msgLen, w0.msgLen, hm, Nat.zero_add]
  by_cases h4 : x < 4
  · rw [if_neg (by omega), if_pos h4]
    rcases (by omega : x = 0 ∨ x = 1 ∨ x = 2 ∨ x = 3) with rfl | rfl | rfl | rfl <;> simp
  · rw [if_neg h4]
    by_cases hx : x < 4 + s.msgLen.toNat
    · rw [if_pos (by omega), if_pos hx]
    · rw [if_neg (by omega), if_neg (by omega), if_neg (by omega), if_neg (by omega), if_neg (by omega), if_neg hx]

/-- PACK's body answers when the payload is within its memory and all its bytes have values (R100). -/
theorem packBody_total {s : State} (hl : s.len .msg ≤ s.cap .msg) (hi : s.inputsWritten .pack = true) :
    ∃ t, packBody s = .ok t := by
  have hc : s.cap .frm = s.cap .msg + 4 := rfl
  have st : ∀ (s' : State) a b, s'.cap .frm = s.cap .frm → a < 4 → ∃ t, s'.storeByte .frm a b = .ok t :=
    fun s' a b hcap ha => ⟨_, State.storeByte_eq_ok.2 ⟨by omega, rfl⟩⟩
  obtain ⟨s0, h0⟩ := st s 0 (lengthByte s.msgLen 0) rfl (by omega)
  have w0 := State.storeByte_wrote h0
  obtain ⟨s1, h1⟩ := st s0 1 (lengthByte s0.msgLen 1) w0.cap (by omega)
  have w1 := w0.trans (State.storeByte_wrote h1)
  obtain ⟨s2, h2⟩ := st s1 2 (lengthByte s1.msgLen 2) w1.cap (by omega)
  have w2 := w1.trans (State.storeByte_wrote h2)
  obtain ⟨s3, h3⟩ := st s2 3 (lengthByte s2.msgLen 3) w2.cap (by omega)
  have w3 := w2.trans (State.storeByte_wrote h3)
  have hl3 : s3.msgLen.toNat = s.len .msg := by rw [w3.msgLen]; rfl
  obtain ⟨u, hu⟩ : ∃ u, copyBytes .msg 0 .frm 4 s3.msgLen.toNat s3 = .ok u := by
    refine copyBytes_total (by decide) ?_ (fun i hlt => ?_) ?_
    · rw [w3.cap]; omega
    · rw [w3.mem_ne (by decide), Nat.zero_add]
      exact State.inputsWritten_read hi (by simp [inputsOf]) (by omega)
    · rw [w3.cap]; omega
  exact ⟨_, except_bind_eq_ok.2 ⟨s0, h0, except_bind_eq_ok.2 ⟨s1, h1, except_bind_eq_ok.2 ⟨s2, h2,
    except_bind_eq_ok.2 ⟨s3, h3, except_bind_eq_ok.2 ⟨u, hu, rfl⟩⟩⟩⟩⟩⟩

/-- UNPACK's copy and completion answer only with the payload in `MSG`, or with `FormatError` and no byte written (R104). -/
theorem unpackPayload_spec {L : Nat} {s t : State} (h : unpackPayload L s = .ok t) :
    (4 + L > s.frmLen.toNat ∧ t = State.raise .format { s with lreg := BitVec.ofNat 32 L }) ∨
      (4 + L ≤ s.frmLen.toNat ∧ ∃ u, WroteMem .msg s u ∧
        t = State.complete none { u with
          lreg := BitVec.ofNat 32 L
          widx := BitVec.ofNat 33 L
          msgLen := BitVec.ofNat 32 L } ∧
        ∀ x, u.msg.read x = if x < L then s.frm.read (4 + x) else s.msg.read x) := by
  simp only [unpackPayload] at h
  split at h
  · left
    cases h
    exact ⟨‹_›, rfl⟩
  · right
    obtain ⟨u, hu, h⟩ := except_bind_eq_ok.1 h
    obtain ⟨wu, ru⟩ := copyBytes_spec (by decide) hu
    cases h
    obtain ⟨v, rfl, hv, hv'⟩ := wu
    refine ⟨by omega, s.setMem .msg v, ⟨v, rfl, hv, hv'⟩, rfl, fun x => ?_⟩
    have := ru x
    simp only [State.setMem_mem_self, Nat.zero_le, true_and, Nat.zero_add, Nat.sub_zero] at this
    exact this

theorem unpackPayload_total {L : Nat} {s : State} (hp : s.len .frm ≤ s.cap .frm) (hi : s.inputsWritten .unpack = true) :
    ∃ t, unpackPayload L s = .ok t := by
  simp only [unpackPayload]
  split
  · exact ⟨_, rfl⟩
  · rename_i hL
    have hc : s.cap .frm = s.cap .msg + 4 := rfl
    have hL' : 4 + L ≤ s.len .frm := by simpa using hL
    obtain ⟨u, hu⟩ : ∃ u, copyBytes .frm 4 .msg 0 L { s with lreg := BitVec.ofNat 32 L } = .ok u := by
      refine copyBytes_total (by decide) ?_ (fun i hlt => ?_) ?_
      · exact Nat.le_trans hL' hp
      · exact State.inputsWritten_read (i := .unpack) (m := .frm) hi (by simp [inputsOf])
          (Nat.lt_of_lt_of_le (Nat.add_lt_add_left hlt 4) hL')
      · change 0 + L ≤ s.cap .msg
        omega
    exact ⟨_, except_bind_eq_ok.2 ⟨u, hu, rfl⟩⟩

/-- The header reads as the length it announces, within the capacity (R104). -/
theorem readHeader_eq_ok {s : State} {L : Nat} (hc : 4 ≤ s.cap .frm) :
    readHeader s = .ok L ↔ s.headerLength = some L := by
  have key : ∀ a < 4, ∀ b, s.loadByte .frm a = .ok b ↔ s.frm.read a = some b := fun a ha b => by
    rw [State.loadByte_eq_ok]
    exact ⟨fun h => h.2, fun h => ⟨by omega, h⟩⟩
  constructor
  · intro h
    obtain ⟨b0, h0, h⟩ := except_bind_eq_ok.1 h
    obtain ⟨b1, h1, h⟩ := except_bind_eq_ok.1 h
    obtain ⟨b2, h2, h⟩ := except_bind_eq_ok.1 h
    obtain ⟨b3, h3, h⟩ := except_bind_eq_ok.1 h
    rw [key _ (by omega)] at h0 h1 h2 h3
    simp only [State.headerLength, h0, h1, h2, h3]
    cases h
    rfl
  · intro h
    unfold State.headerLength at h
    split at h
    · rename_i b0 b1 b2 b3 h0 h1 h2 h3
      rw [← key _ (by omega)] at h0 h1 h2 h3
      cases h
      exact except_bind_eq_ok.2 ⟨b0, h0, except_bind_eq_ok.2 ⟨b1, h1, except_bind_eq_ok.2 ⟨b2, h2,
        except_bind_eq_ok.2 ⟨b3, h3, rfl⟩⟩⟩⟩
    · cases h

/-- With a complete header whose length is `L`, UNPACK's body is its check 2, copy and completion (R104). -/
theorem unpackBody_of_header {s : State} {L : Nat} (h4 : 4 ≤ s.frmLen.toNat) (hp : s.len .frm ≤ s.cap .frm)
    (hL : s.headerLength = some L) : unpackBody s = unpackPayload L s := by
  rw [unpackBody, if_neg (by omega), (readHeader_eq_ok (Nat.le_trans h4 hp)).2 hL, except_ok_bind]

/-- UNPACK's body answers only so: short header, or a complete header and what `unpackPayload` answers (R104). -/
theorem unpackBody_spec {s t : State} (h : unpackBody s = .ok t) :
    (s.frmLen.toNat < 4 ∧ t = s.raise .format) ∨
      (4 ≤ s.frmLen.toNat ∧ ∃ L, s.headerLength = some L ∧ unpackPayload L s = .ok t) := by
  unfold unpackBody at h
  split at h
  · left
    cases h
    exact ⟨‹_›, rfl⟩
  · right
    obtain ⟨L, hL, h⟩ := except_bind_eq_ok.1 h
    refine ⟨by omega, L, (readHeader_eq_ok ?_).1 hL, h⟩
    obtain ⟨_, _, h'⟩ := except_bind_eq_ok.1 hL
    obtain ⟨_, _, h'⟩ := except_bind_eq_ok.1 h'
    obtain ⟨_, _, h'⟩ := except_bind_eq_ok.1 h'
    obtain ⟨_, h3, _⟩ := except_bind_eq_ok.1 h'
    have := (State.loadByte_eq_ok.1 h3).1
    omega

/-- A frame of at least four written bytes announces a length. -/
theorem State.headerLength_some {s : State} (h4 : 4 ≤ s.frmLen.toNat) (hi : s.inputsWritten .unpack = true) :
    ∃ L, s.headerLength = some L := by
  have cell : ∀ a < 4, ∃ b, s.frm.read a = some b := fun a ha =>
    State.inputsWritten_read (i := .unpack) (m := .frm) hi (by simp [inputsOf]) (by simp only [State.len_frm]; omega)
  obtain ⟨b0, h0⟩ := cell 0 (by omega)
  obtain ⟨b1, h1⟩ := cell 1 (by omega)
  obtain ⟨b2, h2⟩ := cell 2 (by omega)
  obtain ⟨b3, h3⟩ := cell 3 (by omega)
  exact ⟨unbe32 b0 b1 b2 b3, by simp only [State.headerLength, h0, h1, h2, h3]⟩

/-- UNPACK's body answers when the frame is within its memory and all its bytes have values (R104). -/
theorem unpackBody_total {s : State} (hp : s.len .frm ≤ s.cap .frm) (hi : s.inputsWritten .unpack = true) :
    ∃ t, unpackBody s = .ok t := by
  by_cases h4 : s.frmLen.toNat < 4
  · exact ⟨_, if_pos h4⟩
  · obtain ⟨L, hL⟩ := State.headerLength_some (by omega) hi
    rw [unpackBody_of_header (by omega) hp hL]
    exact unpackPayload_total hp hi

/-- The announced length fits `LREG` and `MSGLEN` (R29). -/
theorem unbe32_lt (b0 b1 b2 b3 : Byte) : unbe32 b0 b1 b2 b3 < 2 ^ 32 := by
  have h0 := b0.isLt
  have h1 := b1.isLt
  have h2 := b2.isLt
  have h3 := b3.isLt
  unfold unbe32
  omega

theorem State.headerLength_lt {s : State} {L : Nat} (h : s.headerLength = some L) : L < 2 ^ 32 := by
  unfold State.headerLength at h
  split at h
  · cases h
    exact unbe32_lt ..
  · cases h

/-- The four length bytes, read as natural numbers. -/
theorem lengthByte_toNat (L : BitVec 32) (t : Nat) : (lengthByte L t).toNat = L.toNat / 2 ^ (8 * (3 - t)) % 256 := by
  simp only [lengthByte, BitVec.toNat_setWidth, BitVec.toNat_and, BitVec.toNat_ushiftRight]
  rw [Nat.shiftRight_eq_div_pow]
  have : (BitVec.toNat (0xFF : BitVec 32)) = 2 ^ 8 - 1 := rfl
  rw [this, Nat.and_two_pow_sub_one_eq_mod]
  omega

/-- `unbe32(be32(L)) = L` (R10). -/
theorem unbe32_lengthBytes (L : BitVec 32) :
    unbe32 (lengthByte L 0) (lengthByte L 1) (lengthByte L 2) (lengthByte L 3) = L.toNat := by
  have := L.isLt
  simp only [unbe32, lengthByte_toNat]
  omega

end Sys2Proof.Machine
end

