-- ==== Sys2Proof/Laws/Exec.lean ====
section
/-! SUPPORT. What `exec` answers for each command, as the state it gives: one lemma a command, cited by every later claim. -/

namespace Sys2Proof.Machine

/-- A command issued while the machine is busy is ignored (R26). -/
theorem exec_busy {i : Instr} {s : State} (hb : s.busy = true) : exec i s = .next s := by
  cases i <;> simp [exec, execPack, execUnpack, execEmbed, execExtract, issue, hb]

/-- A command whose inputs were not all written is refused (R35). -/
theorem exec_unwritten {i : Instr} {s : State} (hb : s.busy = false) (hw : s.inputsWritten i = false) :
    exec i s = .refused .inputCellUnwritten := by
  cases i <;> simp [exec, execPack, execUnpack, execEmbed, execExtract, issue, hb, hw]

/-- The body of each command after its launch. -/
def bodyOf : Instr → State → Except Fault State
  | .pack => packBody
  | .unpack => unpackBody
  | .embed => embedBody
  | .extract => extractBody

theorem exec_eq_issue (i : Instr) (s : State) : exec i s = issue i (bodyOf i) s := by
  cases i <;> rfl

/-- A launched command answers under the premises of R205. -/
theorem bodyOf_total {i : Instr} {s : State} (h : Ready i s) : ∃ t, bodyOf i (s.launch (encode i)) = .ok t := by
  have hl : ∀ m, (s.launch (encode i)).len m ≤ (s.launch (encode i)).cap m := by simpa using h.lengths
  have hi : (s.launch (encode i)).inputsWritten i = true := by simpa using h.inputs
  cases i
  · exact packBody_total (hl .msg) hi
  · exact unpackBody_total (hl .frm) hi
  · exact embedBody_total (hl .frm) (hl .cb) hi
  · exact extractBody_total h.params (hl .cb) hi

/-- Every command completes under the premises of R205. -/
theorem exec_total {i : Instr} {s : State} (h : Ready i s) : ∃ t, exec i s = .next t := by
  obtain ⟨t, ht⟩ := bodyOf_total h
  exact ⟨t, by rw [exec_eq_issue, issue_eq h.idle h.inputs, ht]; rfl⟩

/-- An idle machine's command answers a next state only as its body's success on the launched state. -/
theorem exec_eq_next {i : Instr} {s t : State} (hb : s.busy = false) (h : exec i s = .next t) :
    s.inputsWritten i = true ∧ bodyOf i (s.launch (encode i)) = .ok t := by
  rw [exec_eq_issue] at h
  rcases issue_eq_next h with ⟨hb', _⟩ | ⟨_, hi, ht⟩
  · rw [hb] at hb'
    cases hb'
  · exact ⟨hi, ht⟩

/-- PACK: the frame of the payload in `FRM`, and nothing else of the data (R100). -/
theorem exec_pack_next {s t : State} (hb : s.busy = false) (h : exec .pack s = .next t) :
    ∃ v : Memory,
      t = { s with
        frm := v
        frmLen := BitVec.ofNat 33 (4 + s.msgLen.toNat)
        status := statusWord s.status false true 0
        opr := 1, slot := 0, cur := 0, acc := 0, nb := 0
        widx := BitVec.ofNat 33 s.msgLen.toNat
        phase := .idle } ∧
      (s.frm.wf = true → v.wf = true) ∧ ((∀ c ∈ s.frm, c.1 < s.cap .frm) → ∀ c ∈ v, c.1 < s.cap .frm) ∧
      ∀ x, v.read x = if x < 4 then some (lengthByte s.msgLen x)
        else if x < 4 + s.msgLen.toNat then s.msg.read (x - 4) else s.frm.read x := by
  obtain ⟨u, ⟨v, hu, hw, hin⟩, ht, hr⟩ := packBody_spec (exec_eq_next hb h).2
  subst hu
  refine ⟨v, ?_, hw, hin, hr⟩
  rw [ht]
  simp [State.complete, State.launch, State.setMem, opcodeOf]

/-- UNPACK: a short header, a length beyond the frame, or the payload in `MSG` (R104). -/
theorem exec_unpack_next {s t : State} (hb : s.busy = false) (h : exec .unpack s = .next t) :
    (s.frmLen.toNat < 4 ∧
      t = { s with
        status := statusWord s.status false true 2
        opr := 2, slot := 0, cur := 0, acc := 0, nb := 0, widx := 0, phase := .idle }) ∨
    (4 ≤ s.frmLen.toNat ∧ ∃ L, s.headerLength = some L ∧ 4 + L > s.frmLen.toNat ∧
      t = { s with
        status := statusWord s.status false true 2
        opr := 2, slot := 0, cur := 0, acc := 0, nb := 0, widx := 0
        lreg := BitVec.ofNat 32 L, phase := .idle }) ∨
    (4 ≤ s.frmLen.toNat ∧ ∃ L, s.headerLength = some L ∧ 4 + L ≤ s.frmLen.toNat ∧ ∃ v : Memory,
      t = { s with
        msg := v
        msgLen := BitVec.ofNat 32 L
        status := statusWord s.status false true 0
        opr := 2, slot := 0, cur := 0, acc := 0, nb := 0
        widx := BitVec.ofNat 33 L
        lreg := BitVec.ofNat 32 L, phase := .idle } ∧
      (s.msg.wf = true → v.wf = true) ∧ ((∀ c ∈ s.msg, c.1 < s.cap .msg) → ∀ c ∈ v, c.1 < s.cap .msg) ∧
      ∀ x, v.read x = if x < L then s.frm.read (4 + x) else s.msg.read x) := by
  rcases unpackBody_spec (exec_eq_next hb h).2 with ⟨h4, ht⟩ | ⟨h4, L, hL, hp⟩
  · refine .inl ⟨h4, ?_⟩
    rw [ht]
    simp [State.raise, State.complete, State.launch, opcodeOf]
  · rcases unpackPayload_spec hp with ⟨hlt, ht⟩ | ⟨hle, u, ⟨v, hu, hw, hin⟩, ht, hr⟩
    · refine .inr (.inl ⟨h4, L, hL, hlt, ?_⟩)
      rw [ht]
      simp [State.raise, State.complete, State.launch, opcodeOf]
    · subst hu
      refine .inr (.inr ⟨h4, L, hL, hle, v, ?_, hw, hin, hr⟩)
      rw [ht]
      simp [State.complete, State.launch, State.setMem, opcodeOf]

/-- EMBED: a shape error, a capacity error, or the bits of the frame in the slots of `CB` (R120). -/
theorem exec_embed_next {s t : State} (hb : s.busy = false) (h : exec .embed s = .next t) :
    (s.cbLen % 4 ≠ 0 ∧
      t = { s with
        status := statusWord s.status false true 3
        opr := 3, slot := 0, cur := 0, acc := 0, nb := 0, widx := 0, phase := .idle }) ∨
    (s.cbLen % 4 = 0 ∧ (s.trunc = false ∧ s.bitsRequired > usable s.cbLen) ∧
      t = { s with
        status := statusWord s.status false true 1
        opr := 3, slot := 0, cur := 0, acc := 0, nb := 0, widx := 0, phase := .idle }) ∨
    (s.cbLen % 4 = 0 ∧ ¬ (s.trunc = false ∧ s.bitsRequired > usable s.cbLen) ∧ ∃ v : Memory,
      t = { s with
        cb := v
        status := statusWord s.status false true 0
        opr := 3, slot := s.slotsWritten, cur := BitVec.ofNat 36 s.slotsWritten, acc := 0, nb := 0, widx := 0
        phase := .idle } ∧
      (s.cb.wf = true → v.wf = true) ∧ ((∀ c ∈ s.cb, c.1 < s.cap .cb) → ∀ c ∈ v, c.1 < s.cap .cb) ∧
      (∀ k < s.slotsWritten, ∃ f b, s.frm.read (k / 8) = some f ∧ s.cb.read (slotIndex k) = some b ∧
        v.read (slotIndex k) = some (setLsb b (cursorBit f k))) ∧
      ∀ x, (∀ k < s.slotsWritten, x ≠ slotIndex k) → v.read x = s.cb.read x) := by
  rcases embedBody_spec (exec_eq_next hb h).2 with ⟨h4, ht⟩ | ⟨h4, hc, ht⟩ | ⟨h4, hc, u, hu, ht⟩
  · refine .inl ⟨h4, ?_⟩
    rw [ht]
    simp [State.raise, State.complete, State.launch, opcodeOf]
  · refine .inr (.inl ⟨h4, hc, ?_⟩)
    rw [ht]
    simp [State.raise, State.complete, State.launch, opcodeOf]
  · obtain ⟨⟨v, hv, hw, hin⟩, hbits, hout⟩ := embedSlots_spec hu
    subst hv
    refine .inr (.inr ⟨h4, hc, v, ?_, hw, hin, hbits, hout⟩)
    rw [ht]
    simp [State.complete, State.launch, State.setMem, State.slotsWritten, State.bitsRequired, opcodeOf]

/-- EXTRACT: a shape error, or the packed slot bits in `FRM` (R140). -/
theorem exec_extract_next {s t : State} (hb : s.busy = false) (h : exec .extract s = .next t) :
    (s.cbLen % 4 ≠ 0 ∧
      t = { s with
        status := statusWord s.status false true 3
        opr := 4, slot := 0, cur := 0, acc := 0, nb := 0, widx := 0, phase := .idle }) ∨
    (s.cbLen % 4 = 0 ∧ ∃ (v : Memory) (left : Byte),
      t = { s with
        frm := v
        frmLen := BitVec.ofNat 33 (usable s.cbLen / 8)
        status := statusWord s.status false true 0
        opr := 4, slot := usable s.cbLen, cur := 0, acc := left, nb := BitVec.ofNat 3 (usable s.cbLen % 8)
        widx := BitVec.ofNat 33 (usable s.cbLen / 8)
        phase := .idle } ∧
      (s.frm.wf = true → v.wf = true) ∧ ((∀ c ∈ s.frm, c.1 < s.cap .frm) → ∀ c ∈ v, c.1 < s.cap .frm) ∧
      gatherBits s (8 * (usable s.cbLen / 8)) (usable s.cbLen % 8) = .ok left ∧
      (∀ j < usable s.cbLen / 8, ∃ b, gatherBits s (8 * j) 8 = .ok b ∧ v.read j = some b) ∧
      ∀ x, usable s.cbLen / 8 ≤ x → v.read x = s.frm.read x) := by
  rcases extractBody_spec (exec_eq_next hb h).2 with ⟨h4, ht⟩ | ⟨h4, u, left, hu, hl, ht⟩
  · refine .inl ⟨h4, ?_⟩
    rw [ht]
    simp [State.raise, State.complete, State.launch, opcodeOf]
  · obtain ⟨⟨v, hv, hw, hin⟩, hbytes, hout⟩ := extractBytes_spec hu
    subst hv
    have hg : ∀ j n, gatherBits (s.launch (encode .extract)) j n = gatherBits s j n := gatherBits_congr rfl rfl
    refine .inr ⟨h4, v, left, ?_, hw, hin, by rw [← hg]; exact hl, fun j hj => ?_, hout⟩
    · rw [ht]
      simp [State.complete, State.launch, State.setMem, opcodeOf]
    · obtain ⟨b, hb1, hb2⟩ := hbytes j hj
      exact ⟨b, by rw [← hg]; exact hb1, hb2⟩

end Sys2Proof.Machine
end

