-- ==== Sys2Proof/Laws/Side.lean ====
section
/-! SUPPORT. Updates that leave the memories and the parameters alone commute with every byte access and every loop; in
particular no command looks at the host's side of the state. -/

namespace Sys2Proof.Machine

/-- An update of a state beside its memories and parameters. -/
structure SideUpdate (f : State → State) : Prop where
  mem : ∀ s m, (f s).mem m = s.mem m
  params : ∀ s, (f s).params = s.params
  comm : ∀ s m v, f (s.setMem m v) = (f s).setMem m v

variable {f : State → State}

theorem SideUpdate.loadByte (h : SideUpdate f) (s : State) (m : MemId) (a : Nat) :
    (f s).loadByte m a = s.loadByte m a := by
  unfold State.loadByte State.cap
  rw [h.mem, h.params]

theorem SideUpdate.storeByte (h : SideUpdate f) (s : State) (m : MemId) (a : Nat) (b : Byte) :
    (f s).storeByte m a b = f <$> s.storeByte m a b := by
  unfold State.storeByte State.cap
  rw [h.mem, h.params]
  split
  · rfl
  · rw [← h.comm]
    rfl

theorem SideUpdate.storeByte_ok (h : SideUpdate f) {s t : State} {m : MemId} {a : Nat} {b : Byte}
    (hs : s.storeByte m a b = .ok t) : (f s).storeByte m a b = .ok (f t) := by
  rw [h.storeByte, hs]
  rfl

theorem SideUpdate.copyBytes_ok (h : SideUpdate f) {src dst : MemId} {sB dB n : Nat} {s t : State}
    (hs : copyBytes src sB dst dB n s = .ok t) : copyBytes src sB dst dB n (f s) = .ok (f t) := by
  induction n generalizing t with
  | zero =>
    cases hs
    rfl
  | succ n ih =>
    obtain ⟨u, hu, hs⟩ := except_bind_eq_ok.1 hs
    obtain ⟨b, hb, hs⟩ := except_bind_eq_ok.1 hs
    exact except_bind_eq_ok.2 ⟨f u, ih hu, except_bind_eq_ok.2 ⟨b, by rw [h.loadByte, hb], h.storeByte_ok hs⟩⟩

theorem SideUpdate.embedSlot_ok (h : SideUpdate f) {k : Nat} {s t : State}
    (hs : embedSlot k s = .ok t) : embedSlot k (f s) = .ok (f t) := by
  obtain ⟨a, ha, hs⟩ := except_bind_eq_ok.1 hs
  obtain ⟨b, hb, hs⟩ := except_bind_eq_ok.1 hs
  exact except_bind_eq_ok.2 ⟨a, by rw [h.loadByte, ha], except_bind_eq_ok.2 ⟨b, by rw [h.loadByte, hb], h.storeByte_ok hs⟩⟩

theorem SideUpdate.embedSlots_ok (h : SideUpdate f) {n : Nat} {s t : State}
    (hs : embedSlots n s = .ok t) : embedSlots n (f s) = .ok (f t) := by
  induction n generalizing t with
  | zero =>
    cases hs
    rfl
  | succ n ih =>
    obtain ⟨u, hu, hs⟩ := except_bind_eq_ok.1 hs
    exact except_bind_eq_ok.2 ⟨f u, ih hu, h.embedSlot_ok hs⟩

theorem SideUpdate.gatherBits (h : SideUpdate f) (s : State) (j n : Nat) :
    gatherBits (f s) j n = gatherBits s j n :=
  gatherBits_congr (h.mem s .cb) (h.params s) j n

theorem SideUpdate.extractBytes_ok (h : SideUpdate f) {n : Nat} {s t : State}
    (hs : extractBytes n s = .ok t) : extractBytes n (f s) = .ok (f t) := by
  induction n generalizing t with
  | zero =>
    cases hs
    rfl
  | succ n ih =>
    obtain ⟨u, hu, hs⟩ := except_bind_eq_ok.1 hs
    obtain ⟨b, hb, hs⟩ := except_bind_eq_ok.1 hs
    exact except_bind_eq_ok.2 ⟨f u, ih hu, except_bind_eq_ok.2 ⟨b, by rw [h.gatherBits, hb], h.storeByte_ok hs⟩⟩

/-- The host's side of a state replaced. -/
def State.withHostSide (s : State) (h : List HostAction) (d : Option HostValue) (w : Option Byte) (e n : Nat) : State :=
  { s with host := h, hostData := d, hostStatus := w, epoch := e, draws := n }

theorem sideUpdate_withHostSide (h : List HostAction) (d : Option HostValue) (w : Option Byte) (e n : Nat) :
    SideUpdate (fun s => s.withHostSide h d w e n) :=
  ⟨fun s m => by cases m <;> rfl, fun _ => rfl, fun s m v => by cases m <;> rfl⟩

theorem sideUpdate_walk (widx : BitVec 33) (phase : Phase) :
    SideUpdate (fun s => { s with widx := widx, phase := phase }) :=
  ⟨fun s m => by cases m <;> rfl, fun _ => rfl, fun s m v => by cases m <;> rfl⟩

theorem sideUpdate_cursor (cur : BitVec 36) (slot : Nat) (phase : Phase) :
    SideUpdate (fun s => { s with cur := cur, slot := slot, phase := phase }) :=
  ⟨fun s m => by cases m <;> rfl, fun _ => rfl, fun s m v => by cases m <;> rfl⟩

theorem sideUpdate_accumulate (slot : Nat) (acc : Byte) (nb : BitVec 3) (widx : BitVec 33) (phase : Phase) :
    SideUpdate (fun s => { s with slot := slot, acc := acc, nb := nb, widx := widx, phase := phase }) :=
  ⟨fun s m => by cases m <;> rfl, fun _ => rfl, fun s m v => by cases m <;> rfl⟩

end Sys2Proof.Machine
end

