-- ==== Sys2Proof/Laws/Engine.lean ====
section
/-! SUPPORT. The engine's steps: how many steps compose, and, for each command, the state its loop has reached after `n` data
or copy steps, in terms of the loops of the one-step meanings. -/

namespace Sys2Proof.Machine

theorem runEngine_zero (s : State) : runEngine 0 s = .next s := rfl

/-- Steps compose. -/
theorem runEngine_add {m n : Nat} {s t : State} (h : runEngine m s = .next t) : runEngine (m + n) s = runEngine n t := by
  induction m generalizing s with
  | zero =>
    cases h
    rw [Nat.zero_add]
  | succ m ih =>
    rw [Nat.succ_add]
    simp only [runEngine] at h ⊢
    cases he : engineStep s with
    | next u => rw [he] at h; exact ih h
    | fault f => rw [he] at h; cases h
    | refused r => rw [he] at h; cases h

theorem runEngine_one (s : State) : runEngine 1 s = engineStep s := by
  simp only [runEngine]
  cases engineStep s <;> rfl

/-- One more step at the end. -/
theorem runEngine_snoc {n : Nat} {s t u : State} (h : runEngine n s = .next t) (hs : engineStep t = .next u) :
    runEngine (n + 1) s = .next u := by
  rw [runEngine_add h, runEngine_one, hs]

/-- One more step at the front. -/
theorem runEngine_cons {n : Nat} {s t : State} (hs : engineStep s = .next t) : runEngine (n + 1) s = runEngine n t := by
  simp only [runEngine, hs]

/-- An idle engine has no enabled step (R204). -/
@[simp] theorem engineStep_idle {s : State} (h : s.busy = false) : engineStep s = .next s := by simp [engineStep, h]

/-- One step of each command. -/
def stepOf : Instr → State → Except Fault State
  | .pack => stepPack
  | .unpack => stepUnpack
  | .embed => stepEmbed
  | .extract => stepExtract

theorem stepOf_pack : stepOf .pack = stepPack := rfl
theorem stepOf_unpack : stepOf .unpack = stepUnpack := rfl
theorem stepOf_embed : stepOf .embed = stepEmbed := rfl
theorem stepOf_extract : stepOf .extract = stepExtract := rfl

/-- A busy engine past an illegal launch steps the command that `OPR` names. -/
theorem engineStep_busy {s : State} {i : Instr} (hb : s.busy = true) (hp : s.phase ≠ .illegal) (ho : s.opr = opcodeOf i) :
    engineStep s = outcomeOf (stepOf i s) := by
  unfold engineStep stepCommand
  rw [if_neg (by simp [hb]), if_neg hp, ho, operationOf_opcodeOf]
  cases i <;> rfl

theorem engineStep_ok {s t : State} {i : Instr} (hb : s.busy = true) (hp : s.phase ≠ .illegal) (ho : s.opr = opcodeOf i)
    (h : stepOf i s = .ok t) : engineStep s = .next t := by
  rw [engineStep_busy hb hp ho, h]
  rfl

variable {s t : State} {b : Byte}

/-! ### PACK -/

theorem stepPack_header {k : Fin 4} (hp : s.phase = .header k)
    (h : s.storeByte .frm k.val (lengthByte s.msgLen k.val) = .ok t) :
    stepPack s = .ok { t with phase := afterHeader k .data } := by
  unfold stepPack
  rw [hp]
  exact except_bind_eq_ok.2 ⟨t, h, rfl⟩

theorem stepPack_copy (hp : s.phase = .data) (hw : s.widx.toNat < s.msgLen.toNat)
    (hl : s.loadByte .msg s.widx.toNat = .ok b) (hs : s.storeByte .frm (4 + s.widx.toNat) b = .ok t) :
    stepPack s = .ok { t with widx := t.widx + 1 } := by
  unfold stepPack
  rw [hp]
  simp only
  rw [if_pos hw]
  exact except_bind_eq_ok.2 ⟨b, hl, except_bind_eq_ok.2 ⟨t, hs, rfl⟩⟩

theorem stepPack_final (hp : s.phase = .data) (hw : s.msgLen.toNat ≤ s.widx.toNat) :
    stepPack s = .ok (State.complete none { s with frmLen := BitVec.ofNat 33 (4 + s.msgLen.toNat) }) := by
  unfold stepPack
  rw [hp]
  simp only
  rw [if_neg (by omega)]

theorem toNat_ofNat_lt {w n : Nat} (h : n < 2 ^ w) : (BitVec.ofNat w n).toNat = n := by
  rw [BitVec.toNat_ofNat, Nat.mod_eq_of_lt h]

theorem ofNat_succ (w n : Nat) : BitVec.ofNat w n + 1 = BitVec.ofNat w (n + 1) := by
  rw [BitVec.ofNat_add]
  rfl

/-- After `n` copy steps of PACK (R101). -/
theorem runEngine_packCopy {n : Nat} (hb : s.busy = true) (ho : s.opr = 1) (hn : n ≤ s.msgLen.toNat)
    (h : copyBytes .msg 0 .frm 4 n s = .ok t) :
    runEngine n { s with widx := 0, phase := .data } = .next { t with widx := BitVec.ofNat 33 n, phase := .data } := by
  induction n generalizing t with
  | zero =>
    cases h
    rfl
  | succ n ih =>
    obtain ⟨u, hu, h⟩ := except_bind_eq_ok.1 h
    obtain ⟨b, hl, h⟩ := except_bind_eq_ok.1 h
    have w := (copyBytes_spec (by decide) hu).1
    refine runEngine_snoc (ih (by omega) hu) (engineStep_ok (i := .pack) ?_ (by simp) ?_ ?_)
    · obtain ⟨v, rfl, _⟩ := w
      exact hb
    · obtain ⟨v, rfl, _⟩ := w
      exact ho
    · have S := sideUpdate_walk (BitVec.ofNat 33 n) .data
      have hlt := s.msgLen.isLt
      have hw : (BitVec.ofNat 33 n).toNat = n := toNat_ofNat_lt (by omega)
      rw [Nat.zero_add] at hl
      have hstep := stepPack_copy (s := { u with widx := BitVec.ofNat 33 n, phase := .data }) (b := b)
        (t := { t with widx := BitVec.ofNat 33 n, phase := .data }) rfl
        (by simp only [hw, w.msgLen]; omega) (by simp only [hw]; exact (S.loadByte u .msg n).trans hl)
        (by simp only [hw]; exact S.storeByte_ok h)
      simp only [ofNat_succ] at hstep
      exact hstep

/-- PACK step by step from its launch gives what its one-step meaning gives (R101, R203). -/
theorem runEngine_pack (hb : s.busy = true) (ho : s.opr = 1) (hp : s.phase = .header 0) (hw : s.widx = 0)
    (h : packBody s = .ok t) : runEngine (4 + s.msgLen.toNat + 1) s = .next t := by
  simp only [packBody] at h
  obtain ⟨s0, h0, h⟩ := except_bind_eq_ok.1 h
  obtain ⟨s1, h1, h⟩ := except_bind_eq_ok.1 h
  obtain ⟨s2, h2, h⟩ := except_bind_eq_ok.1 h
  obtain ⟨s3, h3, h⟩ := except_bind_eq_ok.1 h
  obtain ⟨u, hu, h⟩ := except_bind_eq_ok.1 h
  have w0 := State.storeByte_wrote h0
  have w1 := w0.trans (State.storeByte_wrote h1)
  have w2 := w1.trans (State.storeByte_wrote h2)
  have w3 := w2.trans (State.storeByte_wrote h3)
  have wu := w3.trans (copyBytes_spec (by decide) hu).1
  have hdr : ∀ {a b : State} (k : Fin 4), WroteMem .frm s a → a.storeByte .frm k.val (lengthByte a.msgLen k.val) = .ok b →
      engineStep { a with phase := .header k } = .next { b with phase := afterHeader k .data } := by
    intro a b k wa hab
    have S := sideUpdate_walk a.widx (.header k)
    have hwb : b.widx = a.widx := by
      obtain ⟨_, rfl⟩ := State.storeByte_eq_ok.1 hab
      simp
    obtain ⟨v, rfl, _⟩ := wa
    refine engineStep_ok (i := .pack) (by exact hb) (by simp) (by exact ho) ?_
    have := stepPack_header (s := { s.setMem .frm v with phase := .header k }) rfl (S.storeByte_ok hab)
    rw [← hwb] at this
    exact this
  have e0 : engineStep s = .next { s0 with phase := .header 1 } := by
    have := hdr 0 (WroteMem.refl _ s) h0
    rwa [← hp] at this
  have e1 : engineStep { s0 with phase := .header 1 } = .next { s1 with phase := .header 2 } := hdr 1 w0 h1
  have e2 : engineStep { s1 with phase := .header 2 } = .next { s2 with phase := .header 3 } := hdr 2 w1 h2
  have e3 : engineStep { s2 with phase := .header 3 } = .next { s3 with phase := .data } := hdr 3 w2 h3
  have r4 : runEngine 4 s = .next { s3 with phase := .data } := by
    rw [runEngine_cons e0, runEngine_cons e1, runEngine_cons e2, runEngine_cons e3]
    rfl
  have hl3 : s3.msgLen = s.msgLen := w3.msgLen
  have hlt := s.msgLen.isLt
  have hcopy := runEngine_packCopy (s := s3) (by obtain ⟨v, rfl, _⟩ := w3; simpa using hb)
    (by obtain ⟨v, rfl, _⟩ := w3; simpa using ho) (Nat.le_refl _) hu
  have hw3 : ({ s3 with phase := .data } : State) = { s3 with widx := 0, phase := .data } := by
    obtain ⟨v, rfl, _⟩ := w3
    simp [State.setMem, hw]
  rw [hw3] at r4
  rw [show 4 + s.msgLen.toNat + 1 = 4 + (s.msgLen.toNat + 1) by omega, runEngine_add r4]
  have hl3n : s3.msgLen.toNat = s.msgLen.toNat := by rw [hl3]
  rw [hl3n] at hcopy
  refine runEngine_snoc hcopy (engineStep_ok (i := .pack) ?_ (by simp) ?_ ?_)
  · obtain ⟨v, rfl, _⟩ := wu
    exact hb
  · obtain ⟨v, rfl, _⟩ := wu
    exact ho
  · have hm : u.msgLen = s.msgLen := wu.msgLen
    have := stepPack_final (s := { u with widx := BitVec.ofNat 33 s.msgLen.toNat, phase := .data }) rfl
      (by simp only [hm]; rw [toNat_ofNat_lt (by omega)])
    refine Eq.trans this ?_
    rw [← h, hm]
    rfl

/-! ### UNPACK -/

/-- After `n` copy steps of UNPACK (R105). -/
theorem runEngine_unpackCopy {n : Nat} (hb : s.busy = true) (ho : s.opr = 2) (hn : n ≤ s.lreg.toNat)
    (h : copyBytes .frm 4 .msg 0 n s = .ok t) :
    runEngine n { s with widx := 0, phase := .data } = .next { t with widx := BitVec.ofNat 33 n, phase := .data } := by
  induction n generalizing t with
  | zero =>
    cases h
    rfl
  | succ n ih =>
    obtain ⟨u, hu, h⟩ := except_bind_eq_ok.1 h
    obtain ⟨b, hl, h⟩ := except_bind_eq_ok.1 h
    have w := (copyBytes_spec (by decide) hu).1
    refine runEngine_snoc (ih (by omega) hu) (engineStep_ok (i := .unpack) ?_ (by simp) ?_ ?_)
    · obtain ⟨v, rfl, _⟩ := w
      exact hb
    · obtain ⟨v, rfl, _⟩ := w
      exact ho
    · have S := sideUpdate_walk (BitVec.ofNat 33 n) .data
      have hlt := s.lreg.isLt
      have hw : (BitVec.ofNat 33 n).toNat = n := toNat_ofNat_lt (by omega)
      have hlr : u.lreg.toNat = s.lreg.toNat := by
        obtain ⟨v, rfl, _⟩ := w
        simp
      rw [Nat.zero_add] at h
      have hl' := (S.loadByte u .frm (4 + n)).trans hl
      have hs' := S.storeByte_ok h
      rw [stepOf_unpack]
      unfold stepUnpack
      simp only [hw, hlr]
      rw [if_pos (by omega)]
      refine except_bind_eq_ok.2 ⟨b, hl', except_bind_eq_ok.2 ⟨_, hs', ?_⟩⟩
      simp only [ofNat_succ]

/-- Four header steps leave the length the header announces in `LREG` (R105). -/
theorem shiftInByte_four (b0 b1 b2 b3 : Byte) :
    shiftInByte (shiftInByte (shiftInByte (shiftInByte 0 b0) b1) b2) b3 = BitVec.ofNat 32 (unbe32 b0 b1 b2 b3) := by
  have h0 := b0.isLt
  have h1 := b1.isLt
  have h2 := b2.isLt
  have h3 := b3.isLt
  have key : ∀ (l : BitVec 32) (b : Byte), l.toNat < 2 ^ 24 → (shiftInByte l b).toNat = l.toNat * 2 ^ 8 + b.toNat := by
    intro l b hl
    have hb := b.isLt
    have e1 : (l <<< 8).toNat = l.toNat <<< 8 := by
      rw [BitVec.toNat_shiftLeft, Nat.mod_eq_of_lt]
      rw [Nat.shiftLeft_eq]
      omega
    have e2 : (b.setWidth 32).toNat = b.toNat := by
      rw [BitVec.toNat_setWidth, Nat.mod_eq_of_lt (by omega)]
    rw [shiftInByte, BitVec.toNat_or, e1, e2, ← Nat.shiftLeft_add_eq_or_of_lt (by omega), Nat.shiftLeft_eq]
  have k0 : (shiftInByte 0 b0).toNat = b0.toNat := by simpa using key 0 b0 (by decide)
  have k1 := key (shiftInByte 0 b0) b1 (by omega)
  have k2 := key (shiftInByte (shiftInByte 0 b0) b1) b2 (by omega)
  have k3 := key (shiftInByte (shiftInByte (shiftInByte 0 b0) b1) b2) b3 (by omega)
  apply BitVec.eq_of_toNat_eq
  rw [toNat_ofNat_lt (unbe32_lt ..), k3, k2, k1, k0]
  unfold unbe32
  omega

theorem stepUnpack_header {k : Fin 4} (hp : s.phase = .header k) (h : s.loadByte .frm k.val = .ok b) :
    stepUnpack s = .ok { s with
      lreg := shiftInByte (if k = 0 then 0 else s.lreg) b
      phase := afterHeader k .lengthCheck } := by
  unfold stepUnpack
  rw [hp]
  exact except_bind_eq_ok.2 ⟨b, h, rfl⟩

/-- A complete header, step by step: five steps to the second check (R105). -/
theorem runEngine_unpackHeader {L : Nat} (hb : s.busy = true) (ho : s.opr = 2) (hp : s.phase = .check)
    (h4 : 4 ≤ s.frmLen.toNat) (h : readHeader s = .ok L) :
    runEngine 5 s = .next { s with lreg := BitVec.ofNat 32 L, phase := .lengthCheck } := by
  obtain ⟨b0, h0, h⟩ := except_bind_eq_ok.1 h
  obtain ⟨b1, h1, h⟩ := except_bind_eq_ok.1 h
  obtain ⟨b2, h2, h⟩ := except_bind_eq_ok.1 h
  obtain ⟨b3, h3, h⟩ := except_bind_eq_ok.1 h
  cases h
  have e0 : engineStep s = .next { s with phase := .header 0 } := by
    refine engineStep_ok (i := .unpack) hb (by simp [hp]) ho ?_
    rw [stepOf_unpack]
    unfold stepUnpack
    rw [hp]
    simp only
    rw [if_neg (by omega)]
  have hdr : ∀ (k : Fin 4) (b : Byte) (l : BitVec 32), s.loadByte .frm k.val = .ok b →
      engineStep { s with lreg := l, phase := .header k } = .next { s with
        lreg := shiftInByte (if k = 0 then 0 else l) b, phase := afterHeader k .lengthCheck } := by
    intro k b l hk
    refine engineStep_ok (i := .unpack) hb (by simp) ho ?_
    exact stepUnpack_header (s := { s with lreg := l, phase := .header k }) (b := b) rfl hk
  have e1 := hdr 0 b0 s.lreg h0
  have e2 := hdr 1 b1 (shiftInByte 0 b0) h1
  have e3 := hdr 2 b2 (shiftInByte (shiftInByte 0 b0) b1) h2
  have e4 := hdr 3 b3 (shiftInByte (shiftInByte (shiftInByte 0 b0) b1) b2) h3
  rw [← shiftInByte_four]
  rw [runEngine_cons e0]
  refine (runEngine_cons (n := 3) e1).trans ((runEngine_cons (n := 2) e2).trans ((runEngine_cons (n := 1) e3).trans
    ((runEngine_cons (n := 0) e4).trans ?_)))
  rfl

/-- UNPACK step by step from its launch gives what its one-step meaning gives (R105, R203). -/
theorem runEngine_unpack (hb : s.busy = true) (ho : s.opr = 2) (hp : s.phase = .check) (hw : s.widx = 0)
    (h : unpackBody s = .ok t) : runEngine (stepCount .unpack s) s = .next t := by
  rcases unpackBody_spec h with ⟨h4, rfl⟩ | ⟨h4, L, hL, hpay⟩
  · have : stepCount .unpack s = 1 := by simp [stepCount, h4]
    rw [this, runEngine_one]
    refine engineStep_ok (i := .unpack) hb (by simp [hp]) ho ?_
    rw [stepOf_unpack]
    unfold stepUnpack
    rw [hp]
    simp only
    rw [if_pos h4]
  · have hhead : readHeader s = .ok L := by
      unfold unpackBody at h
      rw [if_neg (by omega)] at h
      obtain ⟨L', hL', h⟩ := except_bind_eq_ok.1 h
      have hc : 4 ≤ s.cap .frm := by
        have : s.cap .frm = s.cap .msg + 4 := rfl
        omega
      exact (readHeader_eq_ok hc).2 hL
    have r5 := runEngine_unpackHeader hb ho hp h4 hhead
    have hLlt := State.headerLength_lt hL
    have hlr : (BitVec.ofNat 32 L).toNat = L := toNat_ofNat_lt hLlt
    have hcheck : engineStep { s with lreg := BitVec.ofNat 32 L, phase := .lengthCheck } =
        if 4 + L > s.frmLen.toNat then .next (State.raise .format { s with lreg := BitVec.ofNat 32 L })
        else .next { s with lreg := BitVec.ofNat 32 L, phase := .data } := by
      refine (engineStep_busy (i := .unpack) (s := { s with lreg := BitVec.ofNat 32 L, phase := .lengthCheck })
        hb (by simp) ho).trans ?_
      rw [stepOf_unpack]
      unfold stepUnpack
      simp only [hlr]
      split
      · rfl
      · rfl
    rcases unpackPayload_spec hpay with ⟨hlt, rfl⟩ | ⟨hle, -⟩
    · have : stepCount .unpack s = 5 + 1 := by
        simp only [stepCount, hL]
        rw [if_neg (by omega), if_pos hlt]
      rw [this]
      refine runEngine_snoc r5 ?_
      rw [hcheck, if_pos hlt]
    · have : stepCount .unpack s = 6 + (L + 1) := by
        simp only [stepCount, hL]
        rw [if_neg (by omega), if_neg (by omega)]
        omega
      rw [this]
      simp only [unpackPayload] at hpay
      rw [if_neg (by omega)] at hpay
      obtain ⟨u, hu, hpay⟩ := except_bind_eq_ok.1 hpay
      have r6 : runEngine 6 s = .next { s with lreg := BitVec.ofNat 32 L, phase := .data } := by
        refine runEngine_snoc r5 ?_
        rw [hcheck, if_neg (by omega)]
      rw [runEngine_add r6]
      have hcopy := runEngine_unpackCopy (s := { s with lreg := BitVec.ofNat 32 L }) hb ho (by simp only [hlr]; omega) hu
      have hs : ({ s with lreg := BitVec.ofNat 32 L, phase := .data } : State) =
          { s with lreg := BitVec.ofNat 32 L, widx := 0, phase := .data } := by rw [← hw]
      rw [hs]
      have wu := (copyBytes_spec (by decide) hu).1
      refine runEngine_snoc hcopy (engineStep_ok (i := .unpack) ?_ (by simp) ?_ ?_)
      · obtain ⟨v, rfl, _⟩ := wu
        exact hb
      · obtain ⟨v, rfl, _⟩ := wu
        exact ho
      · rw [stepOf_unpack]
        obtain ⟨v, rfl, _⟩ := wu
        cases hpay
        unfold stepUnpack
        simp only [State.setMem, hlr]
        rw [if_neg (by rw [toNat_ofNat_lt (by omega)]; omega)]
        rfl

/-! ### EMBED -/

/-- After `n` data steps of EMBED: `SLOT = CUR = n` (R123). -/
theorem runEngine_embedData {n : Nat} (hb : s.busy = true) (ho : s.opr = 3) (hn : n ≤ s.slotsWritten)
    (h : embedSlots n s = .ok t) :
    runEngine n { s with cur := 0, slot := 0, phase := .data } =
      .next { t with cur := BitVec.ofNat 36 n, slot := n, phase := .data } := by
  induction n generalizing t with
  | zero =>
    cases h
    rfl
  | succ n ih =>
    obtain ⟨u, hu, h⟩ := except_bind_eq_ok.1 h
    have w := (embedSlots_spec hu).1
    have hlt := s.frmLen.isLt
    have hn' : n < 8 * s.frmLen.toNat ∧ n < 3 * (s.cbLen / 4) := by
      have := Nat.lt_min.1 (show n < s.slotsWritten by omega)
      exact this
    refine runEngine_snoc (ih (by omega) hu) (engineStep_ok (i := .embed) ?_ (by simp) ?_ ?_)
    · obtain ⟨v, rfl, _⟩ := w
      exact hb
    · obtain ⟨v, rfl, _⟩ := w
      exact ho
    · have S := sideUpdate_cursor (BitVec.ofNat 36 n) n .data
      have hw : (BitVec.ofNat 36 n).toNat = n := toNat_ofNat_lt (by omega)
      obtain ⟨f, hf, h⟩ := except_bind_eq_ok.1 h
      obtain ⟨v, hv, h⟩ := except_bind_eq_ok.1 h
      have hf' := (S.loadByte u .frm (n / 8)).trans hf
      have hv' := (S.loadByte u .cb (slotIndex n)).trans hv
      have hs' := S.storeByte_ok h
      rw [stepOf_embed]
      have hF : u.frmLen.toNat = s.frmLen.toNat := by rw [w.frmLen]
      have hC : u.cbLen / 4 = s.cbLen / 4 := by rw [w.cbLen]
      unfold stepEmbed
      simp only [hw, hF, hC]
      rw [if_pos hn']
      refine except_bind_eq_ok.2 ⟨f, hf', except_bind_eq_ok.2 ⟨v, hv', except_bind_eq_ok.2 ⟨_, hs', ?_⟩⟩⟩
      simp only [ofNat_succ]

/-- EMBED step by step from its launch gives what its one-step meaning gives (R124, R203). -/
theorem runEngine_embed (hb : s.busy = true) (ho : s.opr = 3) (hp : s.phase = .check) (hc : s.cur = 0) (hsl : s.slot = 0)
    (h : embedBody s = .ok t) : runEngine (stepCount .embed s) s = .next t := by
  have hcheck : stepEmbed s = if s.cbLen % 4 ≠ 0 then .ok (s.raise .inputShape)
      else if s.trunc = false ∧ 8 * s.frmLen.toNat > 3 * (s.cbLen / 4) then .ok (s.raise .capacity)
      else .ok { s with phase := .data } := by
    unfold stepEmbed
    rw [hp]
  have hill : s.phase ≠ .illegal := by simp [hp]
  rcases embedBody_spec h with ⟨h4, rfl⟩ | ⟨h4, hcap, rfl⟩ | ⟨h4, hcap, u, hu, rfl⟩
  · have : stepCount .embed s = 1 := if_pos (.inl h4)
    rw [this, runEngine_one]
    refine engineStep_ok (i := .embed) hb hill ho ?_
    rw [stepOf_embed]
    rw [hcheck, if_pos h4]
  · have : stepCount .embed s = 1 := if_pos (.inr hcap)
    rw [this, runEngine_one]
    refine engineStep_ok (i := .embed) hb hill ho ?_
    rw [stepOf_embed]
    rw [hcheck, if_neg (by omega)]
    exact if_pos hcap
  · have : stepCount .embed s = 1 + s.slotsWritten + 1 := if_neg (by
      rintro (h | h)
      · exact h h4
      · exact hcap h)
    rw [this]
    have e : engineStep s = .next { s with cur := 0, slot := 0, phase := .data } := by
      refine engineStep_ok (i := .embed) hb hill ho ?_
      rw [stepOf_embed]
      rw [hcheck, if_neg (by omega), ← hc, ← hsl]
      exact if_neg hcap
    rw [show 1 + s.slotsWritten + 1 = (s.slotsWritten + 1) + 1 by omega, runEngine_cons e]
    have hdata := runEngine_embedData hb ho (Nat.le_refl _) hu
    have w := (embedSlots_spec hu).1
    have hlt := s.frmLen.isLt
    have hM : s.slotsWritten ≤ 8 * s.frmLen.toNat := Nat.min_le_left ..
    refine runEngine_snoc hdata (engineStep_ok (i := .embed) ?_ (by simp) ?_ ?_)
    · obtain ⟨v, rfl, _⟩ := w
      exact hb
    · obtain ⟨v, rfl, _⟩ := w
      exact ho
    · rw [stepOf_embed]
      have hF : u.frmLen.toNat = s.frmLen.toNat := by rw [w.frmLen]
      have hC : u.cbLen / 4 = s.cbLen / 4 := by rw [w.cbLen]
      unfold stepEmbed
      simp only [hF, hC]
      rw [if_neg]
      · rfl
      · rw [toNat_ofNat_lt (by omega)]
        rintro ⟨h1, h2⟩
        exact absurd (Nat.lt_min.2 ⟨h1, h2⟩) (Nat.lt_irrefl s.slotsWritten)

/-! ### EXTRACT -/

/-- `n` slots read: the bytes completed so far, and the bits left in the accumulator (R143). -/
theorem runEngine_extractData {n : Nat} {acc : Byte} (hb : s.busy = true) (ho : s.opr = 4) (hn : n ≤ usable s.cbLen)
    (hfit : usable s.cbLen / 8 < 2 ^ 33)
    (h : extractBytes (n / 8) s = .ok t) (ha : gatherBits s (8 * (n / 8)) (n % 8) = .ok acc)
    (hmore : ∀ m < usable s.cbLen, ∃ b, s.loadByte .cb (slotIndex m) = .ok b) :
    runEngine n { s with slot := 0, acc := 0, nb := 0, widx := 0, phase := .data } =
      .next { t with slot := n, acc := acc, nb := BitVec.ofNat 3 (n % 8), widx := BitVec.ofNat 33 (n / 8), phase := .data } := by
  induction n generalizing t acc with
  | zero =>
    cases h
    cases ha
    rfl
  | succ n ih =>
    obtain ⟨v, hv⟩ := hmore n (by omega)
    have step : ∀ {u : State} {acc' : Byte}, WroteMem .frm s u →
        stepExtract { u with slot := n, acc := acc', nb := BitVec.ofNat 3 (n % 8), widx := BitVec.ofNat 33 (n / 8), phase := .data } =
        if n % 8 < 7 then .ok { u with
          slot := n + 1
          acc := shiftIn acc' (lsb v)
          nb := BitVec.ofNat 3 (n % 8 + 1)
          widx := BitVec.ofNat 33 (n / 8)
          phase := .data }
        else u.storeByte .frm (n / 8) (shiftIn acc' (lsb v)) >>= fun u' => .ok { u' with
          slot := n + 1
          acc := 0
          nb := 0
          widx := BitVec.ofNat 33 (n / 8 + 1)
          phase := .data } := by
      intro u acc' w
      have S := sideUpdate_accumulate n acc' (BitVec.ofNat 3 (n % 8)) (BitVec.ofNat 33 (n / 8)) .data
      have h3 : (BitVec.ofNat 3 (n % 8)).toNat = n % 8 := toNat_ofNat_lt (by omega)
      have h33 : (BitVec.ofNat 33 (n / 8)).toNat = n / 8 := toNat_ofNat_lt (by omega)
      have hv' : u.loadByte .cb (slotIndex n) = .ok v := by
        obtain ⟨m, rfl, _⟩ := w
        exact hv
      have hv'' := (S.loadByte u .cb (slotIndex n)).trans hv'
      have hC : u.cbLen / 4 = s.cbLen / 4 := by rw [w.cbLen]
      unfold stepExtract
      simp only [h3, h33, hC]
      rw [if_pos (by unfold usable pixels at hn; omega)]
      refine Eq.trans (b := _) (congrArg (· >>= _) hv'') ?_
      rw [except_ok_bind]
      split
      · simp only [ofNat_succ]
      · rw [← ofNat_succ]
        have hst := S.storeByte u .frm (n / 8) (shiftIn acc' (lsb v))
        refine Eq.trans (congrArg (· >>= _) hst) ?_
        cases u.storeByte .frm (n / 8) (shiftIn acc' (lsb v)) <;> rfl
    by_cases h7 : n % 8 = 7
    · have hdiv : (n + 1) / 8 = n / 8 + 1 := by omega
      have hmod : (n + 1) % 8 = 0 := by omega
      rw [hdiv] at h
      obtain ⟨u, hu, h⟩ := except_bind_eq_ok.1 h
      obtain ⟨b, hg, h⟩ := except_bind_eq_ok.1 h
      have w := (extractBytes_spec hu).1
      rw [gatherBits_congr (w.mem_ne (m := .cb) (by decide)) w.params] at hg
      obtain ⟨acc', hacc', hg⟩ := except_bind_eq_ok.1 hg
      obtain ⟨v', hv', hg⟩ := except_bind_eq_ok.1 hg
      rw [show 8 * (n / 8) + 7 = n by omega, hv] at hv'
      cases hv'
      cases hg
      rw [hmod] at ha
      cases ha
      refine runEngine_snoc (ih (by omega) hu (by rw [h7]; exact hacc')) (engineStep_ok (i := .extract) ?_ (by simp) ?_ ?_)
      · obtain ⟨m, rfl, _⟩ := w
        exact hb
      · obtain ⟨m, rfl, _⟩ := w
        exact ho
      · rw [stepOf_extract]
        rw [step w, if_neg (by omega)]
        refine except_bind_eq_ok.2 ⟨t, h, ?_⟩
        rw [hmod, hdiv]
        rfl
    · have hdiv : (n + 1) / 8 = n / 8 := by omega
      have hmod : (n + 1) % 8 = n % 8 + 1 := by omega
      rw [hdiv] at h
      rw [hdiv, hmod] at ha
      obtain ⟨acc', hacc', ha⟩ := except_bind_eq_ok.1 ha
      obtain ⟨v', hv', ha⟩ := except_bind_eq_ok.1 ha
      rw [show 8 * (n / 8) + n % 8 = n by omega, hv] at hv'
      cases hv'
      cases ha
      have w := (extractBytes_spec h).1
      refine runEngine_snoc (ih (by omega) h hacc') (engineStep_ok (i := .extract) ?_ (by simp) ?_ ?_)
      · obtain ⟨m, rfl, _⟩ := w
        exact hb
      · obtain ⟨m, rfl, _⟩ := w
        exact ho
      · rw [stepOf_extract]
        rw [step w, if_pos (by omega), hmod, hdiv]

/-- EXTRACT step by step from its launch gives what its one-step meaning gives (R144, R203). -/
theorem runEngine_extract (hb : s.busy = true) (ho : s.opr = 4) (hp : s.phase = .check) (hsl : s.slot = 0) (hacc : s.acc = 0)
    (hnb : s.nb = 0) (hw : s.widx = 0) (hfit : usable s.cbLen / 8 < 2 ^ 33)
    (hmore : ∀ m < usable s.cbLen, ∃ b, s.loadByte .cb (slotIndex m) = .ok b)
    (h : extractBody s = .ok t) : runEngine (stepCount .extract s) s = .next t := by
  have hcheck : stepExtract s = if s.cbLen % 4 ≠ 0 then .ok (s.raise .inputShape) else .ok { s with phase := .data } := by
    unfold stepExtract
    rw [hp]
  have hill : s.phase ≠ .illegal := by simp [hp]
  rcases extractBody_spec h with ⟨h4, rfl⟩ | ⟨h4, u, left, hu, hl, rfl⟩
  · have : stepCount .extract s = 1 := if_pos h4
    rw [this, runEngine_one]
    refine engineStep_ok (i := .extract) hb hill ho ?_
    rw [stepOf_extract]
    rw [hcheck, if_pos h4]
  · have : stepCount .extract s = 1 + usable s.cbLen + 1 := if_neg (by omega)
    rw [this]
    have e : engineStep s = .next { s with slot := 0, acc := 0, nb := 0, widx := 0, phase := .data } := by
      refine engineStep_ok (i := .extract) hb hill ho ?_
      rw [stepOf_extract]
      rw [hcheck, if_neg (by omega), ← hsl, ← hacc, ← hnb, ← hw]
    rw [show 1 + usable s.cbLen + 1 = (usable s.cbLen + 1) + 1 by omega, runEngine_cons e]
    have hdata := runEngine_extractData hb ho (Nat.le_refl _) hfit hu hl hmore
    have w := (extractBytes_spec hu).1
    refine runEngine_snoc hdata (engineStep_ok (i := .extract) ?_ (by simp) ?_ ?_)
    · obtain ⟨v, rfl, _⟩ := w
      exact hb
    · obtain ⟨v, rfl, _⟩ := w
      exact ho
    · rw [stepOf_extract]
      have hC : u.cbLen / 4 = s.cbLen / 4 := by rw [w.cbLen]
      unfold stepExtract
      simp only [hC]
      rw [if_neg (by unfold usable pixels; omega)]
      rfl

end Sys2Proof.Machine
end

