-- ==== Sys2Proof/Laws/HostSide.lean ====
section
/-! SUPPORT. No command and no engine step looks at the host's side of the state (spec/00_scope.md R12, spec/10_state.md
R32): a command run under another schedule gives the same block. -/

namespace Sys2Proof.Machine

section
variable (h : List HostAction) (d : Option HostValue) (w : Option Byte) (e n : Nat)

/-- A command does not look at the host's side of the state and does not write it. -/
theorem exec_withHostSide {i : Instr} {s t : State} (ht : exec i s = .next t) :
    exec i (s.withHostSide h d w e n) = .next (t.withHostSide h d w e n) := by
  have S := sideUpdate_withHostSide h d w e n
  cases hb : s.busy
  · obtain ⟨hin, hbody⟩ := exec_eq_next hb ht
    have hb' : (s.withHostSide h d w e n).busy = false := hb
    have hin' : (s.withHostSide h d w e n).inputsWritten i = true := by
      cases i <;> exact hin
    rw [exec_eq_issue, issue_eq hb' hin']
    refine outcomeOf_eq_next.2 ?_
    cases i
    · simp only [bodyOf, packBody] at hbody ⊢
      obtain ⟨s0, h0, hbody⟩ := except_bind_eq_ok.1 hbody
      obtain ⟨s1, h1, hbody⟩ := except_bind_eq_ok.1 hbody
      obtain ⟨s2, h2, hbody⟩ := except_bind_eq_ok.1 hbody
      obtain ⟨s3, h3, hbody⟩ := except_bind_eq_ok.1 hbody
      obtain ⟨u, hu, hbody⟩ := except_bind_eq_ok.1 hbody
      cases hbody
      exact except_bind_eq_ok.2 ⟨_, S.storeByte_ok h0, except_bind_eq_ok.2 ⟨_, S.storeByte_ok h1,
        except_bind_eq_ok.2 ⟨_, S.storeByte_ok h2, except_bind_eq_ok.2 ⟨_, S.storeByte_ok h3,
        except_bind_eq_ok.2 ⟨_, S.copyBytes_ok hu, rfl⟩⟩⟩⟩⟩
    · rcases unpackBody_spec hbody with ⟨h4, rfl⟩ | ⟨h4, L, hL, hp⟩
      · exact if_pos h4
      · have e1 : bodyOf .unpack = unpackBody := rfl
        rw [e1]; rw [e1] at hbody
        unfold unpackBody at hbody ⊢
        rw [if_neg (by omega)] at hbody
        obtain ⟨L', hh, hp'⟩ := except_bind_eq_ok.1 hbody
        refine (if_neg (by exact Nat.not_lt.2 h4)).trans (except_bind_eq_ok.2 ⟨L', ?_, ?_⟩)
        · obtain ⟨b0, g0, hh⟩ := except_bind_eq_ok.1 hh
          obtain ⟨b1, g1, hh⟩ := except_bind_eq_ok.1 hh
          obtain ⟨b2, g2, hh⟩ := except_bind_eq_ok.1 hh
          obtain ⟨b3, g3, hh⟩ := except_bind_eq_ok.1 hh
          exact except_bind_eq_ok.2 ⟨b0, (S.loadByte ..).trans g0, except_bind_eq_ok.2 ⟨b1, (S.loadByte ..).trans g1,
            except_bind_eq_ok.2 ⟨b2, (S.loadByte ..).trans g2, except_bind_eq_ok.2 ⟨b3, (S.loadByte ..).trans g3, hh⟩⟩⟩⟩
        · simp only [unpackPayload] at hp' ⊢
          split at hp'
          · rename_i hc
            cases hp'
            exact if_pos hc
          · rename_i hc
            obtain ⟨u, hu, hp'⟩ := except_bind_eq_ok.1 hp'
            cases hp'
            exact (if_neg hc).trans (except_bind_eq_ok.2 ⟨_, S.copyBytes_ok hu, rfl⟩)
    · simp only [bodyOf, embedBody] at hbody ⊢
      split at hbody
      · rename_i hc
        cases hbody
        exact if_pos hc
      · rename_i hc
        split at hbody
        · rename_i hc2
          cases hbody
          exact (if_neg hc).trans (if_pos hc2)
        · rename_i hc2
          obtain ⟨u, hu, hp'⟩ := except_bind_eq_ok.1 hbody
          cases hp'
          exact (if_neg hc).trans ((if_neg hc2).trans (except_bind_eq_ok.2 ⟨_, S.embedSlots_ok hu, rfl⟩))
    · simp only [bodyOf, extractBody] at hbody ⊢
      split at hbody
      · rename_i hc
        cases hbody
        exact if_pos hc
      · rename_i hc
        obtain ⟨u, hu, hp'⟩ := except_bind_eq_ok.1 hbody
        obtain ⟨l, hl, hp'⟩ := except_bind_eq_ok.1 hp'
        cases hp'
        exact (if_neg hc).trans (except_bind_eq_ok.2 ⟨_, S.extractBytes_ok hu, except_bind_eq_ok.2 ⟨_, (S.gatherBits ..).trans hl, rfl⟩⟩)
  · rw [exec_busy hb] at ht
    cases ht
    exact exec_busy hb

/-- One step of a command does not look at the host's side (R12). -/
theorem stepOf_withHostSide {i : Instr} {s t : State} (ht : stepOf i s = .ok t) :
    stepOf i (s.withHostSide h d w e n) = .ok (t.withHostSide h d w e n) := by
  have S := sideUpdate_withHostSide h d w e n
  have hp : (s.withHostSide h d w e n).phase = s.phase := rfl
  cases i <;> simp only [stepOf, stepPack, stepUnpack, stepEmbed, stepExtract] at ht ⊢ <;> rw [hp] <;>
    cases hph : s.phase <;> rw [hph] at ht <;> (try simp only at ht) <;> (try simp only) <;> (try (cases ht))
  all_goals try split at ht
  all_goals first
    | (rename_i hc; cases ht; exact if_pos hc)
    | (rename_i hc; split at ht <;> rename_i hc2 <;> cases ht <;> first | exact (if_neg hc).trans (if_pos hc2) | exact (if_neg hc).trans (if_neg hc2))
    | (rename_i hc; cases ht; exact if_neg hc)
    | skip
  · obtain ⟨u, hu, ht⟩ := except_bind_eq_ok.1 ht
    cases ht
    exact except_bind_eq_ok.2 ⟨_, S.storeByte_ok hu, rfl⟩
  · rename_i hc
    obtain ⟨b, hb, ht⟩ := except_bind_eq_ok.1 ht
    obtain ⟨u, hu, ht⟩ := except_bind_eq_ok.1 ht
    cases ht
    exact (if_pos hc).trans (except_bind_eq_ok.2 ⟨b, (S.loadByte ..).trans hb, except_bind_eq_ok.2 ⟨_, S.storeByte_ok hu, rfl⟩⟩)
  · rename_i hc
    obtain ⟨b, hb, ht⟩ := except_bind_eq_ok.1 ht
    cases ht
    exact except_bind_eq_ok.2 ⟨b, (S.loadByte ..).trans hb, by simp only [if_pos hc]; rfl⟩
  · rename_i hc
    obtain ⟨b, hb, ht⟩ := except_bind_eq_ok.1 ht
    cases ht
    exact except_bind_eq_ok.2 ⟨b, (S.loadByte ..).trans hb, by simp only [if_neg hc]; rfl⟩
  · rename_i hc
    obtain ⟨b, hb, ht⟩ := except_bind_eq_ok.1 ht
    obtain ⟨u, hu, ht⟩ := except_bind_eq_ok.1 ht
    cases ht
    exact (if_pos hc).trans (except_bind_eq_ok.2 ⟨b, (S.loadByte ..).trans hb, except_bind_eq_ok.2 ⟨_, S.storeByte_ok hu, rfl⟩⟩)
  · rename_i hc
    obtain ⟨f, hf, ht⟩ := except_bind_eq_ok.1 ht
    obtain ⟨b, hb, ht⟩ := except_bind_eq_ok.1 ht
    obtain ⟨u, hu, ht⟩ := except_bind_eq_ok.1 ht
    cases ht
    exact (if_pos hc).trans (except_bind_eq_ok.2 ⟨f, (S.loadByte ..).trans hf, except_bind_eq_ok.2 ⟨b, (S.loadByte ..).trans hb, except_bind_eq_ok.2 ⟨_, S.storeByte_ok hu, rfl⟩⟩⟩)
  · rename_i hc
    obtain ⟨v, hv, ht⟩ := except_bind_eq_ok.1 ht
    refine (if_pos hc).trans (except_bind_eq_ok.2 ⟨v, (S.loadByte ..).trans hv, ?_⟩)
    split at ht
    · rename_i h7
      cases ht
      exact if_pos h7
    · rename_i h7
      obtain ⟨u, hu, ht⟩ := except_bind_eq_ok.1 ht
      cases ht
      exact (if_neg h7).trans (except_bind_eq_ok.2 ⟨_, S.storeByte_ok hu, rfl⟩)

/-- The step of the command in progress, by the command `OPR` names. -/
theorem stepCommand_eq {s : State} : stepCommand s = match operationOf s.opr with
    | some i => stepOf i s
    | none => .error .noEnabledStep := by
  unfold stepCommand
  cases operationOf s.opr with
  | none => rfl
  | some i => cases i <;> rfl

/-- An engine step does not look at the host's side of the state and does not write it. -/
theorem engineStep_withHostSide {s t : State} (ht : engineStep s = .next t) :
    engineStep (s.withHostSide h d w e n) = .next (t.withHostSide h d w e n) := by
  cases hb : s.busy
  · rw [engineStep_idle hb] at ht
    cases ht
    exact engineStep_idle hb
  · have hb' : (s.withHostSide h d w e n).busy = true := hb
    have hp : (s.withHostSide h d w e n).phase = s.phase := rfl
    simp only [engineStep, hb, hb', hp, Bool.true_eq_false, if_false] at ht ⊢
    split at ht
    · rename_i hph
      cases ht
      exact if_pos hph
    · rename_i hph
      refine (if_neg hph).trans ?_
      rw [stepCommand_eq] at ht ⊢
      have ho : (s.withHostSide h d w e n).opr = s.opr := rfl
      rw [ho]
      split at ht
      · rename_i i hi
        exact outcomeOf_eq_next.2 (stepOf_withHostSide h d w e n (outcomeOf_eq_next.1 ht))
      · cases ht
end

end Sys2Proof.Machine
end

