-- ==== Sys2Proof/Laws/Step.lean ====
section
/-! SUPPORT. One step, by the host's next action, and runs of the interface as steps. -/

namespace Sys2Proof.Machine

variable {s : State} {rest : List HostAction}

theorem step_nil (h : s.host = []) : step s = engineStep s := by
  unfold step
  rw [h]

theorem step_move {m : HostMove} (h : s.host = .move m :: rest) : step s = hostMove m { s with host := rest } := by
  unfold step
  rw [h]

theorem step_engine (h : s.host = .engine :: rest) : step s = engineStep { s with host := rest } := by
  unfold step
  rw [h]

theorem step_run {v : Byte} {i : Instr} (h : s.host = .run v :: rest) (hd : decode v = .ok i) :
    step s = exec i { s with host := rest } := by
  unfold step
  rw [h]
  simp only [hd]

theorem step_run_illegal {v : Byte} {r : Reject} (h : s.host = .run v :: rest) (hd : decode v = .error r) :
    step s = illegalCommand v { s with host := rest } := by
  unfold step
  rw [h]
  simp only [hd]

theorem step_await (h : s.host = .await :: rest) : step s = awaitDone { s with host := rest } := by
  unfold step
  rw [h]

theorem step_ifErrSkip {n : Nat} (h : s.host = .ifErrSkip n :: rest) :
    step s = .next (ifErrSkip n { s with host := rest }) := by
  unfold step
  rw [h]

theorem step_ifErrStop (h : s.host = .ifErrStop :: rest) : step s = .next (ifErrStop { s with host := rest }) := by
  unfold step
  rw [h]

/-- One step of a run of the interface. -/
theorem run_succ {n : Nat} {t : State} (h : step s = .next t) :
    Host.Core.run core (n + 1) s = Host.Core.run core n t := by
  have h' : core.step s = .next t := h
  simp only [Host.Core.run, h']

theorem run_zero (s : State) : Host.Core.run core 0 s = .next s := rfl

end Sys2Proof.Machine
end

