-- ==== Sys2Proof/Laws/Consequences.lean ====
section
/-! SUPPORT. Small consequences the claims share: the bytes of a length, the bits of a byte, what any command leaves, and
the launch premise after a command. -/

namespace Sys2Proof.Machine

/-- A byte of the length field, in numbers (spec/30_encoding.md R71). -/
theorem lengthByte_eq (L : BitVec 32) (t : Nat) :
    lengthByte L t = BitVec.ofNat 8 ((L.toNat >>> (8 * (3 - t))) &&& 0xFF) := by
  apply BitVec.eq_of_toNat_eq
  rw [lengthByte_toNat, BitVec.toNat_ofNat, Nat.shiftRight_eq_div_pow, show (0xFF : Nat) = 2 ^ 8 - 1 from rfl,
    Nat.and_two_pow_sub_one_eq_mod]
  omega

/-- `4 + MSGLEN` fits `FRMLEN` (spec/10_state.md R23). -/
theorem toNat_frameLength (L : BitVec 32) : (BitVec.ofNat 33 (4 + L.toNat)).toNat = 4 + L.toNat :=
  toNat_ofNat_lt (by have := L.isLt; omega)

/-- A complete header is four bytes with values. -/
theorem State.headerLength_cells {s : State} {L : Nat} (h : s.headerLength = some L) :
    ∃ b0 b1 b2 b3, s.frm.read 0 = some b0 ∧ s.frm.read 1 = some b1 ∧ s.frm.read 2 = some b2 ∧
      s.frm.read 3 = some b3 ∧ L = unbe32 b0 b1 b2 b3 := by
  unfold State.headerLength at h
  split at h
  · rename_i b0 b1 b2 b3 h0 h1 h2 h3
    cases h
    exact ⟨b0, b1, b2, b3, h0, h1, h2, h3, rfl⟩
  · cases h

theorem State.headerLength_congr {s s' : State} (h : ∀ a < 4, s'.frm.read a = s.frm.read a) :
    s'.headerLength = s.headerLength := by
  simp only [State.headerLength]
  rw [h 0 (by omega), h 1 (by omega), h 2 (by omega), h 3 (by omega)]

/-- A frame that starts with the bytes of a length announces it. -/
theorem State.headerLength_of_bytes {s : State} {L : BitVec 32} (h : ∀ a < 4, s.frm.read a = some (lengthByte L a)) :
    s.headerLength = some L.toNat := by
  simp only [State.headerLength, h 0 (by omega), h 1 (by omega), h 2 (by omega), h 3 (by omega), unbe32_lengthBytes]

theorem cursorBit_cases (f : Byte) (k : Nat) : cursorBit f k = 0 ∨ cursorBit f k = 1 := by
  rw [cursorBit_eq]
  split <;> simp

theorem fbit_of_read {m : Memory} {k : Nat} {f : Byte} (h : m.read (k / 8) = some f) : m.fbit k = some (cursorBit f k) := by
  simp [Memory.fbit, h]

/-- A byte is fixed by its eight cursor bits. -/
theorem read_eq_of_fbit {m n : Memory} {j : Nat}
    (h : ∀ k, 8 * j ≤ k → k < 8 * j + 8 → m.fbit k = n.fbit k ∧ m.fbit k ≠ none) : m.read j = n.read j := by
  have h' : ∀ k < 8, m.fbit (8 * j + k) = n.fbit (8 * j + k) ∧ m.fbit (8 * j + k) ≠ none :=
    fun k hk => h _ (by omega) (by omega)
  have e : ∀ k < 8, (8 * j + k) / 8 = j := fun k hk => by omega
  unfold Memory.fbit at h'
  have h0 := h' 0 (by omega)
  rw [e 0 (by omega)] at h0
  cases hm : m.read j with
  | none =>
    rw [hm] at h0
    simp at h0
  | some a =>
    cases hn : n.read j with
    | none =>
      rw [hm, hn] at h0
      simp at h0
    | some b =>
      congr 1
      apply BitVec.eq_of_getLsbD_eq
      intro i hi
      have hk := (h' (7 - i) (by omega)).1
      rw [e _ (by omega), hm, hn] at hk
      simp only [Option.map_some, Option.some.injEq] at hk
      have := (cursorBit_eq_iff a b _ _).1 hk
      rwa [show 7 - (8 * j + (7 - i)) % 8 = i by omega] at this

/-- What EXTRACT produces fits `FRM` and `FRMLEN` (R6, spec/42_extractor.md R148). -/
theorem extracted_fits {s : State} (hp : s.params.valid) (hl : s.len .cb ≤ s.cap .cb) :
    usable s.cbLen / 8 ≤ s.cap .frm ∧ usable s.cbLen / 8 < 2 ^ 33 := by
  unfold Config.Params.valid at hp
  simp only [State.len_cb, State.cap, Config.Params.cap, Config.Params.frmCap, Config.lenMax, Config.hdr] at hp hl ⊢
  unfold usable pixels
  have : s.cbLen / 4 ≤ s.params.cbCap / 4 := Nat.div_le_div_right hl
  omega

/-- Only the four command words decode (R79). -/
theorem decode_eq_ok {v : Byte} {i : Instr} : decode v = .ok i ↔ v = encode i := by
  constructor
  · intro h
    have key : ∀ w : Byte, (∃ j, decode w = .ok j) → w = 1 ∨ w = 2 ∨ w = 3 ∨ w = 4 := by
      have : ∀ w : Byte, (decode w = .ok .pack ∨ decode w = .ok .unpack ∨ decode w = .ok .embed ∨ decode w = .ok .extract) →
          w = 1 ∨ w = 2 ∨ w = 3 ∨ w = 4 := by decide
      rintro w ⟨j, hj⟩
      exact this w (by cases j <;> simp [hj])
    rcases key v ⟨i, h⟩ with rfl | rfl | rfl | rfl <;> cases i <;> first | rfl | exact absurd h (by decide)
  · rintro rfl
    exact decode_encode i

/-- Any command issued while idle that answers a next state has completed (R83). -/
theorem exec_completed {i : Instr} {s t : State} (hb : s.busy = false) (h : exec i s = .next t) :
    ∃ e, Completed s e t ∧ t.status = statusWord s.status false true (errCode e) := by
  have C : ∀ (t : State) e, t.status = statusWord s.status false true (errCode e) →
      ∃ e, Completed s e t ∧ t.status = statusWord s.status false true (errCode e) := fun t e h =>
    ⟨e, ⟨by simp [State.busy, h], by simp [State.done, h], by simp [State.err, h], by simp [h]⟩, h⟩
  cases i
  · obtain ⟨v, rfl, -⟩ := exec_pack_next hb h
    exact C _ none rfl
  · rcases exec_unpack_next hb h with ⟨-, rfl⟩ | ⟨-, L, -, -, rfl⟩ | ⟨-, L, -, -, v, rfl, -⟩
    · exact C _ (some .format) rfl
    · exact C _ (some .format) rfl
    · exact C _ none rfl
  · rcases exec_embed_next hb h with ⟨-, rfl⟩ | ⟨-, -, rfl⟩ | ⟨-, -, v, rfl, -⟩
    · exact C _ (some .inputShape) rfl
    · exact C _ (some .capacity) rfl
    · exact C _ none rfl
  · rcases exec_extract_next hb h with ⟨-, rfl⟩ | ⟨-, v, left, rfl, -⟩
    · exact C _ (some .inputShape) rfl
    · exact C _ none rfl

/-- The length registers stay within the capacities (R24). -/
theorem exec_lengths {i : Instr} {s t : State} (hr : Ready i s) (h : exec i s = .next t) : ∀ m, t.len m ≤ t.cap m := by
  have hl := hr.lengths
  have hcap : s.cap .frm = s.cap .msg + 4 := rfl
  cases i
  · obtain ⟨v, rfl, -⟩ := exec_pack_next hr.idle h
    intro m
    cases m
    · exact hl .cb
    · exact hl .msg
    · have := hl .msg
      simp only [State.len_frm, toNat_frameLength]
      change _ ≤ s.cap .frm
      simp only [State.len_msg] at this
      omega
  · rcases exec_unpack_next hr.idle h with ⟨-, rfl⟩ | ⟨-, L, -, -, rfl⟩ | ⟨-, L, hL, hle, v, rfl, -⟩
    · exact hl
    · exact hl
    · intro m
      cases m
      · exact hl .cb
      · have := hl .frm
        simp only [State.len_msg, toNat_ofNat_lt (State.headerLength_lt hL)]
        change _ ≤ s.cap .msg
        simp only [State.len_frm] at this
        omega
      · exact hl .frm
  · rcases exec_embed_next hr.idle h with ⟨-, rfl⟩ | ⟨-, -, rfl⟩ | ⟨-, -, v, rfl, -⟩ <;> exact hl
  · rcases exec_extract_next hr.idle h with ⟨-, rfl⟩ | ⟨-, v, left, rfl, -⟩
    · exact hl
    · obtain ⟨h1, h2⟩ := extracted_fits hr.params (hl .cb)
      intro m
      cases m
      · exact hl .cb
      · exact hl .msg
      · simp only [State.len_frm, toNat_ofNat_lt h2]
        exact h1

/-- The launch premise only looks at the input memories and their lengths (R35). -/
theorem State.inputsWritten_congr {s t : State} {i : Instr} (hw : s.inputsWritten i = true)
    (h : ∀ m ∈ inputsOf i, t.mem m = s.mem m ∧ t.len m = s.len m) : t.inputsWritten i = true := by
  unfold State.inputsWritten at hw ⊢
  refine List.all_eq_true.2 fun m hm => ?_
  rw [(h m hm).1, (h m hm).2]
  exact (List.all_eq_true.1 hw) m hm

/-- On canonical memories the launch premise is that every input cell has a value (R35). -/
theorem State.inputsWritten_of_read {s : State} {i : Instr} (hwf : ∀ m ∈ inputsOf i, (s.mem m).wf = true)
    (h : ∀ m ∈ inputsOf i, ∀ a < s.len m, (s.mem m).read a ≠ none) : s.inputsWritten i = true :=
  List.all_eq_true.2 fun m hm =>
    (Memory.written_iff (hwf m hm)).2 fun a ha => Option.isSome_iff_ne_none.2 (h m hm a ha)

/-- A write leaves every written cell written (R35). -/
theorem Memory.written_write {m : Memory} {n a : Nat} {b : Byte} (hm : m.wf = true) (h : m.written n = true) :
    (m.write a b).written n = true := by
  rw [Memory.written_iff (Memory.wf_write a b hm)]
  rw [Memory.written_iff hm] at h
  intro x hx
  rw [Memory.read_write]
  split
  · rfl
  · exact h x hx

/-- A store below the capacity answers. -/
theorem State.storeByte_of_lt {s : State} {m : MemId} {a : Nat} (b : Byte) (h : a < s.cap m) :
    s.storeByte m a b = .ok (s.setMem m ((s.mem m).write a b)) :=
  State.storeByte_eq_ok.2 ⟨h, rfl⟩

end Sys2Proof.Machine
end

