-- ==== Sys2Proof/Laws/HostMoves.lean ====
section
/-! SUPPORT. What each host move answers (spec/20_memory.md R62, R63): one lemma for each way it can go. -/

namespace Sys2Proof.Machine

variable {s : State} {m : MemId} {a n : Nat} {v : Byte}

theorem hostMove_writeByte (hb : s.busy = false) (ha : a < s.cap m) :
    hostMove (.writeByte m a v) s = .next (s.setMem m ((s.mem m).write a v)) := by
  have : indexInRange s.params m a = true := decide_eq_true ha
  simp [hostMove, hb, this]

theorem hostMove_writeByte_beyond (hb : s.busy = false) (ha : s.cap m ≤ a) :
    hostMove (.writeByte m a v) s = .refused .indexAboveCapacity := by
  have : indexInRange s.params m a = false := decide_eq_false (Nat.not_lt.2 ha)
  simp [hostMove, hb, this]

theorem hostMove_readByte (hb : s.busy = false) (ha : a < s.cap m) :
    hostMove (.readByte m a) s = .next { s with hostData := some (.byte (s.cellForHost m a)) } := by
  have : indexInRange s.params m a = true := decide_eq_true ha
  simp [hostMove, hb, this]

theorem hostMove_readByte_beyond (hb : s.busy = false) (ha : s.cap m ≤ a) :
    hostMove (.readByte m a) s = .refused .indexAboveCapacity := by
  have : indexInRange s.params m a = false := decide_eq_false (Nat.not_lt.2 ha)
  simp [hostMove, hb, this]

theorem hostMove_writeLen (hb : s.busy = false) (hn : n ≤ s.cap m) :
    hostMove (.writeLen m n) s = .next (s.setLen m n) := by
  have : lengthInRange s.params m n = true := decide_eq_true hn
  simp [hostMove, hb, this]

theorem hostMove_writeLen_beyond (hb : s.busy = false) (hn : s.cap m < n) :
    hostMove (.writeLen m n) s = .refused .lengthAboveCapacity := by
  have : lengthInRange s.params m n = false := decide_eq_false (Nat.not_le.2 hn)
  simp [hostMove, hb, this]

theorem hostMove_readLen (hb : s.busy = false) :
    hostMove (.readLen m) s = .next { s with hostData := some (.length (s.len m)) } := by simp [hostMove, hb]

theorem hostMove_writeCtrl (hb : s.busy = false) : hostMove (.writeCtrl v) s = .next { s with ctrl := ctrlWritten v } := by
  simp [hostMove, hb]

theorem hostMove_readCtrl (hb : s.busy = false) :
    hostMove .readCtrl s = .next { s with hostData := some (.byte s.ctrl) } := by simp [hostMove, hb]

theorem hostMove_readStatus : hostMove .readStatus s = .next { s with hostStatus := some s.status } := rfl

theorem hostMove_reset : hostMove .reset s = .next s.resetBlock := rfl

/-- A write of `CMD` while idle is the launch when the inputs were written (R80, R35). -/
theorem hostMove_writeCmd (hb : s.busy = false) (hi : ∀ i, decode v = .ok i → s.inputsWritten i = true) :
    hostMove (.writeCmd v) s = .next (s.launch v) := by
  simp only [hostMove, hb, Bool.false_eq_true, if_false, launchMove]
  split
  · rfl
  · rename_i i h
    rw [if_pos (hi i h)]

/-- While busy every move but `Reset` leaves the block as it is (R63). -/
theorem hostMove_busy {c : HostMove} (hb : s.busy = true) (hc : c ≠ .reset) :
    ∃ d w k, hostMove c s = .next { s with hostData := d, hostStatus := w, draws := k } := by
  cases c with
  | writeByte m a v => exact ⟨s.hostData, s.hostStatus, s.draws, by simp only [hostMove, hb, if_true]⟩
  | readByte m a => exact ⟨_, s.hostStatus, _, by simp only [hostMove, hb, if_true, State.answerBusy]; rfl⟩
  | writeLen m n => exact ⟨s.hostData, s.hostStatus, s.draws, by simp only [hostMove, hb, if_true]⟩
  | readLen m => exact ⟨_, s.hostStatus, _, by simp only [hostMove, hb, if_true, State.answerBusy]; rfl⟩
  | writeCtrl v => exact ⟨s.hostData, s.hostStatus, s.draws, by simp only [hostMove, hb, if_true]⟩
  | readCtrl => exact ⟨_, s.hostStatus, _, by simp only [hostMove, hb, if_true, State.answerBusy]; rfl⟩
  | readStatus => exact ⟨s.hostData, _, s.draws, rfl⟩
  | writeCmd v => exact ⟨s.hostData, s.hostStatus, s.draws, by simp only [hostMove, hb, if_true]⟩
  | reset => exact absurd rfl hc

end Sys2Proof.Machine
end

