-- ==== Sys2Proof/Laws/PerInstr.lean ====
section
/-! SUPPORT. Statements about every command as syntax, one lemma for each constructor. -/

namespace Sys2Proof.Laws

/-- A command's word: `ZERO` clear, `OP` the code of the opcode map, not the reserved all-zero word, and decoded back to the
command (spec/30_encoding.md R78, R79, R81). -/
def Encoding.Statement (i : Instr) : Prop :=
  i.wellFormed = true ∧ zeroField (encode i) = 0 ∧ opField (encode i) = opcodeOf i ∧ encode i ≠ 0x00 ∧
    decode (encode i) = .ok i ∧ decodeTableWord 8 (encode i).toNat = some i

theorem Encoding.pack : Encoding.Statement .pack := ⟨rfl, rfl, rfl, by decide, rfl, rfl⟩
theorem Encoding.unpack : Encoding.Statement .unpack := ⟨rfl, rfl, rfl, by decide, rfl, rfl⟩
theorem Encoding.embed : Encoding.Statement .embed := ⟨rfl, rfl, rfl, by decide, rfl, rfl⟩
theorem Encoding.extract : Encoding.Statement .extract := ⟨rfl, rfl, rfl, by decide, rfl, rfl⟩

end Sys2Proof.Laws
end

