-- ==== Sys2Proof/Laws/Programs.lean ====
section
/-! SUPPORT. Runs of the host's schedule: a command line, two commands with `IFERR stop` between them, and the wait for
`DONE` (spec/30_encoding.md R86, R88). -/

namespace Sys2Proof.Machine

/-- An engine step leaves the host's side alone. -/
theorem engineStep_host {s t : State} (h : engineStep s = .next t) :
    t = t.withHostSide s.host s.hostData s.hostStatus s.epoch s.draws := by
  have := engineStep_withHostSide s.host s.hostData s.hostStatus s.epoch s.draws h
  have e : s.withHostSide s.host s.hostData s.hostStatus s.epoch s.draws = s := rfl
  rw [e, h] at this
  exact Host.Outcome.next.inj this

/-- A command leaves the host's side alone. -/
theorem exec_host {i : Instr} {s t : State} (h : exec i s = .next t) :
    t = t.withHostSide s.host s.hostData s.hostStatus s.epoch s.draws := by
  have := exec_withHostSide s.host s.hostData s.hostStatus s.epoch s.draws h
  have e : s.withHostSide s.host s.hostData s.hostStatus s.epoch s.draws = s := rfl
  rw [e, h] at this
  exact Host.Outcome.next.inj this

/-- The same command under another schedule. -/
theorem exec_at {i : Instr} {s t : State} (h : exec i s = .next t) (rest : List HostAction) :
    exec i { s with host := rest } = .next { t with host := rest } := by
  refine (exec_withHostSide rest s.hostData s.hostStatus s.epoch s.draws h).trans ?_
  rw [exec_host h]
  rfl

theorem ready_withHostSide {i : Instr} {s : State} (h : Ready i s) (a : List HostAction) (b : Option HostValue)
    (c : Option Byte) (d e : Nat) : Ready i (s.withHostSide a b c d e) :=
  ⟨h.idle, h.params, fun m => by cases m <;> first | exact h.lengths .cb | exact h.lengths .msg | exact h.lengths .frm,
    by have := h.inputs; cases i <;> exact this⟩

/-- The wait ends when `DONE = 1` (R86). -/
theorem step_await_done {s : State} {rest : List HostAction} (hs : s.host = .await :: rest) (hd : s.done = true) :
    step s = .next { s with host := rest, hostStatus := some s.status } := by
  rw [step_await hs]
  unfold awaitDone
  have : ({ s with host := rest } : State).done = true := hd
  rw [this]
  rfl

/-- Until then a step of the wait is the engine's (R86). -/
theorem step_await_engine {s t : State} {rest : List HostAction} (hs : s.host = .await :: rest) (hd : s.done = false)
    (he : engineStep s = .next t) : step s = .next t := by
  have hd' : ({ s with host := rest } : State).done = false := hd
  have he' : engineStep { s with host := rest } = .next { t with host := rest } := by
    refine (engineStep_withHostSide rest s.hostData s.hostStatus s.epoch s.draws he).trans ?_
    rw [engineStep_host he]
    rfl
  rw [step_await hs]
  unfold awaitDone
  rw [hd', he']
  simp only [Bool.false_eq_true, if_false]
  rw [engineStep_host he, ← hs]
  rfl

/-- The wait follows the engine as long as the command is not done (R86). -/
theorem run_await {n : Nat} {s t : State} {rest : List HostAction} (hs : s.host = .await :: rest)
    (hrun : runEngine n s = .next t) (hnd : ∀ m < n, ∀ u, runEngine m s = .next u → u.done = false) :
    Host.Core.run core n s = .next t := by
  induction n generalizing s with
  | zero => exact hrun
  | succ n ih =>
    have hd := hnd 0 (by omega) s rfl
    cases he : engineStep s with
    | next u =>
      have hu := engineStep_host he
      rw [runEngine_cons he] at hrun
      rw [run_succ (step_await_engine hs hd he)]
      exact ih (by rw [hu]; exact hs) hrun fun m hm v hv => hnd (m + 1) (by omega) v (by rw [runEngine_cons he]; exact hv)
    | fault f =>
      simp only [runEngine, he] at hrun
      cases hrun
    | refused f =>
      simp only [runEngine, he] at hrun
      cases hrun

/-- Runs compose. -/
theorem run_add {m n : Nat} {s t : State} (h : Host.Core.run core m s = .next t) :
    Host.Core.run core (m + n) s = Host.Core.run core n t := by
  induction m generalizing s with
  | zero =>
    cases h
    rw [Nat.zero_add]
  | succ m ih =>
    rw [Nat.succ_add]
    simp only [Host.Core.run] at h ⊢
    cases hs : core.step s with
    | next u => rw [hs] at h; exact ih h
    | fault f => rw [hs] at h; cases h
    | refused f => rw [hs] at h; cases h

/-- A command line is two steps (R86). -/
theorem run_command {i : Instr} {s t : State} {rest : List HostAction} (hb : s.busy = false)
    (hs : s.host = .run (encode i) :: .await :: rest) (h : exec i s = .next t) :
    Host.Core.run core 2 s = .next { t with host := rest, hostStatus := some t.status } := by
  have h1 : step s = .next { t with host := .await :: rest } := by
    rw [step_run hs (decode_encode i)]
    exact exec_at h _
  obtain ⟨e, hc, -⟩ := exec_completed hb h
  rw [run_succ h1, run_succ (step_await_done (s := { t with host := .await :: rest }) rfl hc.done)]
  rfl

/-- Two commands, the first without an error: five steps to the second's result (R88). -/
theorem run_pair_ok {i j : Instr} {s t u : State} (hb : s.busy = false) (hs : s.host = pairActions i j)
    (h : exec i s = .next t) (he : t.err = 0) (h2 : exec j t = .next u) :
    Host.Core.run core 5 s = .next { u with host := [], hostStatus := some u.status } := by
  obtain ⟨e, hc, -⟩ := exec_completed hb h
  have r2 := run_command (rest := .ifErrSkip 2 :: commandActions (encode j)) hb hs h
  rw [show 5 = 2 + 3 from rfl, run_add r2]
  have h3 : step { t with host := .ifErrSkip 2 :: commandActions (encode j), hostStatus := some t.status } =
      .next { t with host := commandActions (encode j), hostStatus := some t.status } := by
    rw [step_ifErrSkip rfl]
    unfold ifErrSkip State.lastStatusError
    have : errField t.status = 0 := he
    simp [this]
  rw [show 3 = 2 + 1 from rfl, run_succ h3]
  have h4 := exec_withHostSide (commandActions (encode j)) t.hostData (some t.status) t.epoch t.draws h2
  refine (run_command (rest := []) (s := { t with host := commandActions (encode j), hostStatus := some t.status })
    hc.busy rfl h4).trans ?_
  rw [exec_host h2]
  rfl

/-- Two commands, the first with an error: the second is not issued (R88). -/
theorem run_pair_error {i j : Instr} {s t : State} (hb : s.busy = false) (hs : s.host = pairActions i j)
    (h : exec i s = .next t) (he : t.err ≠ 0) :
    Host.Core.run core 5 s = .next { t with host := [], hostStatus := some t.status } := by
  obtain ⟨e, hc, -⟩ := exec_completed hb h
  have r2 := run_command (rest := .ifErrSkip 2 :: commandActions (encode j)) hb hs h
  rw [show 5 = 2 + 3 from rfl, run_add r2]
  have h3 : step { t with host := .ifErrSkip 2 :: commandActions (encode j), hostStatus := some t.status } =
      .next { t with host := [], hostStatus := some t.status } := by
    rw [step_ifErrSkip rfl]
    unfold ifErrSkip State.lastStatusError
    have : (errField t.status != 0) = true := bne_iff_ne.2 he
    simp only [this, if_true]
    rfl
  have h4 : step { t with host := [], hostStatus := some t.status } = .next { t with host := [], hostStatus := some t.status } := by
    rw [step_nil rfl]
    exact engineStep_idle hc.busy
  rw [show 3 = 2 + 1 from rfl, run_succ h3, run_succ h4, run_succ h4]
  rfl

end Sys2Proof.Machine
end

