-- ==== Sys2Proof/Tests/Slice0.lean ====
section
/-! SUPPORT. Tests: words written out from the spec's encoding, ill-formed moves and lines the check refuses, one step of
each command on the vectors of spec/95_test_vectors.md, and for every obligation with hypotheses a state that meets them. -/

namespace Sys2Proof.Tests
open Sys2Proof Sys2Proof.Machine

/-! ### Helpers -/

/-- Consecutive bytes from index `a` on. -/
def bytesFrom (a : Nat) : List Byte → Memory
  | [] => []
  | b :: t => (a, b) :: bytesFrom (a + 1) t

/-- The first `n` cells. -/
def cells (m : Memory) (n : Nat) : List (Option Byte) := (List.range n).map m.read

/-- The outcome is a next state that satisfies `p`. -/
def nextIs (o : Host.Outcome State Fault Refusal) (p : State → Bool) : Bool :=
  match o with
  | .next s => p s
  | .fault _ => false
  | .refused _ => false

/-- The outcome is this refusal. -/
def refusedBy (o : Host.Outcome State Fault Refusal) (r : Refusal) : Bool :=
  match o with
  | .next _ => false
  | .fault _ => false
  | .refused q => decide (q = r)

/-! ### Decoding: words written out bit by bit from the fields of R78 and the map of R79 -/

theorem test_decode_pack : decode (0b00000#5 ++ 0b001#3) = .ok .pack := by rfl
theorem test_decode_unpack : decode (0b00000#5 ++ 0b010#3) = .ok .unpack := by rfl
theorem test_decode_embed : decode (0b00000#5 ++ 0b011#3) = .ok .embed := by rfl
theorem test_decode_extract : decode (0b00000#5 ++ 0b100#3) = .ok .extract := by rfl
/-- Vector HP3: `0x09` has `OP = 1` but `ZERO ≠ 0`. -/
theorem test_decode_zero_set : decode (0b00001#5 ++ 0b001#3) = .error .zeroFieldSet := by rfl
/-- Vector HP2. -/
theorem test_decode_all_zero : decode 0x00 = .error .reservedOp := by rfl
theorem test_decode_table_extract : decodeTableWord 8 0x04 = some .extract := by decide
theorem test_fetch_first : nextIs (step (State.reset.withFetchWord 8 0x03)) (fun t => t.status == 0x02) = true := by decide

/-! ### Well-formedness: what the check refuses -/

theorem test_wf_index : HostMove.wellFormed ⟨8, 2⟩ (.writeByte .cb 8 0) = false := by decide
theorem test_wf_read_index : HostMove.wellFormed ⟨8, 2⟩ (.readByte .frm 6) = false := by decide
/-- Vector HP10. -/
theorem test_wf_length : HostMove.wellFormed ⟨8, 2⟩ (.writeLen .cb 9) = false := by decide
theorem test_wf_load : Line.wellFormed ⟨8, 2⟩ (.load .msg [1, 2, 3]) = false := by decide
theorem test_wf_fill : Line.wellFormed ⟨8, 2⟩ (.fill .cb 9 0) = false := by decide
theorem test_wf_wrLen : Line.wellFormed ⟨8, 2⟩ (.wrLen .frm 7) = false := by decide
theorem test_wf_edges : HostMove.wellFormed ⟨8, 2⟩ (.writeByte .cb 7 0) = true ∧
    HostMove.wellFormed ⟨8, 2⟩ (.writeLen .frm 6) = true := by decide

/-! ### One step of each command -/

/-- Vector F2. -/
theorem test_pack_hi : nextIs (exec .pack { State.reset with msg := bytesFrom 0 [0x48, 0x69], msgLen := 2 })
    (fun t => t.status == 0x02 && t.frmLen == 6 &&
      cells t.frm 6 == [some 0x00, some 0x00, some 0x00, some 0x02, some 0x48, some 0x69]) = true := by decide +kernel

/-- Vector F5. -/
theorem test_pack_keeps_tail : nextIs (exec .pack { State.reset with
      msg := bytesFrom 0 [0x41], msgLen := 1
      frm := bytesFrom 0 [0x11, 0x22, 0x33, 0x44, 0x55, 0x66, 0x77, 0x88], frmLen := 8 })
    (fun t => t.frmLen == 5 && cells t.frm 8 ==
      [some 0x00, some 0x00, some 0x00, some 0x01, some 0x41, some 0x66, some 0x77, some 0x88]) = true := by decide +kernel

/-- Vector F12. -/
theorem test_unpack_no_wrap : nextIs (exec .unpack { State.reset with
      frm := bytesFrom 0 [0xFF, 0xFF, 0xFF, 0xFF, 0x01, 0x02], frmLen := 6
      msg := bytesFrom 0 [0x99, 0x98], msgLen := 2 })
    (fun t => t.status == 0x0A && t.msgLen == 2 && cells t.msg 3 == [some 0x99, some 0x98, none]) = true := by decide +kernel

/-- Vectors F11 and F15. -/
theorem test_unpack_ignores_tail : nextIs (exec .unpack { State.reset with
      frm := bytesFrom 0 [0x00, 0x00, 0x00, 0x02, 0x48, 0x69, 0xAA, 0xBB], frmLen := 8
      msg := bytesFrom 0 [0x99, 0x98, 0x97, 0x96], msgLen := 4 })
    (fun t => t.status == 0x02 && t.msgLen == 2 &&
      cells t.msg 4 == [some 0x48, some 0x69, some 0x97, some 0x96]) = true := by decide +kernel

/-- Vector E1. -/
theorem test_embed_a5 : nextIs (exec .embed { State.reset with
      frm := bytesFrom 0 [0xA5], frmLen := 1
      cb := bytesFrom 0 [0x10, 0x11, 0x12, 0x13, 0x14, 0x15, 0x16, 0x17, 0x18, 0x19, 0x1A, 0x1B], cbLen := 12 })
    (fun t => t.status == 0x02 && t.cb ==
      bytesFrom 0 [0x11, 0x10, 0x13, 0x13, 0x14, 0x14, 0x17, 0x17, 0x18, 0x19, 0x1A, 0x1B]) = true := by decide +kernel

/-- Vector E5 in small: the shape error comes before the capacity error (R175). -/
theorem test_embed_priority : nextIs (exec .embed { State.reset with
      frm := bytesFrom 0 [0xA5, 0xA5], frmLen := 2, cb := bytesFrom 0 [0x10, 0x11, 0x12], cbLen := 3 })
    (fun t => t.status == 0x0E && t.cb == bytesFrom 0 [0x10, 0x11, 0x12]) = true := by decide +kernel

/-- Vector X1. -/
theorem test_extract_b9 : nextIs (exec .extract { State.reset with
      cb := bytesFrom 0 [0x01, 0x00, 0x01, 0x09, 0x01, 0x01, 0x00, 0x09, 0x00, 0x01, 0x01, 0x09], cbLen := 12 })
    (fun t => t.status == 0x02 && t.frmLen == 1 && t.frm == [(0, 0xB9)]) = true := by decide +kernel

/-- Vector X8 in small. -/
theorem test_extract_shape : nextIs (exec .extract { State.reset with
      cb := bytesFrom 0 [0xFF, 0xFF, 0xFF], cbLen := 3, frm := [(0, 0x77)], frmLen := 1 })
    (fun t => t.status == 0x0E && t.frmLen == 1 && t.frm == [(0, 0x77)]) = true := by decide +kernel

/-- Vector HP2. -/
theorem test_illegal_word : nextIs (step { State.reset with host := [.run 0x00] }) (fun t => t.status == 0x12) = true := by
  decide

/-- Vector HP7. -/
theorem test_ctrl_write : nextIs (step { State.reset with host := [.move (.writeCtrl 0xFF)] })
    (fun t => t.ctrl == 0x01) = true := by decide

/-- Vector HP10: a length above the capacity is refused. -/
theorem test_length_refused : refusedBy (step { State.reset with host := [.move (.writeLen .cb (2 ^ 35 + 1))] })
    .lengthAboveCapacity = true := by decide

/-- R35: a launch over a cell nothing wrote is refused. -/
theorem test_unwritten_refused : refusedBy (exec .pack { State.reset with msgLen := 1 }) .inputCellUnwritten = true := by
  decide

/-! ### A state that every command can run from, and variants of it -/

/-- A 16-pixel buffer, a payload of two bytes and the frame of "A". -/
def demo : State := { State.reset with
  cb := bytesFrom 0 (List.replicate 64 0x7F), cbLen := 64
  msg := bytesFrom 0 [0x48, 0x69], msgLen := 2
  frm := bytesFrom 0 [0x00, 0x00, 0x00, 0x01, 0x41], frmLen := 5 }

theorem demo_wf (m : MemId) : (demo.mem m).wf = true := by cases m <;> decide +kernel

theorem demo_lengths (m : MemId) : demo.len m ≤ demo.cap m := by cases m <;> decide +kernel

/-- Every command can be launched from `demo`. -/
theorem witness_ready (i : Instr) : Ready i demo :=
  ⟨by decide, by decide, demo_lengths, by cases i <;> decide +kernel⟩

/-- The premises of a launch hold in any variant of `demo` that is idle and has its inputs. -/
theorem ready_of {i : Instr} {s : State} (hp : s.params = resetParams) (hb : s.busy = false)
    (hl : ∀ m, s.len m ≤ resetParams.cap m) (hi : s.inputsWritten i = true) : Ready i s :=
  ⟨hb, by rw [hp]; decide, fun m => by unfold State.cap; rw [hp]; exact hl m, hi⟩

theorem within_bytesFrom {n a : Nat} {l : List Byte} (h : a + l.length ≤ n) : ∀ c ∈ bytesFrom a l, c.1 < n := by
  induction l generalizing a with
  | nil => simp [bytesFrom]
  | cons b t ih =>
    intro c hc
    simp only [List.length_cons] at h
    rcases List.mem_cons.1 hc with rfl | hc
    · simp only
      omega
    · exact ih (by omega) c hc

theorem demo_within (m : MemId) : ∀ c ∈ demo.mem m, c.1 < demo.cap m := by
  cases m <;> exact within_bytesFrom (by decide)

theorem witness_invariant : Invariant demo where
  params := by decide
  canonical := demo_wf
  within := demo_within
  lengths := demo_lengths
  ctrlReserved := by decide
  statusReserved := by decide
  errLegal := by decide
  busyNotDone := by decide
  errDone := by decide
  engine h := absurd h (by decide)

/-- A busy state that meets the invariant: PACK right after its launch. -/
theorem witness_invariant_busy : Invariant (demo.launch 0x01) ∧ (demo.launch 0x01).busy = true where
  left :=
    { params := by decide
      canonical := fun m => by cases m <;> decide +kernel
      within := fun m => by cases m <;> exact within_bytesFrom (by decide)
      lengths := fun m => by cases m <;> decide +kernel
      ctrlReserved := by decide
      statusReserved := by decide
      errLegal := by decide
      busyNotDone := by decide
      errDone := by decide
      engine := fun _ => .inr ⟨by decide +kernel, .inl ⟨0, rfl, rfl⟩⟩ }
  right := by decide

/-- A busy state in the middle of EMBED's data steps that meets the invariant. -/
theorem witness_invariant_embed : Invariant { demo.launch 0x03 with phase := .data, slot := 3, cur := 3 } where
  params := by decide
  canonical := fun m => by cases m <;> decide +kernel
  within := fun m => by cases m <;> exact within_bytesFrom (by decide)
  lengths := fun m => by cases m <;> decide +kernel
  ctrlReserved := by decide
  statusReserved := by decide
  errLegal := by decide
  busyNotDone := by decide
  errDone := by decide
  engine := fun _ => .inr ⟨by decide +kernel, rfl, .inr ⟨rfl, by decide, by decide, by decide, fun _ => by decide⟩⟩

/-! ### Witnesses: every statement's hypotheses can be met -/

theorem witness_ResetMoveClearsTheBlock :
    ∃ (s : State) (rest : List HostAction), s.host = .move .reset :: rest ∧ s.busy = true :=
  ⟨{ demo.launch 0x03 with host := [.move .reset] }, [], rfl, by decide⟩

theorem witness_EveryStepKeepsTheInvariant : ∃ s t, Invariant s ∧ step s = .next t := ⟨demo, demo, witness_invariant, rfl⟩

theorem witness_NoStepFaultsUnderTheInvariant : ∃ s, Invariant s := ⟨demo, witness_invariant⟩

theorem witness_EveryCommandCompletes : ∃ s, Invariant s ∧ s.busy = true := ⟨_, witness_invariant_busy⟩

theorem witness_CommandsNeverWriteControlOrBufferLength (i : Instr) :
    (∃ t, exec i demo = .next t) ∧ ∃ t, engineStep demo = .next t := ⟨exec_total (witness_ready i), _, rfl⟩

theorem witness_OnlyTheHostWritesAlpha : ∃ s t, step s = .next t ∧
    (∀ a v, s.host.head? ≠ some (.move (.writeByte .cb a v))) ∧ s.host.head? ≠ some (.move .reset) :=
  ⟨demo, demo, rfl, fun _ _ => by simp [demo, State.reset], by simp [demo, State.reset]⟩

/-- The edges of the ranges of R62: the last index of each memory, and a length equal to the capacity. -/
theorem witness_HostMovesActAsTabled : demo.busy = false ∧ (2 ^ 35 - 1 < demo.cap .cb) ∧ (2 ^ 32 - 2 < demo.cap .msg) ∧
    (2 ^ 32 + 2 < demo.cap .frm) ∧ demo.params.valid ∧ (2 ^ 32 + 3 ≤ demo.cap .frm) ∧
    ∀ i, decode (0x01 : Byte) = .ok i → demo.inputsWritten i = true := by
  refine ⟨by decide, by decide, by decide, by decide, by decide, by decide, fun i h => ?_⟩
  exact (witness_ready i).inputs

theorem witness_HostMovesWhileBusyChangeNothing : ∃ s : State, s.busy = true ∧ HostMove.writeCmd 0x01 ≠ .reset :=
  ⟨demo.launch 0x01, by decide, by decide⟩

/-- The first refused values. -/
theorem witness_MovesBeyondTheCapacityAreRefused : demo.busy = false ∧ demo.cap .cb < 2 ^ 35 + 1 ∧ demo.cap .cb ≤ 2 ^ 35 ∧
    demo.cap .frm < 2 ^ 32 + 4 ∧ demo.cap .frm ≤ 2 ^ 32 + 3 := by decide

theorem witness_ReadingTwiceReturnsTheSameByte : demo.busy = false ∧ 2 ^ 35 - 1 < demo.cap .cb ∧
    demo.cb.read (2 ^ 35 - 1) = none ∧ 0 < demo.cap .cb := by
  refine ⟨by decide, by decide, by decide +kernel, by decide⟩

theorem witness_LengthWritesKeepTheCells : demo.busy = false ∧ demo.host = [] ∧ 0 ≤ demo.cap .msg ∧
    2 ^ 32 - 1 ≤ demo.cap .msg ∧ demo.params.valid := by decide

/-- The two ends of the reserved range, and the all-zero word. -/
theorem witness_ReservedWordsCompleteWithIllegalCommand : ∃ s : State, s.busy = false ∧ s.host = [.run 0x05] ∧
    5 ≤ (0x05 : Byte).toNat ∧ 5 ≤ (0xFF : Byte).toNat := ⟨{ demo with host := [.run 0x05] }, by decide⟩

/-- A legal word, and an illegal one. -/
theorem witness_LaunchSetsTheEngineUp :
    (∃ s : State, s.busy = false ∧ s.host = [.move (.writeCmd 0x01)] ∧ ∀ i, decode (0x01 : Byte) = .ok i → Ready i s) ∧
      ∃ s : State, s.busy = false ∧ s.host = [.move (.writeCmd 0x09)] ∧ ∃ r, decode (0x09 : Byte) = .error r :=
  ⟨⟨{ demo with host := [.move (.writeCmd 0x01)] }, by decide, rfl,
      fun i _ => ready_withHostSide (witness_ready i) _ _ _ _ _⟩,
    { demo with host := [.move (.writeCmd 0x09)] }, by decide, rfl, .zeroFieldSet, rfl⟩

theorem witness_AStepRunsTheDecodedCommand : ∃ s : State, Instr.wellFormed .embed = true ∧ s.host = [.run 0x03] ∧
    decode 0x03 = .ok .embed ∧ demo.busy = false := ⟨{ demo with host := [.run 0x03] }, rfl, rfl, rfl, by decide⟩

theorem witness_AStepWithoutHostActionIsTheEngines : demo.host = [] ∧ demo.busy = false := by decide

/-- A launch over an unwritten cell, and one over written cells only. -/
theorem witness_UnwrittenInputsAreRefused :
    (∃ s : State, s.busy = false ∧ ∃ m ∈ inputsOf .pack, ∃ a < s.len m, (s.mem m).read a = none) ∧
      (∀ m, (demo.mem m).wf = true) ∧ ∀ m ∈ inputsOf .pack, ∀ a < demo.len m, (demo.mem m).read a ≠ none := by
  refine ⟨⟨{ demo with msgLen := 3 }, by decide, .msg, by decide, 2, by decide, by decide⟩, demo_wf, fun m hm a ha => ?_⟩
  obtain ⟨b, hb⟩ := State.inputsWritten_read (witness_ready .pack).inputs hm ha
  simp [hb]

theorem witness_PackFramesThePayload : ∃ s, Ready .pack s ∧ 1 < s.msgLen.toNat ∧ s.frm.read 6 = none :=
  ⟨demo, witness_ready .pack, by decide, by decide⟩

theorem witness_PackHeaderReadsBack : ∃ s, Ready .pack s := ⟨demo, witness_ready .pack⟩

theorem witness_PackFrame : ∃ s t, exec .pack s = .next t := ⟨demo, exec_total (witness_ready .pack)⟩

/-- A short header, a length beyond the frame, and a good frame. -/
theorem witness_UnpackChecksThenCopies :
    (∃ s, Ready .unpack s ∧ s.frmLen.toNat < 4) ∧
      (∃ s, Ready .unpack s ∧ 4 ≤ s.frmLen.toNat ∧ ∃ L, s.headerLength = some L ∧ 4 + L > s.frmLen.toNat) ∧
      ∃ s, Ready .unpack s ∧ 4 ≤ s.frmLen.toNat ∧ ∃ L, s.headerLength = some L ∧ 4 + L ≤ s.frmLen.toNat :=
  ⟨⟨{ demo with frmLen := 3 }, ready_of rfl (by decide) (fun m => by cases m <;> decide +kernel) (by decide +kernel), by decide⟩,
    ⟨{ demo with frmLen := 4 }, ready_of rfl (by decide) (fun m => by cases m <;> decide +kernel) (by decide +kernel),
      by decide, 1, by decide, by decide⟩,
    demo, witness_ready .unpack, by decide, 1, by decide, by decide⟩

theorem witness_FormatErrorExactly : ∃ s, Ready .unpack s := ⟨demo, witness_ready .unpack⟩

/-- A good frame, whose cells from the announced length on are kept, and a bad one. -/
theorem witness_UnpackFrame : (∃ s t, exec .unpack s = .next t ∧ ∀ L, s.headerLength = some L → L ≤ 1) ∧
    ∃ s t, exec .unpack s = .next t ∧ s.frameBad ∧ s.frmLen.toNat < 4 :=
  ⟨⟨demo, (exec_total (witness_ready .unpack)).imp fun _ h => ⟨h, by
      have : demo.headerLength = some 1 := by decide
      intro L hL
      rw [this] at hL
      cases hL
      exact Nat.le_refl 1⟩⟩,
    { demo with frmLen := 3 }, (exec_total (ready_of rfl (by decide) (fun m => by cases m <;> decide +kernel)
      (by decide +kernel))).imp fun _ h => ⟨h, .inl (by decide), by decide⟩⟩

/-- UNPACK can be launched right after PACK. -/
theorem ready_unpack_of_pack {s t : State} (hr : Ready .pack s) (hw : s.frm.wf = true) (h : exec .pack s = .next t) :
    Ready .unpack t := by
  obtain ⟨e, hc, -⟩ := exec_completed hr.idle h
  have hl := exec_lengths hr h
  obtain ⟨v, rfl, hv, -, hx⟩ := exec_pack_next hr.idle h
  refine ⟨hc.busy, hr.params, hl, State.inputsWritten_of_read (fun m hm => ?_) fun m hm a ha => ?_⟩
  · simp only [inputsOf, List.mem_singleton] at hm
    subst hm
    exact hv hw
  · simp only [inputsOf, List.mem_singleton] at hm
    subst hm
    simp only [State.len_frm, toNat_frameLength, State.mem_frm] at ha ⊢
    rw [hx]
    split
    · simp
    · obtain ⟨b, hb⟩ := State.inputsWritten_read (m := .msg) (a := a - 4) hr.inputs (by simp [inputsOf])
        (by simp only [State.len_msg]; omega)
      rw [State.mem_msg] at hb
      simp [hb]

theorem witness_UnpackInvertsPack : ∃ s t u, Ready .pack s ∧ exec .pack s = .next t ∧ Ready .unpack u ∧
    t.frmLen.toNat ≤ u.frmLen.toNat ∧ ∀ a < t.frmLen.toNat, u.frm.read a = t.frm.read a := by
  obtain ⟨t, ht⟩ := exec_total (witness_ready .pack)
  exact ⟨demo, t, t, witness_ready .pack, ht, ready_unpack_of_pack (witness_ready .pack) (demo_wf .frm) ht, Nat.le_refl _,
    fun _ _ => rfl⟩

/-- A ragged buffer, a frame too long, a frame that fits, and a frame too long with `TRUNC = 1`. -/
theorem witness_EmbedWritesTheFrameBits :
    (∃ s, Ready .embed s ∧ s.cbLen % 4 ≠ 0) ∧
      (∃ s, Ready .embed s ∧ s.cbLen % 4 = 0 ∧ s.trunc = false ∧ 8 * s.frmLen.toNat > 3 * (s.cbLen / 4)) ∧
      (∃ s, Ready .embed s ∧ s.cbLen % 4 = 0 ∧ 8 * s.frmLen.toNat ≤ 3 * (s.cbLen / 4)) ∧
      ∃ s, Ready .embed s ∧ s.cbLen % 4 = 0 ∧ s.trunc = true ∧ 8 * s.frmLen.toNat > 3 * (s.cbLen / 4) :=
  ⟨⟨{ demo with cbLen := 63 }, ready_of rfl (by decide) (fun m => by cases m <;> decide +kernel) (by decide +kernel), by decide⟩,
    ⟨{ demo with cbLen := 52 }, ready_of rfl (by decide) (fun m => by cases m <;> decide +kernel) (by decide +kernel), by decide⟩,
    ⟨demo, witness_ready .embed, by decide⟩,
    { demo with cbLen := 52, ctrl := 0x01 },
    ready_of rfl (by decide) (fun m => by cases m <;> decide +kernel) (by decide +kernel), by decide⟩

theorem witness_EmbedFailureIsAtomic : (∃ s, Ready .embed s ∧ s.cbLen % 4 ≠ 0) ∧
    ∃ s, Ready .embed s ∧ s.trunc = false ∧ 8 * s.frmLen.toNat > 3 * (s.cbLen / 4) :=
  ⟨witness_EmbedWritesTheFrameBits.1, by
    obtain ⟨s, h1, -, h2, h3⟩ := witness_EmbedWritesTheFrameBits.2.1
    exact ⟨s, h1, h2, h3⟩⟩

/-- A cell that EMBED writes and that holds a value before and after. -/
theorem witness_EmbedKeepsAlphaAndUpperBits : ∃ s t v w, exec .embed s = .next t ∧ s.cb.read 0 = some v ∧
    t.cb.read 0 = some w ∧ v ≠ w := by
  obtain ⟨t, ht⟩ := exec_total (witness_ready .embed)
  have h : nextIs (exec .embed demo) (fun t => t.cb.read 0 == some 0x7E) = true := by decide +kernel
  rw [ht] at h
  exact ⟨demo, t, 0x7F, 0x7E, ht, by decide, by simpa [nextIs] using h, by decide⟩

theorem witness_CapacityErrorExactly : ∃ s, Ready .embed s := ⟨demo, witness_ready .embed⟩

/-- `TRUNC = 1` with a frame that does not fit, and with one that does. -/
theorem witness_TruncationModeWritesWhatFits :
    (∃ s, Ready .embed s ∧ s.trunc = true ∧ s.cbLen % 4 = 0 ∧ 8 * s.frmLen.toNat > 3 * (s.cbLen / 4)) ∧
      ∃ s, Ready .embed s ∧ s.trunc = true ∧ s.cbLen % 4 = 0 ∧ 8 * s.frmLen.toNat ≤ 3 * (s.cbLen / 4) :=
  ⟨by
    obtain ⟨s, h1, h2, h3, h4⟩ := witness_EmbedWritesTheFrameBits.2.2.2
    exact ⟨s, h1, h3, h2, h4⟩,
    { demo with ctrl := 0x01 },
    ready_of rfl (by decide) (fun m => by cases m <;> decide +kernel) (by decide +kernel), by decide⟩

theorem witness_EmbedFrame : ∃ s t, exec .embed s = .next t := ⟨demo, exec_total (witness_ready .embed)⟩

theorem witness_ExtractPacksTheSlotBits :
    (∃ s, Ready .extract s ∧ s.cbLen % 4 ≠ 0) ∧ ∃ s, Ready .extract s ∧ s.cbLen % 4 = 0 ∧ 0 < 3 * (s.cbLen / 4) / 8 :=
  ⟨⟨{ demo with cbLen := 63 }, ready_of rfl (by decide) (fun m => by cases m <;> decide +kernel) (by decide +kernel), by decide⟩,
    demo, witness_ready .extract, by decide⟩

theorem witness_ExtractedBitsAreTheSlotBits : ∃ s, Ready .extract s ∧ s.cbLen % 4 = 0 := ⟨demo, witness_ready .extract, by decide⟩

/-- Two buffers with other alpha bytes and other upper bits (vector X14 in small). -/
theorem witness_ExtractDependsOnSlotBitsOnly : ∃ s s', Ready .extract s ∧ Ready .extract s' ∧ s'.cbLen = s.cbLen ∧
    s'.cb ≠ s.cb ∧ ∀ k < usable s.cbLen, (s'.cb.read (slotIndex k)).map lsb = (s.cb.read (slotIndex k)).map lsb :=
  ⟨{ State.reset with cb := bytesFrom 0 [0x01, 0x00, 0x01, 0x09], cbLen := 4 },
    { State.reset with cb := bytesFrom 0 [0x81, 0x20, 0x03, 0xFE], cbLen := 4 },
    ready_of rfl (by decide) (fun m => by cases m <;> decide +kernel) (by decide +kernel),
    ready_of rfl (by decide) (fun m => by cases m <;> decide +kernel) (by decide +kernel), rfl, by decide, by decide +kernel⟩

theorem witness_ExtractFrame : (∃ s t, exec .extract s = .next t) ∧ ∃ s t, exec .extract s = .next t ∧ s.cbLen % 4 ≠ 0 :=
  ⟨⟨demo, exec_total (witness_ready .extract)⟩, by
    obtain ⟨s, hs, h4⟩ := witness_ExtractPacksTheSlotBits.1
    obtain ⟨t, ht⟩ := exec_total hs
    exact ⟨s, t, ht, h4⟩⟩

/-- EXTRACT can be launched right after EMBED. -/
theorem ready_extract_of_embed {s t : State} (hr : Ready .embed s) (hw : s.cb.wf = true) (h : exec .embed s = .next t) :
    Ready .extract t := by
  obtain ⟨e, hc, -⟩ := exec_completed hr.idle h
  have hl := exec_lengths hr h
  have hcell : ∀ a < s.cbLen, ∃ b, s.cb.read a = some b := fun a ha =>
    State.inputsWritten_read (m := .cb) hr.inputs (by simp [inputsOf]) ha
  have key : ∀ v : Memory, v.wf = true → (∀ a < s.cbLen, ∃ b, v.read a = some b) → v.written s.cbLen = true :=
    fun v h1 h2 => (Memory.written_iff h1).2 fun a ha => Option.isSome_iff_exists.2 (h2 a ha)
  have fin : t.cb.written t.cbLen = true → t.params = s.params → Ready .extract t := fun h1 h2 =>
    ⟨hc.busy, by rw [h2]; exact hr.params, hl, by
      simp only [State.inputsWritten, inputsOf, List.all_cons, List.all_nil, Bool.and_true]
      exact h1⟩
  rcases exec_embed_next hr.idle h with ⟨-, rfl⟩ | ⟨-, -, rfl⟩ | ⟨-, -, v, rfl, hv, -, hin, hout⟩
  · exact fin (key _ hw hcell) rfl
  · exact fin (key _ hw hcell) rfl
  · refine fin (key _ (hv hw) fun a ha => ?_) rfl
    by_cases hs : ∃ k < s.slotsWritten, a = slotIndex k
    · obtain ⟨k, hk, rfl⟩ := hs
      obtain ⟨f, b, -, -, hb⟩ := hin k hk
      exact ⟨_, hb⟩
    · rw [hout a fun k hk he => hs ⟨k, hk, he⟩]
      exact hcell a ha

theorem witness_ExtractInvertsEmbed : ∃ s t u, Ready .embed s ∧ exec .embed s = .next t ∧ t.err = 0 ∧ Ready .extract u ∧
    u.cb = t.cb ∧ u.cbLen = t.cbLen ∧ s.trunc = false := by
  obtain ⟨t, ht⟩ := exec_total (witness_ready .embed)
  have h : nextIs (exec .embed demo) (fun t => t.err == 0) = true := by decide +kernel
  rw [ht] at h
  exact ⟨demo, t, t, witness_ready .embed, ht, by simpa [nextIs] using h,
    ready_extract_of_embed (witness_ready .embed) (demo_wf .cb) ht, rfl, rfl, by decide⟩

theorem witness_InputShapeErrorExactly (i : Instr) : ∃ s, Ready i s := ⟨demo, witness_ready i⟩

theorem witness_EachCommandsErrors (i : Instr) : ∃ s, Ready i s := ⟨demo, witness_ready i⟩

theorem witness_ErrorsChangeOnlyStatus : ∃ s t, s.busy = false ∧ exec .unpack s = .next t ∧ t.err ≠ 0 := by
  have hr : Ready .unpack { demo with frmLen := 3 } :=
    ready_of rfl (by decide) (fun m => by cases m <;> decide +kernel) (by decide +kernel)
  obtain ⟨t, ht⟩ := exec_total hr
  have h : nextIs (exec .unpack { demo with frmLen := 3 }) (fun t => t.err == 2) = true := by decide +kernel
  rw [ht] at h
  refine ⟨_, t, hr.idle, ht, ?_⟩
  have h2 : t.err = 2 := by simpa [nextIs] using h
  rw [h2]
  decide

/-- Two states that agree on a command's inputs and differ elsewhere. -/
theorem witness_ResultDependsOnInputsOnly (i : Instr) : ∃ s s', Ready i s ∧ Ready i s' ∧ SameInputs i s s' ∧ s ≠ s' :=
  ⟨demo, { demo with lreg := 7, slot := 9 }, witness_ready i,
    ready_of rfl (by decide) (fun m => by cases m <;> decide +kernel) (by cases i <;> decide +kernel),
    ⟨fun m _ => by cases m <;> exact ⟨rfl, fun _ _ => rfl⟩, fun _ => rfl⟩, by decide +kernel⟩

theorem witness_RepeatingACommandChangesNothing (i : Instr) : ∃ s, Ready i s ∧ ∀ m, (s.mem m).wf = true :=
  ⟨demo, witness_ready i, demo_wf⟩

theorem witness_EngineStepsRealiseTheCommand (i : Instr) : ∃ s, Ready i s := ⟨demo, witness_ready i⟩

theorem witness_StepCountsAreExact (i : Instr) : ∃ s, Ready i s ∧ 6 < stepCount i s :=
  ⟨demo, witness_ready i, by cases i <;> decide +kernel⟩

theorem witness_WaitingForDoneEqualsTheOneStepCommand (i : Instr) : ∃ s, Ready i s := ⟨demo, witness_ready i⟩

/-- A header step, a copy step and the final step of PACK. -/
theorem witness_PackStepsInOrder :
    (∃ s : State, s.busy = true ∧ s.opr = 1 ∧ s.phase = .header 3) ∧
      (∃ (s : State) (b : Byte), s.busy = true ∧ s.opr = 1 ∧ s.phase = .data ∧ s.widx.toNat < s.msgLen.toNat ∧
        s.len .msg ≤ s.cap .msg ∧ s.msg.read s.widx.toNat = some b) ∧
      ∃ s : State, s.busy = true ∧ s.opr = 1 ∧ s.phase = .data ∧ s.msgLen.toNat ≤ s.widx.toNat :=
  ⟨⟨{ demo.launch 0x01 with phase := .header 3 }, by decide +kernel⟩,
    ⟨{ demo.launch 0x01 with phase := .data }, 0x48, by decide +kernel⟩,
    { demo.launch 0x01 with phase := .data, widx := 2 }, by decide +kernel⟩

/-- One state for each kind of step of UNPACK. -/
theorem witness_UnpackStepsInOrder :
    (∃ s : State, s.busy = true ∧ s.opr = 2 ∧ s.len .frm ≤ s.cap .frm ∧ s.phase = .check ∧ s.frmLen.toNat < 4) ∧
      (∃ s : State, s.busy = true ∧ s.opr = 2 ∧ s.len .frm ≤ s.cap .frm ∧ s.phase = .check ∧ 4 ≤ s.frmLen.toNat) ∧
      (∃ (s : State) (b : Byte), s.busy = true ∧ s.opr = 2 ∧ s.len .frm ≤ s.cap .frm ∧ s.phase = .header 3 ∧
        4 ≤ s.frmLen.toNat ∧ s.frm.read 3 = some b) ∧
      (∃ s : State, s.busy = true ∧ s.opr = 2 ∧ s.len .frm ≤ s.cap .frm ∧ s.phase = .lengthCheck ∧
        4 + s.lreg.toNat > s.frmLen.toNat) ∧
      (∃ s : State, s.busy = true ∧ s.opr = 2 ∧ s.len .frm ≤ s.cap .frm ∧ s.phase = .lengthCheck ∧
        4 + s.lreg.toNat ≤ s.frmLen.toNat) ∧
      (∃ (s : State) (b : Byte), s.busy = true ∧ s.opr = 2 ∧ s.len .frm ≤ s.cap .frm ∧ s.phase = .data ∧
        s.widx.toNat < s.lreg.toNat ∧ 4 + s.lreg.toNat ≤ s.frmLen.toNat ∧ s.frm.read (4 + s.widx.toNat) = some b) ∧
      ∃ s : State, s.busy = true ∧ s.opr = 2 ∧ s.len .frm ≤ s.cap .frm ∧ s.phase = .data ∧ s.lreg.toNat ≤ s.widx.toNat :=
  ⟨⟨{ demo.launch 0x02 with frmLen := 3 }, by decide +kernel⟩, ⟨demo.launch 0x02, by decide +kernel⟩,
    ⟨{ demo.launch 0x02 with phase := .header 3 }, 0x01, by decide +kernel⟩,
    ⟨{ demo.launch 0x02 with phase := .lengthCheck, lreg := 2 }, by decide +kernel⟩,
    ⟨{ demo.launch 0x02 with phase := .lengthCheck, lreg := 1 }, by decide +kernel⟩,
    ⟨{ demo.launch 0x02 with phase := .data, lreg := 1 }, 0x41, by decide +kernel⟩,
    { demo.launch 0x02 with phase := .data, lreg := 1, widx := 1 }, by decide +kernel⟩

theorem witness_EmbedDataStep : ∃ (s : State) (f v : Byte), s.busy = true ∧ s.opr = 3 ∧ s.phase = .data ∧
    s.cur.toNat < 8 * s.frmLen.toNat ∧ s.slot < 3 * (s.cbLen / 4) ∧ s.len .frm ≤ s.cap .frm ∧ s.len .cb ≤ s.cap .cb ∧ s.frm.read (s.cur.toNat / 8) = some f ∧ s.cb.read (4 * (s.slot / 3) + s.slot % 3) = some v :=
  ⟨{ demo.launch 0x03 with phase := .data, cur := 39, slot := 39 }, 0x41, 0x7F, by decide +kernel⟩

/-- A bit into the accumulator, and the eighth bit. -/
theorem witness_ExtractDataStep :
    (∃ (s : State) (v : Byte), s.busy = true ∧ s.opr = 4 ∧ s.phase = .data ∧ s.slot < 3 * (s.cbLen / 4) ∧
      s.len .cb ≤ s.cap .cb ∧ s.cb.read (4 * (s.slot / 3) + s.slot % 3) = some v ∧ s.nb.toNat < 7) ∧
      ∃ (s : State) (v : Byte), s.busy = true ∧ s.opr = 4 ∧ s.phase = .data ∧ s.slot < 3 * (s.cbLen / 4) ∧
        s.len .cb ≤ s.cap .cb ∧ s.cb.read (4 * (s.slot / 3) + s.slot % 3) = some v ∧ s.nb.toNat = 7 ∧
        s.widx.toNat < s.cap .frm ∧ s.widx.toNat < 2 ^ 33 - 1 :=
  ⟨⟨{ demo.launch 0x04 with phase := .data }, 0x7F, by decide +kernel⟩,
    { demo.launch 0x04 with phase := .data, slot := 47, nb := 7, widx := 5, acc := 0x7F }, 0x7F, by decide +kernel⟩

/-- A step of EMBED in a state that meets the relation. -/
theorem witness_EmbedKeepsSlotEqualToTheCursor : ∃ s t, s.opr = 3 ∧ s.slot = s.cur.toNat ∧ engineStep s = .next t :=
  ⟨{ demo.launch 0x03 with phase := .data, cur := 39, slot := 39 }, _, by decide, by decide, rfl⟩

/-- A step of EXTRACT in a state that meets the relations, at a bit for the accumulator and at the eighth bit. -/
theorem witness_ExtractKeepsTheAccumulatorRelations :
    (∃ s t, s.params.valid ∧ s.opr = 4 ∧ s.nb.toNat = s.slot % 8 ∧ s.widx.toNat = s.slot / 8 ∧
      s.acc.toNat < 2 ^ s.nb.toNat ∧ engineStep s = .next t ∧ s.nb.toNat < 7) ∧
      ∃ (s : State) (v : Byte), s.busy = true ∧ s.opr = 4 ∧ s.phase = .data ∧ s.slot < 3 * (s.cbLen / 4) ∧
        s.len .cb ≤ s.cap .cb ∧ s.cb.read (4 * (s.slot / 3) + s.slot % 3) = some v ∧ s.acc.toNat < 2 ^ s.nb.toNat ∧
        s.nb.toNat = s.slot % 8 ∧ s.widx.toNat = s.slot / 8 ∧ s.nb.toNat = 7 ∧ s.widx.toNat < s.cap .frm :=
  ⟨⟨{ demo.launch 0x04 with phase := .data, slot := 6, nb := 6, acc := 0x3F }, _, by decide, by decide, by decide, by decide,
      by decide, rfl, by decide⟩,
    { demo.launch 0x04 with phase := .data, slot := 47, nb := 7, widx := 5, acc := 0x7F }, 0x7F, by decide +kernel⟩

/-- A frame that fits, one that does not, a ragged buffer, and a truncated one. -/
theorem witness_EncodeIsPackThenEmbed : ∃ s, Ready .pack s ∧ (∀ m, (s.mem m).wf = true) ∧ s.cb.written s.cbLen = true ∧
    s.host = expandLine .encode ∧ s.cbLen % 4 = 0 ∧ 8 * (4 + s.msgLen.toNat) ≤ 3 * (s.cbLen / 4) :=
  ⟨{ demo with host := expandLine .encode }, ready_withHostSide (witness_ready .pack) _ _ _ _ _,
    fun m => by cases m <;> decide +kernel, by decide +kernel, rfl, by decide⟩

theorem witness_EncodeIsPackThenEmbed_errors :
    (∃ s, Ready .pack s ∧ s.cb.written s.cbLen = true ∧ s.host = expandLine .encode ∧ s.cbLen % 4 ≠ 0) ∧
      ∃ s, Ready .pack s ∧ s.cb.written s.cbLen = true ∧ s.host = expandLine .encode ∧ s.cbLen % 4 = 0 ∧
        s.trunc = false ∧ 8 * (4 + s.msgLen.toNat) > 3 * (s.cbLen / 4) :=
  ⟨⟨{ demo with cbLen := 63, host := expandLine .encode },
      ready_of rfl (by decide) (fun m => by cases m <;> decide +kernel) (by decide +kernel), by decide +kernel, rfl, by decide⟩,
    { demo with cbLen := 60, host := expandLine .encode },
    ready_of rfl (by decide) (fun m => by cases m <;> decide +kernel) (by decide +kernel), by decide +kernel, rfl, by decide⟩

/-- A ragged buffer, ten pixels (fewer than four bytes), and a buffer of sixteen. -/
theorem witness_DecodeIsExtractThenUnpack :
    (∃ s, Ready .extract s ∧ (∀ m, (s.mem m).wf = true) ∧ s.host = expandLine .decode ∧ s.cbLen % 4 ≠ 0) ∧
      (∃ s, Ready .extract s ∧ (∀ m, (s.mem m).wf = true) ∧ s.host = expandLine .decode ∧ s.cbLen % 4 = 0 ∧
        3 * (s.cbLen / 4) / 8 < 4) ∧
      ∃ s, Ready .extract s ∧ (∀ m, (s.mem m).wf = true) ∧ s.host = expandLine .decode ∧ s.cbLen % 4 = 0 ∧
        4 ≤ 3 * (s.cbLen / 4) / 8 :=
  ⟨⟨{ demo with cbLen := 63, host := expandLine .decode },
      ready_of rfl (by decide) (fun m => by cases m <;> decide +kernel) (by decide +kernel),
      fun m => by cases m <;> decide +kernel, rfl, by decide⟩,
    ⟨{ demo with cbLen := 40, host := expandLine .decode },
      ready_of rfl (by decide) (fun m => by cases m <;> decide +kernel) (by decide +kernel),
      fun m => by cases m <;> decide +kernel, rfl, by decide⟩,
    { demo with host := expandLine .decode }, ready_withHostSide (witness_ready .extract) _ _ _ _ _,
    fun m => by cases m <;> decide +kernel, rfl, by decide⟩

theorem witness_EncodeThenDecodeGivesThePayloadBack : ∃ s, Ready .pack s ∧ (∀ m, (s.mem m).wf = true) ∧
    s.cb.written s.cbLen = true ∧ s.cbLen % 4 = 0 ∧ 8 * (4 + s.msgLen.toNat) ≤ 3 * (s.cbLen / 4) ∧
    s.host = expandLine .encode := by
  obtain ⟨s, h1, h2, h3, h4, h5, h6⟩ := witness_EncodeIsPackThenEmbed
  exact ⟨s, h1, h2, h3, h5, h6, h4⟩

theorem witness_SlotsEnumerateTheColourCells : (∃ j k : Nat, j < k) ∧ ∃ n : Nat, n % 4 = 0 ∧ 0 < usable n :=
  ⟨⟨0, 1, by decide⟩, 4, by decide, by decide⟩

end Sys2Proof.Tests
end

section
/-! PROOFS. The two parts of `Invariant` beside the engine, legal data and a legal status word, and what keeps each: one rule
for each operation on the state. -/

namespace Sys2Proof.Machine

/-- The part of `Invariant` that speaks of the data of the block: the parameters (R6), the memories (R50), the length
registers (R24) and `CTRL` (R27). -/
structure DataLegal (s : State) : Prop where
  params : s.params.valid
  canonical : ∀ m, (s.mem m).wf = true
  within : ∀ m, ∀ c ∈ s.mem m, c.1 < s.cap m
  lengths : ∀ m, s.len m ≤ s.cap m
  ctrlReserved : s.ctrl &&& 0xFE = 0

/-- The part of `Invariant` that speaks of a status word (R28). -/
structure StatusLegal (w : Byte) : Prop where
  reserved : reservedField w = 0
  errLegal : (errField w).toNat ≤ 4
  busyNotDone : busyField w = true → doneField w = false
  errDone : errField w ≠ 0 → doneField w = true

theorem invariant_iff {s : State} :
    Invariant s ↔ DataLegal s ∧ StatusLegal s.status ∧ (s.busy = true → EngineOk s) :=
  ⟨fun h => ⟨⟨h.params, h.canonical, h.within, h.lengths, h.ctrlReserved⟩,
      ⟨h.statusReserved, h.errLegal, h.busyNotDone, h.errDone⟩, h.engine⟩,
    fun ⟨d, w, e⟩ => ⟨d.params, d.canonical, d.within, d.lengths, d.ctrlReserved, w.reserved, w.errLegal, w.busyNotDone,
      w.errDone, e⟩⟩

theorem Invariant.data {s : State} (h : Invariant s) : DataLegal s := (invariant_iff.1 h).1

theorem Invariant.status {s : State} (h : Invariant s) : StatusLegal s.status := (invariant_iff.1 h).2.1

/-- In an idle state the invariant says nothing of the engine. -/
theorem invariant_of_idle {s : State} (hd : DataLegal s) (hw : StatusLegal s.status) (hb : s.busy = false) :
    Invariant s :=
  invariant_iff.2 ⟨hd, hw, fun h => absurd (hb.symm.trans h) (by decide)⟩

variable {s t : State} {m d : MemId}

/-- The fields `SameData` compares, as one value: an update beside them leaves it as it
was by `rfl`. -/
def State.dataFields (s : State) :
    Config.Params × Memory × Memory × Memory × Nat × BitVec 32 × BitVec 33 × Byte :=
  (s.params, s.cb, s.msg, s.frm, s.cbLen, s.msgLen, s.frmLen, s.ctrl)

theorem sameData_of_dataFields (h : t.dataFields = s.dataFields) : SameData s t := by
  simp only [State.dataFields, Prod.mk.injEq] at h
  obtain ⟨hp, hcb, hmsg, hfrm, hcl, hml, hfl, hc⟩ := h
  exact ⟨hp, hcb, hmsg, hfrm, hcl, hml, hfl, hc⟩

theorem DataLegal.of_same (hd : DataLegal s) (he : t.dataFields = s.dataFields) : DataLegal t := by
  have h := sameData_of_dataFields he
  have hm : ∀ m, t.mem m = s.mem m := fun m => by cases m <;> simp [h.cb, h.msg, h.frm]
  have hl : ∀ m, t.len m = s.len m := fun m => by cases m <;> simp [h.cbLen, h.msgLen, h.frmLen]
  have hc : ∀ m, t.cap m = s.cap m := fun m => by simp [State.cap, h.params]
  exact ⟨by rw [h.params]; exact hd.params, fun m => by rw [hm]; exact hd.canonical m,
    fun m => by rw [hm, hc]; exact hd.within m, fun m => by rw [hl, hc]; exact hd.lengths m,
    by rw [h.ctrl]; exact hd.ctrlReserved⟩

theorem WroteMem.ctrl (h : WroteMem d s t) : t.ctrl = s.ctrl := by
  obtain ⟨v, rfl, _⟩ := h
  simp

theorem DataLegal.wroteMem (hd : DataLegal s) (h : WroteMem d s t) : DataLegal t where
  params := by rw [h.params]; exact hd.params
  canonical m := by
    obtain ⟨v, rfl, hv, -⟩ := h
    rw [State.setMem_mem]
    split
    · exact hv (hd.canonical d)
    · exact hd.canonical m
  within m := by
    obtain ⟨v, rfl, -, hv⟩ := h
    rw [State.setMem_mem, State.setMem_cap]
    split
    · subst_vars
      exact hv (hd.within m)
    · exact hd.within m
  lengths m := by rw [h.len, h.cap]; exact hd.lengths m
  ctrlReserved := by rw [h.ctrl]; exact hd.ctrlReserved

/-- A store keeps the data legal and leaves every written input cell written (R35). -/
theorem DataLegal.storeByte {i : Instr} {a : Nat} {b : Byte} (hd : DataLegal s) (hi : s.inputsWritten i = true)
    (h : s.storeByte m a b = .ok t) : ∃ v, t = s.setMem m v ∧ DataLegal t ∧ t.inputsWritten i = true := by
  have hd' := hd.wroteMem (State.storeByte_wrote h)
  obtain ⟨-, rfl⟩ := State.storeByte_eq_ok.1 h
  refine ⟨_, rfl, hd', List.all_eq_true.2 fun k hk => ?_⟩
  have hw := List.all_eq_true.1 hi k hk
  rw [State.setMem_mem, State.setMem_len]
  split
  · subst_vars
    exact Memory.written_write (hd.canonical k) hw
  · exact hw

/-- A length register reads at most the number written to it; the others keep theirs. -/
theorem State.setLen_len_le (s : State) (m k : MemId) (n : Nat) :
    (k = m ∧ (s.setLen m n).len k ≤ n) ∨ (s.setLen m n).len k = s.len k := by
  cases m <;> cases k <;> simp [State.setLen, State.len, Nat.mod_le]

theorem DataLegal.setLen {n : Nat} (hd : DataLegal s) (hn : n ≤ s.cap m) : DataLegal (s.setLen m n) where
  params := by simpa using hd.params
  canonical k := by simpa using hd.canonical k
  within k := by simpa using hd.within k
  lengths k := by
    rw [State.setLen_cap]
    rcases s.setLen_len_le m k n with ⟨rfl, hle⟩ | heq
    · exact hle.trans hn
    · exact heq.trans_le (hd.lengths k)
  ctrlReserved := by simpa using hd.ctrlReserved

theorem statusLegal_completed {w : Byte} (hw : StatusLegal w) (e : Option ErrorKind) :
    StatusLegal (statusWord w false true (errCode e)) :=
  ⟨by simpa using hw.reserved, by simpa using errCode_le e, by simp, by simp⟩

theorem statusLegal_launched {w : Byte} (hw : StatusLegal w) : StatusLegal (statusWord w true false 0) :=
  ⟨by simpa using hw.reserved, by simp, by simp, by simp⟩

end Sys2Proof.Machine
end

section
/-! PROOFS. What one engine step of each command can do, said once: one lemma for each step function. -/

namespace Sys2Proof.Machine

variable {s t : State}

/-- A step of PACK writes a header byte, copies a payload byte, or completes (R101). -/
theorem stepPack_cases (h : stepPack s = .ok t) :
    (∃ k u, s.phase = .header k ∧ s.storeByte .frm k.val (lengthByte s.msgLen k.val) = .ok u ∧
      t = { u with phase := afterHeader k .data }) ∨
    (s.phase = .data ∧ s.widx.toNat < s.msgLen.toNat ∧ ∃ b u, s.loadByte .msg s.widx.toNat = .ok b ∧
      s.storeByte .frm (4 + s.widx.toNat) b = .ok u ∧ t = { u with widx := u.widx + 1 }) ∨
    (s.phase = .data ∧ s.msgLen.toNat ≤ s.widx.toNat ∧
      t = State.complete none { s with frmLen := BitVec.ofNat 33 (4 + s.msgLen.toNat) }) := by
  unfold stepPack at h
  cases hp : s.phase with
  | header k =>
    simp only [hp] at h
    obtain ⟨u, hu, h⟩ := except_bind_eq_ok.1 h
    cases h
    exact .inl ⟨k, u, rfl, hu, rfl⟩
  | data =>
    simp only [hp] at h
    split at h
    · obtain ⟨b, hb, h⟩ := except_bind_eq_ok.1 h
      obtain ⟨u, hu, h⟩ := except_bind_eq_ok.1 h
      cases h
      exact .inr (.inl ⟨rfl, ‹_›, b, u, hb, hu, rfl⟩)
    · cases h
      exact .inr (.inr ⟨rfl, by omega, rfl⟩)
  | _ => simp [hp] at h

/-- A step of UNPACK is a check, reads a header byte, copies a payload byte, or completes (R105). -/
theorem stepUnpack_cases (h : stepUnpack s = .ok t) :
    (s.phase = .check ∧ s.frmLen.toNat < 4 ∧ t = s.raise .format) ∨
    (s.phase = .check ∧ 4 ≤ s.frmLen.toNat ∧ t = { s with phase := .header 0 }) ∨
    (∃ k b, s.phase = .header k ∧ s.loadByte .frm k.val = .ok b ∧
      t = { s with lreg := shiftInByte (if k = 0 then 0 else s.lreg) b, phase := afterHeader k .lengthCheck }) ∨
    (s.phase = .lengthCheck ∧ s.frmLen.toNat < 4 + s.lreg.toNat ∧ t = s.raise .format) ∨
    (s.phase = .lengthCheck ∧ 4 + s.lreg.toNat ≤ s.frmLen.toNat ∧ t = { s with phase := .data }) ∨
    (s.phase = .data ∧ s.widx.toNat < s.lreg.toNat ∧ ∃ b u, s.loadByte .frm (4 + s.widx.toNat) = .ok b ∧
      s.storeByte .msg s.widx.toNat b = .ok u ∧ t = { u with widx := u.widx + 1 }) ∨
    (s.phase = .data ∧ s.lreg.toNat ≤ s.widx.toNat ∧ t = State.complete none { s with msgLen := s.lreg }) := by
  unfold stepUnpack at h
  cases hp : s.phase with
  | check =>
    simp only [hp] at h
    split at h <;> cases h
    · exact .inl ⟨rfl, ‹_›, rfl⟩
    · exact .inr (.inl ⟨rfl, by omega, rfl⟩)
  | header k =>
    simp only [hp] at h
    obtain ⟨b, hb, h⟩ := except_bind_eq_ok.1 h
    cases h
    exact .inr (.inr (.inl ⟨k, b, rfl, hb, rfl⟩))
  | lengthCheck =>
    simp only [hp] at h
    split at h <;> cases h
    · exact .inr (.inr (.inr (.inl ⟨rfl, ‹_›, rfl⟩)))
    · exact .inr (.inr (.inr (.inr (.inl ⟨rfl, by omega, rfl⟩))))
  | data =>
    simp only [hp] at h
    split at h
    · obtain ⟨b, hb, h⟩ := except_bind_eq_ok.1 h
      obtain ⟨u, hu, h⟩ := except_bind_eq_ok.1 h
      cases h
      exact .inr (.inr (.inr (.inr (.inr (.inl ⟨rfl, ‹_›, b, u, hb, hu, rfl⟩)))))
    · cases h
      exact .inr (.inr (.inr (.inr (.inr (.inr ⟨rfl, by omega, rfl⟩)))))
  | _ => simp [hp] at h

/-- A step of EMBED is a check, writes one slot, or completes (R123, R124). -/
theorem stepEmbed_cases (h : stepEmbed s = .ok t) :
    (s.phase = .check ∧ s.cbLen % 4 ≠ 0 ∧ t = s.raise .inputShape) ∨
    (s.phase = .check ∧ s.cbLen % 4 = 0 ∧ (s.trunc = false ∧ 8 * s.frmLen.toNat > 3 * (s.cbLen / 4)) ∧
      t = s.raise .capacity) ∨
    (s.phase = .check ∧ s.cbLen % 4 = 0 ∧ ¬ (s.trunc = false ∧ 8 * s.frmLen.toNat > 3 * (s.cbLen / 4)) ∧
      t = { s with phase := .data }) ∨
    (s.phase = .data ∧ s.cur.toNat < 8 * s.frmLen.toNat ∧ s.slot < 3 * (s.cbLen / 4) ∧ ∃ f v u,
      s.loadByte .frm (s.cur.toNat / 8) = .ok f ∧ s.loadByte .cb (slotIndex s.slot) = .ok v ∧
      s.storeByte .cb (slotIndex s.slot) (setLsb v (cursorBit f s.cur.toNat)) = .ok u ∧
      t = { u with cur := u.cur + 1, slot := u.slot + 1 }) ∨
    (s.phase = .data ∧ ¬ (s.cur.toNat < 8 * s.frmLen.toNat ∧ s.slot < 3 * (s.cbLen / 4)) ∧
      t = State.complete none s) := by
  unfold stepEmbed at h
  cases hp : s.phase with
  | check =>
    simp only [hp] at h
    split at h
    · cases h
      exact .inl ⟨rfl, ‹_›, rfl⟩
    · split at h <;> cases h
      · exact .inr (.inl ⟨rfl, by omega, ‹_›, rfl⟩)
      · exact .inr (.inr (.inl ⟨rfl, by omega, ‹_›, rfl⟩))
  | data =>
    simp only [hp] at h
    split at h
    · rename_i hlt
      obtain ⟨f, hf, h⟩ := except_bind_eq_ok.1 h
      obtain ⟨v, hv, h⟩ := except_bind_eq_ok.1 h
      obtain ⟨u, hu, h⟩ := except_bind_eq_ok.1 h
      cases h
      exact .inr (.inr (.inr (.inl ⟨rfl, hlt.1, hlt.2, f, v, u, hf, hv, hu, rfl⟩)))
    · cases h
      exact .inr (.inr (.inr (.inr ⟨rfl, ‹_›, rfl⟩)))
  | _ => simp [hp] at h

/-- A step of EXTRACT is the check, gathers one bit, stores the eighth bit's byte, or completes (R143, R144). -/
theorem stepExtract_cases (h : stepExtract s = .ok t) :
    (s.phase = .check ∧ s.cbLen % 4 ≠ 0 ∧ t = s.raise .inputShape) ∨
    (s.phase = .check ∧ s.cbLen % 4 = 0 ∧ t = { s with phase := .data }) ∨
    (s.phase = .data ∧ s.slot < 3 * (s.cbLen / 4) ∧ s.nb.toNat < 7 ∧ ∃ v,
      s.loadByte .cb (slotIndex s.slot) = .ok v ∧
      t = { s with acc := shiftIn s.acc (lsb v), nb := s.nb + 1, slot := s.slot + 1 }) ∨
    (s.phase = .data ∧ s.slot < 3 * (s.cbLen / 4) ∧ 7 ≤ s.nb.toNat ∧ ∃ v u,
      s.loadByte .cb (slotIndex s.slot) = .ok v ∧ s.storeByte .frm s.widx.toNat (shiftIn s.acc (lsb v)) = .ok u ∧
      t = { u with widx := u.widx + 1, acc := 0, nb := 0, slot := u.slot + 1 }) ∨
    (s.phase = .data ∧ 3 * (s.cbLen / 4) ≤ s.slot ∧ t = State.complete none { s with frmLen := s.widx }) := by
  unfold stepExtract at h
  cases hp : s.phase with
  | check =>
    simp only [hp] at h
    split at h <;> cases h
    · exact .inl ⟨rfl, ‹_›, rfl⟩
    · exact .inr (.inl ⟨rfl, by omega, rfl⟩)
  | data =>
    simp only [hp] at h
    split at h
    · obtain ⟨v, hv, h⟩ := except_bind_eq_ok.1 h
      split at h
      · cases h
        exact .inr (.inr (.inl ⟨rfl, ‹_›, ‹_›, v, hv, rfl⟩))
      · obtain ⟨u, hu, h⟩ := except_bind_eq_ok.1 h
        cases h
        exact .inr (.inr (.inr (.inl ⟨rfl, ‹_›, by omega, v, u, hv, hu, rfl⟩)))
    · cases h
      exact .inr (.inr (.inr (.inr ⟨rfl, by omega, rfl⟩)))
  | _ => simp [hp] at h

end Sys2Proof.Machine
end

section
/-! PROOFS. The engine keeps the invariant: each step of a command in progress keeps it in progress, or completes it. -/

namespace Sys2Proof.Machine

variable {s t : State}

/-- The part of `EngineOk` for one command. -/
def InProgress : Instr → State → Prop
  | .pack => PackOk
  | .unpack => UnpackOk
  | .embed => EmbedOk
  | .extract => ExtractOk

theorem operationOf_eq_some {o : BitVec 3} {i : Instr} : operationOf o = some i ↔ o = opcodeOf i := by
  revert o
  cases i <;> decide

theorem engineOk_iff : EngineOk s ↔ s.phase = .illegal ∨ ∃ i, s.opr = opcodeOf i ∧ InProgress i s := by
  unfold EngineOk
  refine or_congr_right ?_
  cases ho : operationOf s.opr with
  | none =>
    refine iff_of_false id fun ⟨i, hi, _⟩ => ?_
    rw [operationOf_eq_some.2 hi] at ho
    cases ho
  | some j =>
    have hj := operationOf_eq_some.1 ho
    constructor
    · intro h
      exact ⟨j, hj, by cases j <;> exact h⟩
    · rintro ⟨i, hi, h⟩
      obtain rfl : j = i := Option.some.inj (ho.symm.trans (operationOf_eq_some.2 hi))
      cases j <;> exact h

/-- What an engine step of `i` makes of a state that meets the invariant: the command goes on, or it completes. -/
inductive AfterStep (i : Instr) (s t : State) : Prop where
  | goesOn (data : DataLegal t) (status : t.status = s.status) (opr : t.opr = s.opr) (progress : InProgress i t)
  | completes (data : DataLegal t) (e : Option ErrorKind)
      (status : t.status = statusWord s.status false true (errCode e))

theorem DataLegal.complete (hd : DataLegal s) (e : Option ErrorKind) : DataLegal (s.complete e) := hd.of_same rfl

theorem afterHeader_cases (k : Fin 4) (last : Phase) :
    afterHeader k last = last ∨ ∃ j, afterHeader k last = .header j := by
  unfold afterHeader
  split
  · exact .inl rfl
  · exact .inr ⟨_, rfl⟩

/-- The frame of a legal payload fits `FRM` (R6). -/
theorem DataLegal.frame_fits (hd : DataLegal s) : 4 + s.msgLen.toNat ≤ s.cap .frm := by
  have := hd.lengths .msg
  simp only [State.len_msg] at this
  simp only [State.cap_frm]
  omega

/-- The payload of a legal frame fits `MSG` (R6). -/
theorem DataLegal.payload_fits {L : Nat} (hd : DataLegal s) (hL : 4 + L ≤ s.frmLen.toNat) : L ≤ s.cap .msg := by
  have := hd.lengths .frm
  simp only [State.len_frm, State.cap_frm] at this
  omega

theorem stepPack_afterStep (hd : DataLegal s) (hp : PackOk s) (h : stepPack s = .ok t) : AfterStep .pack s t := by
  obtain ⟨hin, hph⟩ := hp
  rcases stepPack_cases h with ⟨k, u, hk, hu, rfl⟩ | ⟨hk, hlt, b, u, -, hu, rfl⟩ | ⟨hk, -, rfl⟩
  · have hw : s.widx = 0 := by simpa [hk] using hph
    obtain ⟨v, rfl, hd', hin'⟩ := hd.storeByte hin hu
    refine .goesOn (hd'.of_same rfl) rfl rfl ⟨hin', ?_⟩
    rcases afterHeader_cases k .data with hl | ⟨j, hj⟩
    · exact .inr ⟨hl, by simp [hw]⟩
    · exact .inl ⟨j, hj, hw⟩
  · obtain ⟨v, rfl, hd', hin'⟩ := hd.storeByte hin hu
    refine .goesOn (hd'.of_same rfl) rfl rfl ⟨hin', .inr ⟨hk, ?_⟩⟩
    have := s.msgLen.isLt
    simp only [State.setMem]
    bv_omega
  · exact .completes ((hd.setLen (m := .frm) hd.frame_fits).complete none) none rfl

theorem stepUnpack_afterStep (hd : DataLegal s) (hp : UnpackOk s) (h : stepUnpack s = .ok t) :
    AfterStep .unpack s t := by
  obtain ⟨hin, hph⟩ := hp
  have hsame : ∀ {p l}, DataLegal { s with lreg := l, phase := p } := hd.of_same rfl
  rcases stepUnpack_cases h with ⟨-, -, rfl⟩ | ⟨hk, h4, rfl⟩ | ⟨k, b, hk, -, rfl⟩ | ⟨-, -, rfl⟩ | ⟨hk, hle, rfl⟩ |
    ⟨hk, hlt, b, u, -, hu, rfl⟩ | ⟨hk, hle, rfl⟩
  · exact .completes (hd.complete _) _ rfl
  · have hw : s.widx = 0 := by simpa [hk] using hph
    exact .goesOn hsame rfl rfl ⟨hin, .inr (.inl ⟨0, rfl, hw, h4⟩)⟩
  · obtain ⟨hw, h4⟩ : s.widx = 0 ∧ 4 ≤ s.frmLen.toNat := by simpa [hk] using hph
    refine .goesOn hsame rfl rfl ⟨hin, ?_⟩
    rcases afterHeader_cases k .lengthCheck with hl | ⟨j, hj⟩
    · exact .inr (.inr (.inl ⟨hl, hw, h4⟩))
    · exact .inr (.inl ⟨j, hj, hw, h4⟩)
  · exact .completes (hd.complete _) _ rfl
  · obtain ⟨hw, -⟩ : s.widx = 0 ∧ 4 ≤ s.frmLen.toNat := by simpa [hk] using hph
    exact .goesOn hsame rfl rfl ⟨hin, .inr (.inr (.inr ⟨rfl, hle, by simp [hw]⟩))⟩
  · obtain ⟨hL, -⟩ : 4 + s.lreg.toNat ≤ s.frmLen.toNat ∧ s.widx.toNat ≤ s.lreg.toNat := by simpa [hk] using hph
    obtain ⟨v, rfl, hd', hin'⟩ := hd.storeByte hin hu
    refine .goesOn (hd'.of_same rfl) rfl rfl ⟨hin', .inr (.inr (.inr ⟨hk, hL, ?_⟩))⟩
    have := s.lreg.isLt
    simp only [State.setMem]
    bv_omega
  · obtain ⟨hL, -⟩ : 4 + s.lreg.toNat ≤ s.frmLen.toNat ∧ s.widx.toNat ≤ s.lreg.toNat := by simpa [hk] using hph
    have hs : { s with msgLen := s.lreg } = s.setLen .msg s.lreg.toNat := by simp [State.setLen]
    exact .completes (by rw [hs]; exact (hd.setLen (hd.payload_fits hL)).complete none) none rfl

theorem stepEmbed_afterStep (hd : DataLegal s) (hp : EmbedOk s) (h : stepEmbed s = .ok t) : AfterStep .embed s t := by
  obtain ⟨hin, hcur, hph⟩ := hp
  rcases stepEmbed_cases h with ⟨-, -, rfl⟩ | ⟨-, -, -, rfl⟩ | ⟨hk, h4, hcap, rfl⟩ |
    ⟨hk, hc, hs, f, b, u, -, -, hu, rfl⟩ | ⟨-, -, rfl⟩
  · exact .completes (hd.complete _) _ rfl
  · exact .completes (hd.complete _) _ rfl
  · have h0 : s.slot = 0 := by simpa [hk] using hph
    have hroom : s.trunc = false → 8 * s.frmLen.toNat ≤ 3 * (s.cbLen / 4) := fun ht =>
      Nat.not_lt.1 fun hlt => hcap ⟨ht, hlt⟩
    exact .goesOn (hd.of_same rfl) rfl rfl ⟨hin, hcur, .inr ⟨rfl, h4, by simp [h0], by simp [h0], hroom⟩⟩
  · obtain ⟨h4, -, -, hcap⟩ : s.cbLen % 4 = 0 ∧ s.slot ≤ 8 * s.frmLen.toNat ∧ s.slot ≤ 3 * (s.cbLen / 4) ∧
        (s.trunc = false → 8 * s.frmLen.toNat ≤ 3 * (s.cbLen / 4)) := by simpa [hk] using hph
    obtain ⟨v, rfl, hd', hin'⟩ := hd.storeByte hin hu
    have hF := s.frmLen.isLt
    refine .goesOn (hd'.of_same rfl) rfl rfl ⟨hin', ?_, .inr ⟨hk, h4, ?_, hs, hcap⟩⟩
    · simp only [State.setMem]
      bv_omega
    · simp only [State.setMem]
      omega
  · exact .completes (hd.complete _) _ rfl

theorem stepExtract_afterStep (hd : DataLegal s) (hp : ExtractOk s) (h : stepExtract s = .ok t) :
    AfterStep .extract s t := by
  obtain ⟨hin, hnb, hwi, hacc, hph⟩ := hp
  obtain ⟨hfit, hfit33⟩ := extracted_fits hd.params (hd.lengths .cb)
  unfold usable pixels at hfit hfit33
  rcases stepExtract_cases h with ⟨-, -, rfl⟩ | ⟨hk, h4, rfl⟩ | ⟨hk, hs, h7, b, -, rfl⟩ |
    ⟨hk, hs, h7, b, u, -, hu, rfl⟩ | ⟨hk, hs, rfl⟩
  · exact .completes (hd.complete _) _ rfl
  · have h0 : s.slot = 0 := by simpa [hk] using hph
    exact .goesOn (hd.of_same rfl) rfl rfl ⟨hin, hnb, hwi, hacc, .inr ⟨rfl, h4, by simp [h0]⟩⟩
  · obtain ⟨h4, -⟩ : s.cbLen % 4 = 0 ∧ s.slot ≤ 3 * (s.cbLen / 4) := by simpa [hk] using hph
    have hnb' : (s.nb + 1).toNat = s.nb.toNat + 1 := by bv_omega
    refine .goesOn (hd.of_same rfl) rfl rfl ⟨hin, ?_, ?_, ?_, .inr ⟨hk, h4, hs⟩⟩
    · simp only [hnb']
      omega
    · simp only
      omega
    · have h128 : 2 ^ s.nb.toNat ≤ 2 ^ 7 := Nat.pow_le_pow_right (by omega) (by omega)
      simp only [hnb', shiftIn_toNat s.acc b (by omega), Nat.pow_succ]
      omega
  · obtain ⟨h4, -⟩ : s.cbLen % 4 = 0 ∧ s.slot ≤ 3 * (s.cbLen / 4) := by simpa [hk] using hph
    obtain ⟨v, rfl, hd', hin'⟩ := hd.storeByte hin hu
    have hwi' : (s.widx + 1).toNat = s.widx.toNat + 1 := by bv_omega
    refine .goesOn (hd'.of_same rfl) rfl rfl ⟨hin', ?_, ?_, by simp, .inr ⟨hk, h4, hs⟩⟩
    · change 0 = (s.slot + 1) % 8
      omega
    · simp only [State.setMem, hwi']
      omega
  · obtain ⟨h4, hle⟩ : s.cbLen % 4 = 0 ∧ s.slot ≤ 3 * (s.cbLen / 4) := by simpa [hk] using hph
    have hset : { s with frmLen := s.widx } = s.setLen .frm s.widx.toNat := by simp [State.setLen]
    exact .completes (by rw [hset]; exact (hd.setLen (by omega)).complete none) none rfl

theorem stepOf_afterStep {i : Instr} (hd : DataLegal s) (hp : InProgress i s) (h : stepOf i s = .ok t) :
    AfterStep i s t := by
  cases i with
  | pack => exact stepPack_afterStep hd hp h
  | unpack => exact stepUnpack_afterStep hd hp h
  | embed => exact stepEmbed_afterStep hd hp h
  | extract => exact stepExtract_afterStep hd hp h

/-- A completion with legal data meets the invariant (R83). -/
theorem Invariant.of_completed {e : Option ErrorKind} (hs : Invariant s) (hd : DataLegal t)
    (hw : t.status = statusWord s.status false true (errCode e)) : Invariant t :=
  invariant_of_idle hd (by rw [hw]; exact statusLegal_completed hs.status e) (by simp [State.busy, hw])

theorem engineStep_keepsInvariant (hs : Invariant s) (h : engineStep s = .next t) : Invariant t := by
  cases hb : s.busy with
  | false =>
    rw [engineStep_idle hb] at h
    cases h
    exact hs
  | true =>
    by_cases hill : s.phase = .illegal
    · simp only [engineStep, hb, hill, Bool.true_eq_false, if_false, if_true] at h
      cases h
      exact hs.of_completed (hs.data.complete _) rfl
    · obtain ⟨i, ho, hp⟩ := (engineOk_iff.1 (hs.engine hb)).resolve_left hill
      rw [engineStep_busy hb hill ho] at h
      cases stepOf_afterStep hs.data hp (outcomeOf_eq_next.1 h) with
      | goesOn hd hw ho' hp' =>
        exact invariant_iff.2 ⟨hd, by rw [hw]; exact hs.status, fun _ => engineOk_iff.2 (.inr ⟨i, ho'.trans ho, hp'⟩)⟩
      | completes hd e hw => exact hs.of_completed hd hw

end Sys2Proof.Machine
end

section
/-! PROOFS. A launch, a whole command, a wait and every host move keep the invariant. -/

namespace Sys2Proof.Machine

variable {s t : State}

theorem launch_inProgress {i : Instr} (hi : s.inputsWritten i = true) : InProgress i (s.launch (encode i)) := by
  have hin : (s.launch (encode i)).inputsWritten i = true := by simpa using hi
  cases i with
  | pack => exact ⟨hin, .inl ⟨0, rfl, rfl⟩⟩
  | unpack => exact ⟨hin, .inl ⟨rfl, rfl⟩⟩
  | embed => exact ⟨hin, rfl, .inl ⟨rfl, rfl⟩⟩
  | extract => exact ⟨hin, rfl, by simp, by simp, .inl ⟨rfl, rfl⟩⟩

theorem DataLegal.launch (hd : DataLegal s) (v : Byte) : DataLegal (s.launch v) := hd.of_same rfl

theorem launch_keepsInvariant {v : Byte} (hs : Invariant s) (hi : ∀ i, decode v = .ok i → s.inputsWritten i = true) :
    Invariant (s.launch v) := by
  refine invariant_iff.2 ⟨hs.data.launch v, statusLegal_launched hs.status, fun _ => engineOk_iff.2 ?_⟩
  cases hv : decode v with
  | error r => exact .inl (by simp [firstPhase, hv])
  | ok i =>
    obtain rfl := decode_eq_ok.1 hv
    exact .inr ⟨i, opField_encode i, launch_inProgress (hi i hv)⟩

/-- Writing the host's side of a state does not touch what the invariant speaks of. -/
theorem Invariant.withHostSide (hs : Invariant s) (h : List HostAction) (d : Option HostValue) (w : Option Byte)
    (e n : Nat) : Invariant (s.withHostSide h d w e n) :=
  invariant_iff.2 ⟨hs.data.of_same rfl, hs.status, hs.engine⟩

theorem exec_dataLegal {i : Instr} (hd : DataLegal s) (hb : s.busy = false) (h : exec i s = .next t) : DataLegal t := by
  cases i with
  | pack =>
    obtain ⟨v, rfl, hv, hv', -⟩ := exec_pack_next hb h
    exact ((hd.wroteMem (d := .frm) ⟨v, rfl, hv, hv'⟩).setLen (m := .frm) hd.frame_fits).of_same rfl
  | unpack =>
    rcases exec_unpack_next hb h with ⟨-, rfl⟩ | ⟨-, L, -, -, rfl⟩ | ⟨-, L, -, hL, v, rfl, hv, hv', -⟩
    · exact hd.of_same rfl
    · exact hd.of_same rfl
    · exact ((hd.wroteMem (d := .msg) ⟨v, rfl, hv, hv'⟩).setLen (m := .msg) (hd.payload_fits hL)).of_same rfl
  | embed =>
    rcases exec_embed_next hb h with ⟨-, rfl⟩ | ⟨-, -, rfl⟩ | ⟨-, -, v, rfl, hv, hv', -⟩
    · exact hd.of_same rfl
    · exact hd.of_same rfl
    · exact (hd.wroteMem (d := .cb) ⟨v, rfl, hv, hv'⟩).of_same rfl
  | extract =>
    rcases exec_extract_next hb h with ⟨-, rfl⟩ | ⟨-, v, left, rfl, hv, hv', -⟩
    · exact hd.of_same rfl
    · have hfit := (extracted_fits hd.params (hd.lengths .cb)).1
      exact ((hd.wroteMem (d := .frm) ⟨v, rfl, hv, hv'⟩).setLen (m := .frm) hfit).of_same rfl

theorem exec_keepsInvariant {i : Instr} (hs : Invariant s) (h : exec i s = .next t) : Invariant t := by
  cases hb : s.busy with
  | true =>
    rw [exec_busy hb] at h
    cases h
    exact hs
  | false =>
    obtain ⟨e, -, hw⟩ := exec_completed hb h
    exact hs.of_completed (exec_dataLegal hs.data hb h) hw

theorem illegalCommand_keepsInvariant {v : Byte} (hs : Invariant s) (h : illegalCommand v s = .next t) :
    Invariant t := by
  unfold illegalCommand at h
  split at h <;> cases h
  · exact hs
  · exact hs.of_completed (e := some .illegalCommand) ((hs.data.launch v).complete _) (by simp [State.raise])

theorem awaitDone_keepsInvariant (hs : Invariant s) (h : awaitDone s = .next t) : Invariant t := by
  unfold awaitDone at h
  split at h
  · cases h
    exact hs.withHostSide ..
  · split at h <;> cases h
    exact (engineStep_keepsInvariant hs ‹_›).withHostSide ..

theorem statusLegal_zero : StatusLegal 0 := ⟨rfl, by decide, by decide, by decide⟩

theorem resetBlock_invariant (hp : s.params.valid) : Invariant s.resetBlock :=
  invariant_of_idle
    { params := hp
      canonical := fun m => by cases m <;> rfl
      within := fun m => by cases m <;> exact fun c hc => nomatch hc
      lengths := fun m => by cases m <;> exact Nat.zero_le _
      ctrlReserved := show (0 : Byte) &&& 0xFE = 0 by decide }
    statusLegal_zero (show busyField 0 = false by decide)

theorem ctrlWritten_reserved (v : Byte) : ctrlWritten v &&& 0xFE = 0 := by
  revert v
  decide

/-- A launch move answers only with the launch, of a word whose inputs were written (R80, R35). -/
theorem launchMove_eq_next {v : Byte} (h : launchMove v s = .next t) :
    (∀ i, decode v = .ok i → s.inputsWritten i = true) ∧ t = s.launch v := by
  unfold launchMove at h
  cases hv : decode v with
  | error r =>
    simp only [hv] at h
    cases h
    exact ⟨fun i hi => (nomatch hi), rfl⟩
  | ok i =>
    simp only [hv] at h
    split at h <;> cases h
    exact ⟨fun j hj => by cases hj; assumption, rfl⟩

theorem hostMove_keepsInvariant {c : HostMove} (hs : Invariant s) (h : hostMove c s = .next t) : Invariant t := by
  by_cases hc : c = .reset
  · subst hc
    cases h
    exact resetBlock_invariant hs.params
  cases hb : s.busy with
  | true =>
    obtain ⟨d, w, k, hk⟩ := hostMove_busy hb hc
    cases hk.symm.trans h
    exact hs.withHostSide ..
  | false =>
    cases c with
    | writeByte m a v =>
      rcases Nat.lt_or_ge a (s.cap m) with ha | ha
      · cases (hostMove_writeByte hb ha).symm.trans h
        have hw := State.storeByte_wrote (State.storeByte_of_lt v ha)
        exact invariant_of_idle (hs.data.wroteMem hw) (by simpa using hs.status) (by simpa using hb)
      · cases (hostMove_writeByte_beyond hb ha).symm.trans h
    | readByte m a =>
      rcases Nat.lt_or_ge a (s.cap m) with ha | ha
      · cases (hostMove_readByte hb ha).symm.trans h
        exact hs.withHostSide ..
      · cases (hostMove_readByte_beyond hb ha).symm.trans h
    | writeLen m n =>
      rcases Nat.lt_or_ge (s.cap m) n with hn | hn
      · cases (hostMove_writeLen_beyond hb hn).symm.trans h
      · cases (hostMove_writeLen hb hn).symm.trans h
        exact invariant_of_idle (hs.data.setLen hn) (by simpa using hs.status) (by simpa using hb)
    | readLen m =>
      cases (hostMove_readLen hb).symm.trans h
      exact hs.withHostSide ..
    | writeCtrl v =>
      cases (hostMove_writeCtrl hb).symm.trans h
      exact invariant_of_idle ⟨hs.params, hs.canonical, hs.within, hs.lengths, ctrlWritten_reserved v⟩ hs.status hb
    | readCtrl =>
      cases (hostMove_readCtrl hb).symm.trans h
      exact hs.withHostSide ..
    | readStatus =>
      cases h
      exact hs.withHostSide ..
    | writeCmd v =>
      simp only [hostMove, hb, Bool.false_eq_true, if_false] at h
      obtain ⟨hi, rfl⟩ := launchMove_eq_next h
      exact launch_keepsInvariant hs hi
    | reset => exact absurd rfl hc

end Sys2Proof.Machine
end

section
/-! PROOFS. The statements settled: O4, O18, O19, O54, O55. -/

namespace Sys2Proof.Machine

/-- Settles O4: each of the host's actions, and the engine's step, keeps the invariant. -/
theorem everyStepKeepsTheInvariant : Obligations.EveryStepKeepsTheInvariant := by
  intro s t hs h
  have hrest : ∀ rest, Invariant { s with host := rest } := fun rest => hs.withHostSide rest ..
  cases hh : s.host with
  | nil => exact engineStep_keepsInvariant hs ((step_nil hh).symm.trans h)
  | cons action rest =>
    cases action with
    | move c => exact hostMove_keepsInvariant (hrest rest) ((step_move hh).symm.trans h)
    | engine => exact engineStep_keepsInvariant (hrest rest) ((step_engine hh).symm.trans h)
    | run v =>
      cases hv : decode v with
      | ok i => exact exec_keepsInvariant (hrest rest) ((step_run hh hv).symm.trans h)
      | error r => exact illegalCommand_keepsInvariant (hrest rest) ((step_run_illegal hh hv).symm.trans h)
    | await => exact awaitDone_keepsInvariant (hrest rest) ((step_await hh).symm.trans h)
    | ifErrSkip n =>
      cases (step_ifErrSkip hh).symm.trans h
      unfold ifErrSkip
      split
      · exact hs.withHostSide ..
      · exact hrest rest
    | ifErrStop =>
      cases (step_ifErrStop hh).symm.trans h
      unfold ifErrStop
      split
      · exact hs.withHostSide ..
      · exact hrest rest

/-- Settles O18: `step_run` is the first half; the word `withFetchWord` places is `encode i`, and beside it the idle state
is unchanged. -/
theorem aStepRunsTheDecodedCommand : Obligations.AStepRunsTheDecodedCommand := by
  refine ⟨fun s v i rest _ hs hv => step_run hs hv, fun s i hb => ?_⟩
  have hword : BitVec.ofNat 8 ((encode i).toNat % 2 ^ 8) = encode i := by cases i <;> rfl
  have hidle : statusWord s.status false s.done s.err = s.status := by
    rw [← hb]
    exact statusWord_of_fields s.status
  rw [step_run (rest := s.host) (i := i) (by rw [State.withFetchWord, hword]) (decode_encode i)]
  simp only [State.withFetchWord, hidle]

/-- Settles O19: an empty schedule leaves the step to the engine, and an idle engine has none. -/
theorem aStepWithoutHostActionIsTheEngines : Obligations.AStepWithoutHostActionIsTheEngines :=
  fun _ hs => ⟨step_nil hs, fun hb => (step_nil hs).trans (engineStep_idle hb)⟩

/-- On whole pixels the usable slots are exactly those below the length (R10). -/
theorem lt_usable_iff {n k : Nat} (hn : n % 4 = 0) : k < usable n ↔ slotIndex k < n := by
  refine ⟨slotIndex_lt, fun h => ?_⟩
  unfold slotIndex at h
  unfold usable pixels
  omega

/-- Settles O54, from the facts about `slotIndex` and `usable`. -/
theorem slotsEnumerateTheColourCells : Obligations.SlotsEnumerateTheColourCells :=
  ⟨fun _ _ => slotIndex_lt_slotIndex.2,
    fun _ => ⟨fun ⟨j, hj⟩ => hj ▸ slotIndex_mod j, exists_slotIndex⟩,
    by decide,
    fun _ _ => lt_usable_iff⟩

/-- Settles O55: each length byte is a base-256 digit of the length. -/
theorem lengthBytesReadBack : Obligations.LengthBytesReadBack := unbe32_lengthBytes

end Sys2Proof.Machine
end

section
/-! PROOFS. What one engine step can do, by the command in progress, and what no command and no engine step writes: `CTRL`,
`CBLEN` and the parameters. -/

namespace Sys2Proof.Machine

variable {s t : State}

/-- An engine step is none (idle), the completion after an illegal launch, or a step of the command `OPR` names. -/
theorem engineStep_cases (h : engineStep s = .next t) :
    (s.busy = false ∧ t = s) ∨
    (s.busy = true ∧ s.phase = .illegal ∧ t = s.raise .illegalCommand) ∨
    (s.busy = true ∧ s.phase ≠ .illegal ∧ ∃ i, s.opr = opcodeOf i ∧ stepOf i s = .ok t) := by
  unfold engineStep at h
  split at h
  · cases h
    exact .inl ⟨‹_›, rfl⟩
  · have hb : s.busy = true := by simpa using ‹¬ s.busy = false›
    split at h
    · cases h
      exact .inr (.inl ⟨hb, ‹_›, rfl⟩)
    · rw [stepCommand_eq] at h
      cases ho : operationOf s.opr with
      | none =>
        rw [ho] at h
        cases h
      | some i =>
        rw [ho] at h
        exact .inr (.inr ⟨hb, ‹_›, i, operationOf_eq_some.1 ho, outcomeOf_eq_next.1 h⟩)

theorem opcodeOf_injective {i j : Instr} (h : opcodeOf i = opcodeOf j) : i = j := by
  revert h
  cases i <;> cases j <;> decide

/-- The same with the command known from `OPR`. -/
theorem engineStep_cases_of_opr {i : Instr} (ho : s.opr = opcodeOf i) (h : engineStep s = .next t) :
    t = s ∨ t = s.raise .illegalCommand ∨ stepOf i s = .ok t := by
  rcases engineStep_cases h with ⟨-, ht⟩ | ⟨-, -, ht⟩ | ⟨-, -, j, hj, ht⟩
  · exact .inl ht
  · exact .inr (.inl ht)
  · obtain rfl := opcodeOf_injective (ho.symm.trans hj)
    exact .inr (.inr ht)

/-- `CTRL`, `CBLEN` and the parameters, as one value: an update beside them leaves it as it was by `rfl`. -/
def State.controlFields (s : State) : Byte × Nat × Config.Params := (s.ctrl, s.cbLen, s.params)

theorem controlFields_eq_iff :
    t.controlFields = s.controlFields ↔ t.ctrl = s.ctrl ∧ t.cbLen = s.cbLen ∧ t.params = s.params := by
  simp [State.controlFields]

theorem State.storeByte_controlFields {m : MemId} {a : Nat} {b : Byte} (h : s.storeByte m a b = .ok t) :
    t.controlFields = s.controlFields := by
  have hw := State.storeByte_wrote h
  exact controlFields_eq_iff.2 ⟨hw.ctrl, hw.cbLen, hw.params⟩

theorem stepOf_controlFields {i : Instr} (h : stepOf i s = .ok t) : t.controlFields = s.controlFields := by
  cases i with
  | pack =>
    rcases stepPack_cases h with ⟨_, u, -, hu, rfl⟩ | ⟨-, -, _, u, -, hu, rfl⟩ | ⟨-, -, rfl⟩
    · exact (State.storeByte_controlFields hu :)
    · exact (State.storeByte_controlFields hu :)
    · rfl
  | unpack =>
    rcases stepUnpack_cases h with ⟨-, -, rfl⟩ | ⟨-, -, rfl⟩ | ⟨_, _, -, -, rfl⟩ | ⟨-, -, rfl⟩ | ⟨-, -, rfl⟩ |
      ⟨-, -, _, u, -, hu, rfl⟩ | ⟨-, -, rfl⟩
    case inr.inr.inr.inr.inr.inl => exact (State.storeByte_controlFields hu :)
    all_goals rfl
  | embed =>
    rcases stepEmbed_cases h with ⟨-, -, rfl⟩ | ⟨-, -, -, rfl⟩ | ⟨-, -, -, rfl⟩ |
      ⟨-, -, -, _, _, u, -, -, hu, rfl⟩ | ⟨-, -, rfl⟩
    case inr.inr.inr.inl => exact (State.storeByte_controlFields hu :)
    all_goals rfl
  | extract =>
    rcases stepExtract_cases h with ⟨-, -, rfl⟩ | ⟨-, -, rfl⟩ | ⟨-, -, -, _, -, rfl⟩ |
      ⟨-, -, -, _, u, -, hu, rfl⟩ | ⟨-, -, rfl⟩
    case inr.inr.inr.inl => exact (State.storeByte_controlFields hu :)
    all_goals rfl

theorem engineStep_controlFields (h : engineStep s = .next t) : t.controlFields = s.controlFields := by
  rcases engineStep_cases h with ⟨-, rfl⟩ | ⟨-, -, rfl⟩ | ⟨-, -, i, -, hi⟩
  · rfl
  · rfl
  · exact stepOf_controlFields hi

theorem exec_controlFields {i : Instr} (h : exec i s = .next t) : t.controlFields = s.controlFields := by
  cases hb : s.busy with
  | true =>
    cases (exec_busy hb).symm.trans h
    rfl
  | false =>
    cases i with
    | pack =>
      obtain ⟨v, rfl, -⟩ := exec_pack_next hb h
      rfl
    | unpack =>
      rcases exec_unpack_next hb h with ⟨-, rfl⟩ | ⟨-, _, -, -, rfl⟩ | ⟨-, _, -, -, _, rfl, -⟩ <;> rfl
    | embed =>
      rcases exec_embed_next hb h with ⟨-, rfl⟩ | ⟨-, -, rfl⟩ | ⟨-, -, _, rfl, -⟩ <;> rfl
    | extract =>
      rcases exec_extract_next hb h with ⟨-, rfl⟩ | ⟨-, _, _, rfl, -⟩ <;> rfl

end Sys2Proof.Machine
end

section
/-! PROOFS. What EMBED's and EXTRACT's steps keep of their engine registers (R30, R31). -/

namespace Sys2Proof.Machine

variable {s t : State}

/-- Every step of EMBED keeps `SLOT = CUR`: a data step counts both up, and `CUR` does not wrap below `8 * FRMLEN` (R123). -/
theorem stepEmbed_keepsSlotCursor (hs : s.slot = s.cur.toNat) (h : stepEmbed s = .ok t) : t.slot = t.cur.toNat := by
  rcases stepEmbed_cases h with ⟨-, -, rfl⟩ | ⟨-, -, -, rfl⟩ | ⟨-, -, -, rfl⟩ |
    ⟨-, hc, -, f, v, u, -, -, hu, rfl⟩ | ⟨-, -, rfl⟩
  case inr.inr.inr.inl =>
    obtain ⟨-, rfl⟩ := State.storeByte_eq_ok.1 hu
    have hF := s.frmLen.isLt
    simp only [State.setMem]
    bv_omega
  all_goals exact hs

/-- The relations of R30 between EXTRACT's registers. -/
structure AccumulatorOk (s : State) : Prop where
  nb : s.nb.toNat = s.slot % 8
  widx : s.widx.toNat = s.slot / 8
  acc : s.acc.toNat < 2 ^ s.nb.toNat

theorem accumulatorOk_iff : AccumulatorOk s ↔
    s.nb.toNat = s.slot % 8 ∧ s.widx.toNat = s.slot / 8 ∧ s.acc.toNat < 2 ^ s.nb.toNat :=
  ⟨fun h => ⟨h.nb, h.widx, h.acc⟩, fun ⟨h1, h2, h3⟩ => ⟨h1, h2, h3⟩⟩

theorem launch_accumulatorOk (v : Byte) (s : State) : AccumulatorOk (s.launch v) := ⟨rfl, by simp, by simp⟩

/-- An accumulator of `NB` bits holds at most seven of them (R30). -/
theorem acc_lt_of_lt_two_pow_nb (h : s.acc.toNat < 2 ^ s.nb.toNat) : s.acc.toNat < 2 ^ 7 :=
  h.trans_le (Nat.pow_le_pow_right (by omega) (by have := s.nb.isLt; omega))

/-- Every step of EXTRACT keeps the relations of R30: a data step counts `SLOT` up, and either `NB` with one more bit in
`ACC`, or, at the eighth bit, `WIDX` with `ACC` and `NB` back at 0. A store below the capacity keeps `WIDX` from wrapping. -/
theorem stepExtract_keepsAccumulatorOk (hp : s.params.valid) (hs : AccumulatorOk s) (h : stepExtract s = .ok t) :
    AccumulatorOk t := by
  obtain ⟨hnb, hwi, hacc⟩ := hs
  rcases stepExtract_cases h with ⟨-, -, rfl⟩ | ⟨-, -, rfl⟩ | ⟨-, -, h7, v, -, rfl⟩ | ⟨-, -, h7, v, u, -, hu, rfl⟩ |
    ⟨-, -, rfl⟩
  · exact ⟨hnb, hwi, hacc⟩
  · exact ⟨hnb, hwi, hacc⟩
  · have hnb' : (s.nb + 1).toNat = s.nb.toNat + 1 := by bv_omega
    refine ⟨?_, ?_, ?_⟩
    · simp only [hnb']
      omega
    · simp only
      omega
    · simp only [hnb', shiftIn_toNat _ _ (acc_lt_of_lt_two_pow_nb hacc), Nat.pow_succ]
      omega
  · obtain ⟨hcap, rfl⟩ := State.storeByte_eq_ok.1 hu
    have hmsg : s.params.msgCap ≤ 2 ^ 32 - 1 := hp.1
    have hcap' : s.widx.toNat < s.params.msgCap + 4 := hcap
    have hwi' : (s.widx + 1).toNat = s.widx.toNat + 1 := by bv_omega
    refine ⟨?_, ?_, by simp⟩
    · change 0 = (s.slot + 1) % 8
      omega
    · simp only [State.setMem, hwi']
      omega
  · exact ⟨hnb, hwi, hacc⟩

section
variable {v : Byte} (hp : s.phase = .data) (hs : s.slot < 3 * (s.cbLen / 4))
  (hv : s.loadByte .cb (slotIndex s.slot) = .ok v)
include hp hs hv

/-- EXTRACT's data step before the eighth bit (R143). -/
theorem stepExtract_gather (h7 : s.nb.toNat < 7) :
    stepExtract s = .ok { s with acc := shiftIn s.acc (lsb v), nb := s.nb + 1, slot := s.slot + 1 } := by
  unfold stepExtract
  rw [hp]
  exact (if_pos hs).trans (except_bind_eq_ok.2 ⟨v, hv, if_pos h7⟩)

/-- EXTRACT's data step at the eighth bit (R143). -/
theorem stepExtract_store (h7 : ¬ s.nb.toNat < 7) (hst : s.storeByte .frm s.widx.toNat (shiftIn s.acc (lsb v)) = .ok t) :
    stepExtract s = .ok { t with widx := t.widx + 1, acc := 0, nb := 0, slot := t.slot + 1 } := by
  unfold stepExtract
  rw [hp]
  exact (if_pos hs).trans (except_bind_eq_ok.2 ⟨v, hv, (if_neg h7).trans (except_bind_eq_ok.2 ⟨t, hst, rfl⟩)⟩)

end

end Sys2Proof.Machine
end

section
/-! PROOFS. Legal and refused moves of the host (R24, R35), and the engine's run from the launch (R203). -/

namespace Sys2Proof.Machine

theorem resetParams_valid : resetParams.valid := by
  unfold Config.Params.valid resetParams
  decide

/-- A legal length fits its register and is read back (R22 to R24). -/
theorem State.setLen_len_self {s : State} {m : MemId} {n : Nat} (hp : s.params.valid) (hn : n ≤ s.cap m) :
    (s.setLen m n).len m = n := by
  have hmsg : s.params.msgCap ≤ 2 ^ 32 - 1 := hp.1
  cases m with
  | cb => rfl
  | msg =>
    have hn' : n ≤ s.params.msgCap := hn
    exact toNat_ofNat_lt (by omega)
  | frm =>
    have hn' : n ≤ s.params.msgCap + 4 := hn
    exact toNat_ofNat_lt (by omega)

/-- A legal HostWriteLen as a step: the length register holds the length, the memories are as they were (R62). -/
theorem step_writeLen {s : State} {m : MemId} {n : Nat} {rest : List HostAction} (hb : s.busy = false)
    (hh : s.host = .move (.writeLen m n) :: rest) (hn : n ≤ s.cap m) :
    ∃ t, step s = .next t ∧ t.host = rest ∧ t.busy = false ∧ t.params = s.params ∧ (∀ j, t.mem j = s.mem j) ∧
      (s.params.valid → t.len m = n) := by
  refine ⟨_, (step_move hh).trans (hostMove_writeLen hb hn), State.setLen_host .., (State.setLen_busy ..).trans hb,
    State.setLen_params .., fun j => (State.setLen_mem ..).trans (by cases j <;> rfl), fun hp => ?_⟩
  exact State.setLen_len_self hp hn

/-- One input cell without a value makes the launch premise of R35 false. -/
theorem State.inputsWritten_eq_false {s : State} {i : Instr} {m : MemId} {a : Nat} (hm : m ∈ inputsOf i)
    (ha : a < s.len m) (h : (s.mem m).read a = none) : s.inputsWritten i = false := by
  refine Bool.eq_false_iff.2 fun hw => ?_
  obtain ⟨b, hb⟩ := State.inputsWritten_read hw hm ha
  rw [h] at hb
  cases hb

/-- The raw launch over an unwritten input is refused (R35). -/
theorem hostMove_writeCmd_unwritten {s : State} {i : Instr} (hb : s.busy = false) (hw : s.inputsWritten i = false) :
    hostMove (.writeCmd (encode i)) s = .refused .inputCellUnwritten := by
  simp [hostMove, launchMove, hb, hw]

theorem stepCount_launch (i : Instr) (v : Byte) (s : State) : stepCount i (s.launch v) = stepCount i s := by
  cases i <;> rfl

/-- From the launch the engine's steps, as many as R203 counts, give what the command's body gives. -/
theorem runEngine_body {i : Instr} {s t : State} (hr : Ready i s) (h : bodyOf i (s.launch (encode i)) = .ok t) :
    runEngine (stepCount i s) (s.launch (encode i)) = .next t := by
  have hb : (s.launch (encode i)).busy = true := s.launch_busy _
  rw [← stepCount_launch i (encode i)]
  cases i with
  | pack => exact runEngine_pack hb rfl rfl rfl h
  | unpack => exact runEngine_unpack hb rfl rfl rfl h
  | embed => exact runEngine_embed hb rfl rfl rfl rfl h
  | extract =>
    refine runEngine_extract hb rfl rfl rfl rfl rfl rfl (extracted_fits hr.params (hr.lengths .cb)).2 (fun m hm => ?_) h
    have hlt : slotIndex m < s.len .cb := slotIndex_lt hm
    obtain ⟨b, hread⟩ := State.inputsWritten_read (m := .cb) hr.inputs (by simp [inputsOf]) hlt
    exact ⟨b, State.loadByte_eq_ok.2 ⟨hlt.trans_le (hr.lengths .cb), hread⟩⟩

end Sys2Proof.Machine
end

section
/-! PROOFS. The statements settled: O1, O2, O7, O11, O13, O20, O44, O56, O57. -/

namespace Sys2Proof.Machine

/-- Settles O1: the values by computation, the step because the schedule is empty and the engine idle. -/
theorem resetLeavesTheTabledValues : Obligations.ResetLeavesTheTabledValues :=
  ⟨rfl, rfl, rfl, rfl, rfl, fun m a => by cases m <;> rfl, by decide, (step_nil rfl).trans (engineStep_idle (by decide))⟩

/-- Settles O2: beside the host's side and the counters, reset leaves what the `Reset` move leaves. -/
theorem resetMeetsTheInvariant : Obligations.ResetMeetsTheInvariant :=
  (resetBlock_invariant (s := State.reset) resetParams_valid).withHostSide [] none none 0 0

/-- Settles O7, from the frames of `exec` and `engineStep` on `State.controlFields`. -/
theorem commandsNeverWriteControlOrBufferLength : Obligations.CommandsNeverWriteControlOrBufferLength :=
  ⟨fun _ _ _ h => controlFields_eq_iff.1 (exec_controlFields h),
    fun _ _ h => controlFields_eq_iff.1 (engineStep_controlFields h)⟩

/-- Settles O11: each clause is one refusal of `hostMove`. -/
theorem movesBeyondTheCapacityAreRefused : Obligations.MovesBeyondTheCapacityAreRefused :=
  fun s rest _ hb =>
    ⟨fun _ hn => (step_move rfl).trans (hostMove_writeLen_beyond (s := { s with host := rest }) hb hn),
      fun _ _ ha => (step_move rfl).trans (hostMove_writeByte_beyond (s := { s with host := rest }) hb ha),
      fun _ ha => (step_move rfl).trans (hostMove_readByte_beyond (s := { s with host := rest }) hb ha)⟩

/-- Settles O13: both writes are legal, and neither touches a memory. -/
theorem lengthWritesKeepTheCells : Obligations.LengthWritesKeepTheCells := by
  intro s m n k hb _ hn hk
  obtain ⟨u, hu, hhost, hbusy, hparams, hmem, -⟩ :=
    step_writeLen (s := { s with host := [.move (.writeLen m n), .move (.writeLen m k)] }) hb rfl hn
  obtain ⟨t, ht, hhost', -, -, hmem', hlen⟩ := step_writeLen hbusy hhost (by simpa [State.cap, hparams] using hk)
  refine ⟨t, by rw [run_succ hu, run_succ ht, run_zero], hhost', fun j => ?_, fun hp => hlen (hparams ▸ hp)⟩
  rw [hmem', hmem]
  cases j <;> rfl

/-- Settles O20: an input cell without a value makes the premise false, and on canonical memories nothing else does. -/
theorem unwrittenInputsAreRefused : Obligations.UnwrittenInputsAreRefused := by
  intro i s
  refine ⟨fun ⟨m, hm, a, ha, hr⟩ hb => ?_, fun hwf h => State.inputsWritten_of_read (fun m _ => hwf m) h⟩
  have hw := State.inputsWritten_eq_false hm ha hr
  refine ⟨exec_unwritten hb hw, fun rest => (step_move rfl).trans ?_⟩
  exact hostMove_writeCmd_unwritten (s := { s with host := rest }) hb (by cases i <;> exact hw)

/-- Settles O56: an engine step with `OPR` 3 is none, a completion, or a step of EMBED. -/
theorem embedKeepsSlotEqualToTheCursor : Obligations.EmbedKeepsSlotEqualToTheCursor := by
  refine ⟨fun _ _ => rfl, fun s t ho hs h => ?_⟩
  rcases engineStep_cases_of_opr (i := .embed) ho h with rfl | rfl | h
  · exact hs
  · exact hs
  · exact stepEmbed_keepsSlotCursor hs h

/-- Settles O57: `AccumulatorOk` is what a launch sets up and a step keeps; `shiftIn_toNat` gives the value of a data step. -/
theorem extractKeepsTheAccumulatorRelations : Obligations.ExtractKeepsTheAccumulatorRelations := by
  refine ⟨fun v s _ ht => ht ▸ accumulatorOk_iff.1 (launch_accumulatorOk v s), fun s t hp ho hnb hwi hacc h => ?_,
    fun s v hb ho hp hs hc hv hacc => ?_⟩
  · have hok : AccumulatorOk s := ⟨hnb, hwi, hacc⟩
    refine accumulatorOk_iff.1 ?_
    rcases engineStep_cases_of_opr (i := .extract) ho h with rfl | rfl | h
    · exact hok
    · exact ⟨hnb, hwi, hacc⟩
    · exact stepExtract_keepsAccumulatorOk hp hok h
  · have hstep : ∀ {t}, stepExtract s = .ok t → engineStep s = .next t :=
      engineStep_ok (i := .extract) hb (by simp [hp]) ho
    have hslot : slotIndex s.slot < s.len .cb := slotIndex_lt hs
    have hload : s.loadByte .cb (slotIndex s.slot) = .ok v := State.loadByte_eq_ok.2 ⟨by omega, hv⟩
    have hvalue := shiftIn_toNat s.acc v (acc_lt_of_lt_two_pow_nb hacc)
    refine ⟨fun h7 => ⟨_, hstep (stepExtract_gather hp hs hload h7), hvalue⟩, fun h7 hw => ?_⟩
    have hst := State.storeByte_of_lt (shiftIn s.acc (lsb v)) hw
    exact ⟨_, _, hstep (stepExtract_store hp hs hload (by omega) hst), by simp [State.setMem], hvalue⟩

/-- Settles O44: both ways give what the command's body gives on the launched state. -/
theorem engineStepsRealiseTheCommand : Obligations.EngineStepsRealiseTheCommand := by
  intro i s hr
  obtain ⟨t, ht⟩ := bodyOf_total hr
  refine ⟨t, ?_, runEngine_body hr ht⟩
  rw [exec_eq_issue, issue_eq hr.idle hr.inputs, ht]
  rfl

end Sys2Proof.Machine
end

section
/-! PROOFS. Which way each command goes, by the condition on the state it is issued in, and what it leaves in its output: read
off `exec_unpack_next`, `exec_embed_next` and `exec_extract_next`. -/

namespace Sys2Proof.Machine

variable {s t : State}

section
variable (hb : s.busy = false)
include hb

/-- PACK's output, whatever the payload (R100). -/
theorem exec_pack_output (h : exec .pack s = .next t) :
    t.err = 0 ∧ t.frmLen.toNat = 4 + s.msgLen.toNat ∧ ∀ x < 4 + s.msgLen.toNat,
      t.frm.read x = if x < 4 then some (lengthByte s.msgLen x) else s.msg.read (x - 4) := by
  obtain ⟨v, rfl, -, -, hv⟩ := exec_pack_next hb h
  refine ⟨by simp [State.err], toNat_frameLength _, fun x hx => ?_⟩
  simp only [hv, if_pos hx]

/-- UNPACK on a bad frame (R172). -/
theorem exec_unpack_bad (hbad : s.frameBad) (h : exec .unpack s = .next t) : t.err = 2 := by
  rcases exec_unpack_next hb h with ⟨-, rfl⟩ | ⟨-, L, -, -, rfl⟩ | ⟨h4, L, hL, hle, v, rfl, -⟩
  · simp [State.err]
  · simp [State.err]
  · rcases hbad with hlt | ⟨L', hL', hlt⟩
    · omega
    · cases hL.symm.trans hL'
      omega

/-- UNPACK's output on a good frame (R104). -/
theorem exec_unpack_good (hgood : ¬ s.frameBad) (h : exec .unpack s = .next t) :
    t.err = 0 ∧ ∃ L, s.headerLength = some L ∧ 4 + L ≤ s.frmLen.toNat ∧ t.msgLen.toNat = L ∧
      ∀ x < L, t.msg.read x = s.frm.read (4 + x) := by
  rcases exec_unpack_next hb h with ⟨hlt, -⟩ | ⟨-, L, hL, hlt, -⟩ | ⟨-, L, hL, hle, v, rfl, -, -, hv⟩
  · exact absurd (.inl hlt) hgood
  · exact absurd (.inr ⟨L, hL, hlt⟩) hgood
  · refine ⟨by simp [State.err], L, hL, hle, toNat_ofNat_lt (State.headerLength_lt hL), fun x hx => ?_⟩
    simp only [hv, if_pos hx]

/-- EMBED on a ragged channel buffer (R173). -/
theorem exec_embed_ragged (h4 : s.cbLen % 4 ≠ 0) (h : exec .embed s = .next t) : t.err = 3 := by
  rcases exec_embed_next hb h with ⟨-, rfl⟩ | ⟨h0, -⟩ | ⟨h0, -⟩
  · simp [State.err]
  · exact absurd h0 h4
  · exact absurd h0 h4

/-- EMBED of a frame too long (R171). -/
theorem exec_embed_tooLong (hlong : s.frameTooLong) (h : exec .embed s = .next t) : t.err = 1 := by
  obtain ⟨htr, h0, hlen⟩ := hlong
  rcases exec_embed_next hb h with ⟨h4, -⟩ | ⟨-, -, rfl⟩ | ⟨-, hfit, -⟩
  · exact absurd h0 h4
  · simp [State.err]
  · exact absurd ⟨htr, hlen⟩ hfit

/-- EMBED's output where it embeds: the bits of the frame in the slots, every other cell as it was (R120). -/
theorem exec_embed_fits (h0 : s.cbLen % 4 = 0) (hfit : ¬ s.frameTooLong) (h : exec .embed s = .next t) :
    t.err = 0 ∧ t.cbLen = s.cbLen ∧
      (∀ k < s.slotsWritten, ∃ f b, s.frm.read (k / 8) = some f ∧ s.cb.read (slotIndex k) = some b ∧
        t.cb.read (slotIndex k) = some (setLsb b (cursorBit f k))) ∧
      ∀ x, (∀ k < s.slotsWritten, x ≠ slotIndex k) → t.cb.read x = s.cb.read x := by
  rcases exec_embed_next hb h with ⟨h4, -⟩ | ⟨-, ⟨htr, hlen⟩, -⟩ | ⟨-, -, v, rfl, -, -, hbits, hrest⟩
  · exact absurd h0 h4
  · exact absurd ⟨htr, h0, hlen⟩ hfit
  · exact ⟨by simp [State.err], rfl, hbits, hrest⟩

/-- EXTRACT on a ragged channel buffer (R173). -/
theorem exec_extract_ragged (h4 : s.cbLen % 4 ≠ 0) (h : exec .extract s = .next t) : t.err = 3 := by
  rcases exec_extract_next hb h with ⟨-, rfl⟩ | ⟨h0, -⟩
  · simp [State.err]
  · exact absurd h0 h4

/-- EXTRACT's output on whole pixels: the gathered bytes (R140). -/
theorem exec_extract_pixels (h0 : s.cbLen % 4 = 0) (h : exec .extract s = .next t) :
    t.err = 0 ∧ t.frmLen = BitVec.ofNat 33 (usable s.cbLen / 8) ∧
      ∀ j < usable s.cbLen / 8, ∃ b, gatherBits s (8 * j) 8 = .ok b ∧ t.frm.read j = some b := by
  rcases exec_extract_next hb h with ⟨h4, -⟩ | ⟨-, v, left, rfl, -, -, -, hbytes, -⟩
  · exact absurd h0 h4
  · exact ⟨by simp [State.err], rfl, hbytes⟩

end

/-- Gathered bits are fixed by the slots' bits (R75). -/
theorem gatherBits_unique {s' : State} {j n : Nat} {b b' : Byte} (h : gatherBits s j n = .ok b)
    (h' : gatherBits s' j n = .ok b') (hn : n ≤ 8)
    (hbits : ∀ k < n, slotBit s'.cb (j + k) = slotBit s.cb (j + k)) : b' = b := by
  obtain ⟨-, hsum, -⟩ := gatherBits_spec h hn
  obtain ⟨-, hsum', -⟩ := gatherBits_spec h' hn
  apply BitVec.eq_of_toNat_eq
  rw [hsum, hsum']
  exact Finset.sum_congr rfl fun k hk => by rw [hbits k (Finset.mem_range.1 hk)]

end Sys2Proof.Machine
end

section
/-! PROOFS. The statement settled: O42. Two states with the same inputs go the same way through a command, and leave the same
output. -/

namespace Sys2Proof.Machine

variable {s s' t t' : State}

/-- Two completions with the same error code, and the same output if it is 0, are the same result. -/
theorem sameResult_of_exec {i : Instr} (hr : Ready i s) (hr' : Ready i s') (h : exec i s = .next t)
    (h' : exec i s' = .next t') (herr : t'.err = t.err)
    (hout : t.err = 0 → t'.len (outputOf i) = t.len (outputOf i) ∧
      ∀ a < t.len (outputOf i), (t'.mem (outputOf i)).read a = (t.mem (outputOf i)).read a) : SameResult i t t' := by
  obtain ⟨e, hc, -⟩ := exec_completed hr.idle h
  obtain ⟨e', hc', -⟩ := exec_completed hr'.idle h'
  exact ⟨hc'.busy.trans hc.busy.symm, hc'.done.trans hc.done.symm, herr, hout⟩

/-- The same error code, other than 0, is the same result. -/
theorem sameResult_of_error {i : Instr} {c : BitVec 3} (hr : Ready i s) (hr' : Ready i s') (h : exec i s = .next t)
    (h' : exec i s' = .next t') (hc : c ≠ 0) (he : t.err = c) (he' : t'.err = c) : SameResult i t t' :=
  sameResult_of_exec hr hr' h h' (he'.trans he.symm) fun h0 => absurd (he.symm.trans h0) hc

theorem frameBad_congr (hl : s'.frmLen.toNat = s.frmLen.toNat) (hc : ∀ a < s.frmLen.toNat, s'.frm.read a = s.frm.read a) :
    s'.frameBad ↔ s.frameBad := by
  unfold State.frameBad
  rw [hl]
  refine or_congr_right' fun h4 => ?_
  rw [State.headerLength_congr fun a ha => hc a (by omega)]

theorem pack_sameResult (hr : Ready .pack s) (hr' : Ready .pack s') (hin : SameInputs .pack s s')
    (h : exec .pack s = .next t) (h' : exec .pack s' = .next t') : SameResult .pack t t' := by
  obtain ⟨hlen, hcell⟩ : s'.msgLen.toNat = s.msgLen.toNat ∧ ∀ a < s.msgLen.toNat, s'.msg.read a = s.msg.read a :=
    hin.1 .msg (by simp [inputsOf])
  obtain ⟨he, hl, hf⟩ := exec_pack_output hr.idle h
  obtain ⟨he', hl', hf'⟩ := exec_pack_output hr'.idle h'
  refine sameResult_of_exec hr hr' h h' (he'.trans he.symm) fun _ => ⟨?_, fun a ha => ?_⟩
  · exact hl'.trans (by rw [hlen, ← hl]; rfl)
  · have ha' : a < 4 + s.msgLen.toNat := hl ▸ ha
    refine (hf' a (hlen ▸ ha')).trans (Eq.trans ?_ (hf a ha').symm)
    rw [BitVec.eq_of_toNat_eq hlen]
    split
    · rfl
    · exact hcell _ (by omega)

theorem unpack_sameResult (hr : Ready .unpack s) (hr' : Ready .unpack s') (hin : SameInputs .unpack s s')
    (h : exec .unpack s = .next t) (h' : exec .unpack s' = .next t') : SameResult .unpack t t' := by
  obtain ⟨hlen, hcell⟩ : s'.frmLen.toNat = s.frmLen.toNat ∧ ∀ a < s.frmLen.toNat, s'.frm.read a = s.frm.read a :=
    hin.1 .frm (by simp [inputsOf])
  have hiff := frameBad_congr hlen hcell
  by_cases hbad : s.frameBad
  · exact sameResult_of_error hr hr' h h' (by decide) (exec_unpack_bad hr.idle hbad h)
      (exec_unpack_bad hr'.idle (hiff.2 hbad) h')
  · obtain ⟨he, L, hL, hle, hm, hf⟩ := exec_unpack_good hr.idle hbad h
    obtain ⟨he', L', hL', -, hm', hf'⟩ := exec_unpack_good hr'.idle (hbad ∘ hiff.1) h'
    rw [State.headerLength_congr fun a ha => hcell a (by omega)] at hL'
    cases hL.symm.trans hL'
    refine sameResult_of_exec hr hr' h h' (he'.trans he.symm) fun _ => ⟨hm'.trans hm.symm, fun a ha => ?_⟩
    have ha' : a < L := hm ▸ ha
    exact (hf' a ha').trans ((hcell _ (by omega)).trans (hf a ha').symm)

theorem embed_sameResult (hr : Ready .embed s) (hr' : Ready .embed s') (hin : SameInputs .embed s s')
    (h : exec .embed s = .next t) (h' : exec .embed s' = .next t') : SameResult .embed t t' := by
  obtain ⟨hmem, htrunc⟩ := hin
  obtain ⟨hclen, hccell⟩ : s'.cbLen = s.cbLen ∧ ∀ a < s.cbLen, s'.cb.read a = s.cb.read a :=
    hmem .cb (by simp [inputsOf])
  obtain ⟨hflen, hfcell⟩ : s'.frmLen.toNat = s.frmLen.toNat ∧ ∀ a < s.frmLen.toNat, s'.frm.read a = s.frm.read a :=
    hmem .frm (by simp [inputsOf])
  have hlong : s'.frameTooLong ↔ s.frameTooLong := by
    unfold State.frameTooLong
    rw [htrunc rfl, hclen, hflen]
  have hslots : s'.slotsWritten = s.slotsWritten := by
    unfold State.slotsWritten State.bitsRequired
    rw [hclen, hflen]
  by_cases h0 : s.cbLen % 4 = 0
  · by_cases hl : s.frameTooLong
    · exact sameResult_of_error hr hr' h h' (by decide) (exec_embed_tooLong hr.idle hl h)
        (exec_embed_tooLong hr'.idle (hlong.2 hl) h')
    · obtain ⟨he, hc, hbits, hrest⟩ := exec_embed_fits hr.idle h0 hl h
      obtain ⟨he', hc', hbits', hrest'⟩ := exec_embed_fits hr'.idle (hclen ▸ h0) (hl ∘ hlong.1) h'
      rw [hslots] at hbits' hrest'
      refine sameResult_of_exec hr hr' h h' (he'.trans he.symm) fun _ => ⟨hc'.trans (hclen.trans hc.symm), fun a ha => ?_⟩
      have ha' : a < s.cbLen := hc ▸ ha
      by_cases hslot : ∃ k < s.slotsWritten, a = slotIndex k
      · obtain ⟨k, hk, rfl⟩ := hslot
        obtain ⟨f, b, hf, hb, ht⟩ := hbits k hk
        obtain ⟨f', b', hf', hb', ht'⟩ := hbits' k hk
        have hkf : k < 8 * s.frmLen.toNat := hk.trans_le (Nat.min_le_left ..)
        rw [hfcell _ (by omega), hf] at hf'
        rw [hccell _ ha', hb] at hb'
        cases hf'
        cases hb'
        exact ht'.trans ht.symm
      · have hout : ∀ k < s.slotsWritten, a ≠ slotIndex k := fun k hk he => hslot ⟨k, hk, he⟩
        exact (hrest' a hout).trans ((hccell a ha').trans (hrest a hout).symm)
  · exact sameResult_of_error hr hr' h h' (by decide) (exec_embed_ragged hr.idle h0 h)
      (exec_embed_ragged hr'.idle (hclen ▸ h0) h')

theorem extract_sameResult (hr : Ready .extract s) (hr' : Ready .extract s') (hin : SameInputs .extract s s')
    (h : exec .extract s = .next t) (h' : exec .extract s' = .next t') : SameResult .extract t t' := by
  obtain ⟨hlen, hcell⟩ : s'.cbLen = s.cbLen ∧ ∀ a < s.cbLen, s'.cb.read a = s.cb.read a :=
    hin.1 .cb (by simp [inputsOf])
  have hbit : ∀ k < usable s.cbLen, slotBit s'.cb k = slotBit s.cb k := fun k hk => by
    simp only [slotBit, hcell _ (slotIndex_lt hk)]
  by_cases h0 : s.cbLen % 4 = 0
  · obtain ⟨he, hl, hbytes⟩ := exec_extract_pixels hr.idle h0 h
    obtain ⟨he', hl', hbytes'⟩ := exec_extract_pixels hr'.idle (hlen ▸ h0) h'
    rw [hlen] at hl' hbytes'
    refine sameResult_of_exec hr hr' h h' (he'.trans he.symm) fun _ => ⟨by simp [outputOf, hl, hl'], fun a ha => ?_⟩
    have ha' : a < usable s.cbLen / 8 :=
      toNat_ofNat_lt (extracted_fits hr.params (hr.lengths .cb)).2 ▸ hl ▸ ha
    obtain ⟨b, hg, hf⟩ := hbytes a ha'
    obtain ⟨b', hg', hf'⟩ := hbytes' a ha'
    obtain rfl := gatherBits_unique hg hg' (by omega) fun k hk => hbit _ (by omega)
    exact hf'.trans hf.symm
  · exact sameResult_of_error hr hr' h h' (by decide) (exec_extract_ragged hr.idle h0 h)
      (exec_extract_ragged hr'.idle (hlen ▸ h0) h')

/-- Settles O42: one lemma for each command. -/
theorem resultDependsOnInputsOnly : Obligations.ResultDependsOnInputsOnly := by
  intro i s s' hr hr' hin
  obtain ⟨t, h⟩ := exec_total hr
  obtain ⟨t', h'⟩ := exec_total hr'
  refine ⟨t, t', h, h', ?_⟩
  cases i with
  | pack => exact pack_sameResult hr hr' hin h h'
  | unpack => exact unpack_sameResult hr hr' hin h h'
  | embed => exact embed_sameResult hr hr' hin h h'
  | extract => exact extract_sameResult hr hr' hin h h'

end Sys2Proof.Machine
end

section
/-! PROOFS. What a command writes beside its output, said once for all four: nothing of the data, not the reserved bits of
`STATUS`, not the host's side (R50). -/

namespace Sys2Proof.Machine

variable {s t : State} {i : Instr} {m d : MemId}

theorem SameData.mem (h : SameData s t) (m : MemId) : t.mem m = s.mem m := by
  cases m with
  | cb => exact h.cb
  | msg => exact h.msg
  | frm => exact h.frm

theorem SameData.len (h : SameData s t) (m : MemId) : t.len m = s.len m := by
  cases m with
  | cb => exact h.cbLen
  | msg => exact congrArg BitVec.toNat h.msgLen
  | frm => exact congrArg BitVec.toNat h.frmLen

/-- The parameters, the memories, their lengths and `CTRL` are all of the data. -/
theorem sameData_of_mem_len (hp : t.params = s.params) (hc : t.ctrl = s.ctrl) (hm : ∀ m, t.mem m = s.mem m)
    (hl : ∀ m, t.len m = s.len m) : SameData s t :=
  ⟨hp, hm .cb, hm .msg, hm .frm, hl .cb, BitVec.eq_of_toNat_eq (hl .msg), BitVec.eq_of_toNat_eq (hl .frm), hc⟩

theorem State.setLen_len_ne (s : State) (hm : m ≠ d) (n : Nat) : (s.setLen d n).len m = s.len m :=
  (s.setLen_len_le d m n).resolve_left fun h => hm h.1

/-- The state with memory `d` emptied and its length 0: two states that agree once it is erased differ in `d` alone. -/
def State.eraseMem (s : State) (d : MemId) : State := (s.setMem d []).setLen d 0

theorem mem_len_eq_of_eraseMem (h : (t.eraseMem d).dataFields = (s.eraseMem d).dataFields) (hm : m ≠ d) :
    t.mem m = s.mem m ∧ t.len m = s.len m := by
  have hs := sameData_of_dataFields h
  have hmem := hs.mem m
  have hlen := hs.len m
  simp only [State.eraseMem, State.setLen_mem, State.setMem_mem_ne _ hm] at hmem
  simp only [State.eraseMem, State.setLen_len_ne _ hm, State.setMem_len] at hlen
  exact ⟨hmem, hlen⟩

/-- Beside its output memory and that memory's length a command changes no data, and only UNPACK writes `LREG`. -/
theorem exec_besideOutput (h : exec i s = .next t) :
    (t.eraseMem (outputOf i)).dataFields = (s.eraseMem (outputOf i)).dataFields ∧ (i ≠ .unpack → t.lreg = s.lreg) := by
  cases hb : s.busy with
  | true =>
    cases (exec_busy hb).symm.trans h
    exact ⟨rfl, fun _ => rfl⟩
  | false =>
    cases i with
    | pack =>
      obtain ⟨v, rfl, -⟩ := exec_pack_next hb h
      exact ⟨rfl, fun _ => rfl⟩
    | unpack =>
      refine ⟨?_, fun hne => absurd rfl hne⟩
      rcases exec_unpack_next hb h with ⟨-, rfl⟩ | ⟨-, _, -, -, rfl⟩ | ⟨-, _, -, -, _, rfl, -⟩ <;> rfl
    | embed =>
      rcases exec_embed_next hb h with ⟨-, rfl⟩ | ⟨-, -, rfl⟩ | ⟨-, -, _, rfl, -⟩ <;> exact ⟨rfl, fun _ => rfl⟩
    | extract =>
      rcases exec_extract_next hb h with ⟨-, rfl⟩ | ⟨-, _, _, rfl, -⟩ <;> exact ⟨rfl, fun _ => rfl⟩

/-- A command writes no memory but its output, and no other memory's length (R50). -/
theorem exec_mem_len_ne (h : exec i s = .next t) (hm : m ≠ outputOf i) : t.mem m = s.mem m ∧ t.len m = s.len m :=
  mem_len_eq_of_eraseMem (exec_besideOutput h).1 hm

theorem exec_mem_ne (h : exec i s = .next t) (hm : m ≠ outputOf i) : t.mem m = s.mem m := (exec_mem_len_ne h hm).1

theorem exec_msgLen (h : exec i s = .next t) (hi : .msg ≠ outputOf i) : t.msgLen = s.msgLen :=
  BitVec.eq_of_toNat_eq (exec_mem_len_ne h hi).2

theorem exec_frmLen (h : exec i s = .next t) (hi : .frm ≠ outputOf i) : t.frmLen = s.frmLen :=
  BitVec.eq_of_toNat_eq (exec_mem_len_ne h hi).2

theorem exec_reserved (h : exec i s = .next t) : reservedField t.status = reservedField s.status := by
  cases hb : s.busy with
  | true =>
    cases (exec_busy hb).symm.trans h
    rfl
  | false =>
    obtain ⟨e, hc, -⟩ := exec_completed hb h
    exact hc.reserved

theorem exec_sameHost (h : exec i s = .next t) : SameHost s t := by
  rw [exec_host h]
  exact ⟨rfl, rfl, rfl, rfl, rfl⟩

end Sys2Proof.Machine
end

section
/-! PROOFS. The statements settled: O23, O26, O33, O37. The frame of each command: beside its output by the lemmas above, and
which cells of its output it leaves. -/

namespace Sys2Proof.Machine

variable {s t : State}

/-- PACK leaves `FRM` as it was beyond the frame (R100). -/
theorem exec_pack_frm_beyond {a : Nat} (h : exec .pack s = .next t) (ha : 4 + s.msgLen.toNat ≤ a) :
    t.frm.read a = s.frm.read a := by
  cases hb : s.busy with
  | true =>
    cases (exec_busy hb).symm.trans h
    rfl
  | false =>
    obtain ⟨v, rfl, -, -, hv⟩ := exec_pack_next hb h
    simp only [hv, if_neg (show ¬ a < 4 by omega), if_neg (Nat.not_lt.2 ha)]

/-- Settles O23: beside `FRM` by the facts about every command, in `FRM` by `exec_pack_frm_beyond`. -/
theorem packFrame : Obligations.PackFrame := by
  intro s t h
  obtain ⟨hctrl, hcbLen, hparams⟩ := controlFields_eq_iff.1 (exec_controlFields h)
  exact ⟨hparams, exec_mem_ne (m := .cb) h (by decide), exec_mem_ne (m := .msg) h (by decide), hcbLen,
    exec_msgLen h (by decide), hctrl, (exec_besideOutput h).2 (by decide), exec_reserved h, exec_sameHost h,
    fun _ => exec_pack_frm_beyond h⟩

/-- What UNPACK leaves of `MSG`, `MSGLEN` and `LREG`: by which of the two checks fails, if one does (R104). -/
theorem exec_unpack_keeps (h : exec .unpack s = .next t) :
    (∀ a, (∀ L, s.headerLength = some L → L ≤ a) → t.msg.read a = s.msg.read a) ∧
      (s.frameBad → t.msg = s.msg ∧ t.msgLen = s.msgLen) ∧ (s.frmLen.toNat < 4 → t.lreg = s.lreg) := by
  cases hb : s.busy with
  | true =>
    cases (exec_busy hb).symm.trans h
    exact ⟨fun _ _ => rfl, fun _ => ⟨rfl, rfl⟩, fun _ => rfl⟩
  | false =>
    rcases exec_unpack_next hb h with ⟨-, rfl⟩ | ⟨h4, L, -, -, rfl⟩ | ⟨h4, L, hL, hle, v, rfl, -, -, hv⟩
    · exact ⟨fun _ _ => rfl, fun _ => ⟨rfl, rfl⟩, fun _ => rfl⟩
    · exact ⟨fun _ _ => rfl, fun _ => ⟨rfl, rfl⟩, fun hlt => absurd hlt (Nat.not_lt.2 h4)⟩
    · refine ⟨fun a ha => (hv a).trans (if_neg (Nat.not_lt.2 (ha L hL))), fun hbad => ?_,
        fun hlt => absurd hlt (Nat.not_lt.2 h4)⟩
      rcases hbad with hlt | ⟨L', hL', hlt⟩
      · omega
      · cases hL.symm.trans hL'
        omega

/-- Settles O26: beside `MSG` by the facts about every command, in `MSG` by `exec_unpack_keeps`. -/
theorem unpackFrame : Obligations.UnpackFrame := by
  intro s t h
  obtain ⟨hctrl, hcbLen, hparams⟩ := controlFields_eq_iff.1 (exec_controlFields h)
  exact ⟨hparams, exec_mem_ne (m := .cb) h (by decide), exec_mem_ne (m := .frm) h (by decide), hcbLen,
    exec_frmLen h (by decide), hctrl, exec_reserved h, exec_sameHost h, exec_unpack_keeps h⟩

/-- EMBED leaves every cell of `CB` that is not a slot it writes (R120). -/
theorem exec_embed_cb_beside {a : Nat} (h : exec .embed s = .next t) (ha : ∀ k < s.slotsWritten, a ≠ slotIndex k) :
    t.cb.read a = s.cb.read a := by
  cases hb : s.busy with
  | true =>
    cases (exec_busy hb).symm.trans h
    rfl
  | false =>
    rcases exec_embed_next hb h with ⟨-, rfl⟩ | ⟨-, -, rfl⟩ | ⟨-, -, v, rfl, -, -, -, hv⟩
    · rfl
    · rfl
    · exact hv a ha

/-- Settles O33: beside `CB` by the facts about every command, in `CB` by `exec_embed_cb_beside`. -/
theorem embedFrame : Obligations.EmbedFrame := by
  intro s t h
  obtain ⟨hctrl, hcbLen, hparams⟩ := controlFields_eq_iff.1 (exec_controlFields h)
  exact ⟨hparams, exec_mem_ne (m := .msg) h (by decide), exec_mem_ne (m := .frm) h (by decide), hcbLen,
    exec_msgLen h (by decide), exec_frmLen h (by decide), hctrl, (exec_besideOutput h).2 (by decide), exec_reserved h,
    exec_sameHost h, fun _ => exec_embed_cb_beside h⟩

/-- EXTRACT leaves `FRM` as it was beyond the bytes it produces, and altogether on a bad shape (R140). -/
theorem exec_extract_keeps (h : exec .extract s = .next t) :
    (∀ a, usable s.cbLen / 8 ≤ a → t.frm.read a = s.frm.read a) ∧
      (s.cbLen % 4 ≠ 0 → t.frm = s.frm ∧ t.frmLen = s.frmLen) := by
  cases hb : s.busy with
  | true =>
    cases (exec_busy hb).symm.trans h
    exact ⟨fun _ _ => rfl, fun _ => ⟨rfl, rfl⟩⟩
  | false =>
    rcases exec_extract_next hb h with ⟨-, rfl⟩ | ⟨h0, v, left, rfl, -, -, -, -, hv⟩
    · exact ⟨fun _ _ => rfl, fun _ => ⟨rfl, rfl⟩⟩
    · exact ⟨hv, fun h4 => absurd h0 h4⟩

/-- Settles O37: beside `FRM` by the facts about every command, in `FRM` by `exec_extract_keeps`. -/
theorem extractFrame : Obligations.ExtractFrame := by
  intro s t h
  obtain ⟨hctrl, hcbLen, hparams⟩ := controlFields_eq_iff.1 (exec_controlFields h)
  exact ⟨hparams, exec_mem_ne (m := .cb) h (by decide), exec_mem_ne (m := .msg) h (by decide), hcbLen,
    exec_msgLen h (by decide), hctrl, (exec_besideOutput h).2 (by decide), exec_reserved h, exec_sameHost h,
    exec_extract_keeps h⟩

end Sys2Proof.Machine
end

section
/-! PROOFS. The statement settled: O8. The ways one step can go, and the alpha cells along each (R51, R129). -/

namespace Sys2Proof.Machine

variable {s t : State} {i : Instr}

/-- A step that answers is a host move, a command, an illegal command word, an engine step with a change of the host's side
after it, or a change of the host's side alone (R12). -/
theorem step_cases (h : step s = .next t) :
    (∃ c rest, s.host = .move c :: rest ∧ hostMove c { s with host := rest } = .next t) ∨
    (∃ i rest, exec i { s with host := rest } = .next t) ∨
    (∃ v rest, illegalCommand v { s with host := rest } = .next t) ∨
    (∃ rest u l d w, engineStep { s with host := rest } = .next u ∧ t = u.withHostSide l d w u.epoch u.draws) ∨
    ∃ l w, t = s.withHostSide l s.hostData w s.epoch s.draws := by
  cases hh : s.host with
  | nil => exact .inr (.inr (.inr (.inl ⟨s.host, t, _, _, _, (step_nil hh).symm.trans h, rfl⟩)))
  | cons action rest =>
    cases action with
    | move c => exact .inl ⟨c, rest, rfl, (step_move hh).symm.trans h⟩
    | engine => exact .inr (.inr (.inr (.inl ⟨rest, t, _, _, _, (step_engine hh).symm.trans h, rfl⟩)))
    | run v =>
      cases hv : decode v with
      | ok i => exact .inr (.inl ⟨i, rest, (step_run hh hv).symm.trans h⟩)
      | error r => exact .inr (.inr (.inl ⟨v, rest, (step_run_illegal hh hv).symm.trans h⟩))
    | await =>
      replace h := (step_await hh).symm.trans h
      unfold awaitDone at h
      split at h
      · cases h
        exact .inr (.inr (.inr (.inr ⟨_, _, rfl⟩)))
      · split at h <;> cases h
        exact .inr (.inr (.inr (.inl ⟨rest, _, _, _, _, ‹_›, rfl⟩)))
    | ifErrSkip n =>
      cases (step_ifErrSkip hh).symm.trans h
      refine .inr (.inr (.inr (.inr ?_)))
      unfold ifErrSkip
      split <;> exact ⟨_, _, rfl⟩
    | ifErrStop =>
      cases (step_ifErrStop hh).symm.trans h
      refine .inr (.inr (.inr (.inr ?_)))
      unfold ifErrStop
      split <;> exact ⟨_, _, rfl⟩

/-- Two contents of `CB` have the same alpha cells (R51). -/
def SameAlpha (v w : Memory) : Prop := ∀ x, x % 4 = 3 → w.read x = v.read x

theorem SameAlpha.of_eq {v w : Memory} (h : w = v) : SameAlpha v w := fun _ _ => by rw [h]

/-- A store by the engine reaches an alpha cell only at an alpha index of `CB`. -/
theorem State.storeByte_sameAlpha {m : MemId} {a : Nat} {b : Byte} (h : s.storeByte m a b = .ok t)
    (ha : m = .cb → a % 4 ≠ 3) : SameAlpha s.cb t.cb := by
  intro x hx
  by_cases hm : m = .cb
  · subst hm
    exact (State.storeByte_read h x).trans (if_neg fun he : x = a => ha rfl (he ▸ hx))
  · exact congrArg (·.read x) ((State.storeByte_wrote h).mem_ne (m := .cb) (Ne.symm hm))

theorem stepOf_sameAlpha (h : stepOf i s = .ok t) : SameAlpha s.cb t.cb := by
  cases i with
  | pack =>
    rcases stepPack_cases h with ⟨_, u, -, hu, rfl⟩ | ⟨-, -, _, u, -, hu, rfl⟩ | ⟨-, -, rfl⟩
    · exact (State.storeByte_sameAlpha hu (by simp) :)
    · exact (State.storeByte_sameAlpha hu (by simp) :)
    · exact .of_eq rfl
  | unpack =>
    rcases stepUnpack_cases h with ⟨-, -, rfl⟩ | ⟨-, -, rfl⟩ | ⟨_, _, -, -, rfl⟩ | ⟨-, -, rfl⟩ | ⟨-, -, rfl⟩ |
      ⟨-, -, _, u, -, hu, rfl⟩ | ⟨-, -, rfl⟩
    case inr.inr.inr.inr.inr.inl => exact (State.storeByte_sameAlpha hu (by simp) :)
    all_goals exact .of_eq rfl
  | embed =>
    rcases stepEmbed_cases h with ⟨-, -, rfl⟩ | ⟨-, -, -, rfl⟩ | ⟨-, -, -, rfl⟩ |
      ⟨-, -, -, _, _, u, -, -, hu, rfl⟩ | ⟨-, -, rfl⟩
    case inr.inr.inr.inl => exact (State.storeByte_sameAlpha hu fun _ => slotIndex_mod _ :)
    all_goals exact .of_eq rfl
  | extract =>
    rcases stepExtract_cases h with ⟨-, -, rfl⟩ | ⟨-, -, rfl⟩ | ⟨-, -, -, _, -, rfl⟩ |
      ⟨-, -, -, _, u, -, hu, rfl⟩ | ⟨-, -, rfl⟩
    case inr.inr.inr.inl => exact (State.storeByte_sameAlpha hu (by simp) :)
    all_goals exact .of_eq rfl

theorem engineStep_sameAlpha (h : engineStep s = .next t) : SameAlpha s.cb t.cb := by
  rcases engineStep_cases h with ⟨-, rfl⟩ | ⟨-, -, rfl⟩ | ⟨-, -, i, -, hi⟩
  · exact .of_eq rfl
  · exact .of_eq rfl
  · exact stepOf_sameAlpha hi

theorem exec_sameAlpha (h : exec i s = .next t) : SameAlpha s.cb t.cb := by
  by_cases hi : i = .embed
  · subst hi
    intro x hx
    refine exec_embed_cb_beside h fun k _ he => ?_
    exact slotIndex_mod k (he ▸ hx)
  · exact .of_eq (exec_mem_ne (m := .cb) h (by revert hi; cases i <;> decide))

/-- A host move that answers while the block is idle: a legal write, a launch, `Reset`, or a read, which changes what the
host last read alone (R62). -/
theorem hostMove_idle_cases {c : HostMove} (hb : s.busy = false) (h : hostMove c s = .next t) :
    (∃ m a v, c = .writeByte m a v ∧ a < s.cap m ∧ t = s.setMem m ((s.mem m).write a v)) ∨
    (∃ m n, c = .writeLen m n ∧ n ≤ s.cap m ∧ t = s.setLen m n) ∨
    (∃ v, c = .writeCtrl v ∧ t = { s with ctrl := ctrlWritten v }) ∨
    (∃ v, c = .writeCmd v ∧ (∀ i, decode v = .ok i → s.inputsWritten i = true) ∧ t = s.launch v) ∨
    (c = .reset ∧ t = s.resetBlock) ∨
    ∃ d w, t = { s with hostData := d, hostStatus := w } := by
  cases c with
  | writeByte m a v =>
    rcases Nat.lt_or_ge a (s.cap m) with ha | ha
    · cases (hostMove_writeByte hb ha).symm.trans h
      exact .inl ⟨m, a, v, rfl, ha, rfl⟩
    · cases (hostMove_writeByte_beyond hb ha).symm.trans h
  | readByte m a =>
    rcases Nat.lt_or_ge a (s.cap m) with ha | ha
    · cases (hostMove_readByte hb ha).symm.trans h
      exact .inr (.inr (.inr (.inr (.inr ⟨_, _, rfl⟩))))
    · cases (hostMove_readByte_beyond hb ha).symm.trans h
  | writeLen m n =>
    rcases Nat.lt_or_ge (s.cap m) n with hn | hn
    · cases (hostMove_writeLen_beyond hb hn).symm.trans h
    · cases (hostMove_writeLen hb hn).symm.trans h
      exact .inr (.inl ⟨m, n, rfl, hn, rfl⟩)
  | readLen m =>
    cases (hostMove_readLen hb).symm.trans h
    exact .inr (.inr (.inr (.inr (.inr ⟨_, _, rfl⟩))))
  | writeCtrl v =>
    cases (hostMove_writeCtrl hb).symm.trans h
    exact .inr (.inr (.inl ⟨v, rfl, rfl⟩))
  | readCtrl =>
    cases (hostMove_readCtrl hb).symm.trans h
    exact .inr (.inr (.inr (.inr (.inr ⟨_, _, rfl⟩))))
  | readStatus =>
    cases h
    exact .inr (.inr (.inr (.inr (.inr ⟨_, _, rfl⟩))))
  | writeCmd v =>
    simp only [hostMove, hb, Bool.false_eq_true, if_false] at h
    obtain ⟨hi, rfl⟩ := launchMove_eq_next h
    exact .inr (.inr (.inr (.inl ⟨v, rfl, hi, rfl⟩)))
  | reset =>
    cases h
    exact .inr (.inr (.inr (.inr (.inl ⟨rfl, rfl⟩))))

theorem hostMove_sameAlpha {c : HostMove} (hw : ∀ a v, c ≠ .writeByte .cb a v) (hr : c ≠ .reset)
    (h : hostMove c s = .next t) : SameAlpha s.cb t.cb := by
  refine .of_eq ?_
  cases hb : s.busy with
  | true =>
    obtain ⟨d, w, k, hk⟩ := hostMove_busy hb hr
    cases hk.symm.trans h
    rfl
  | false =>
    rcases hostMove_idle_cases hb h with ⟨m, a, v, rfl, -, rfl⟩ | ⟨m, n, -, -, rfl⟩ | ⟨v, -, rfl⟩ | ⟨v, -, -, rfl⟩ |
      ⟨rfl, -⟩ | ⟨d, w, rfl⟩
    · exact State.setMem_mem_ne (n := .cb) s (fun hm => hw a v (hm ▸ rfl)) _
    · exact State.setLen_cb ..
    · rfl
    · rfl
    · exact absurd rfl hr
    · rfl

theorem illegalCommand_sameData {v : Byte} (h : illegalCommand v s = .next t) : SameData s t := by
  unfold illegalCommand at h
  split at h <;> cases h <;> exact sameData_of_dataFields rfl

/-- Settles O8: of all that a step can be, only EMBED, by its slots, and the excluded moves write `CB`. -/
theorem onlyTheHostWritesAlpha : Obligations.OnlyTheHostWritesAlpha := by
  intro s t h hw hr
  rcases step_cases h with ⟨c, rest, hh, hc⟩ | ⟨i, rest, hi⟩ | ⟨v, rest, hv⟩ | ⟨rest, u, l, d, w, hu, rfl⟩ | ⟨l, w, rfl⟩
  · exact (hostMove_sameAlpha (fun a v hcv => hw a v (by simp [hh, hcv])) (fun hcr => hr (by simp [hh, hcr])) hc :)
  · exact (exec_sameAlpha hi :)
  · exact SameAlpha.of_eq (illegalCommand_sameData hv).cb
  · exact (engineStep_sameAlpha hu :)
  · exact SameAlpha.of_eq rfl

end Sys2Proof.Machine
end

section
/-! PROOFS. The statements settled: O9, O10, O12. The host's moves, idle and busy (R58, R62, R63). -/

namespace Sys2Proof.Machine

variable {s t : State} {m : MemId}

/-- The engine registers and the phase, as one value: an update beside them leaves it as it was by `rfl`. -/
def State.engineFields (s : State) :
    BitVec 3 × Nat × BitVec 36 × Byte × BitVec 3 × BitVec 33 × BitVec 32 × Phase :=
  (s.opr, s.slot, s.cur, s.acc, s.nb, s.widx, s.lreg, s.phase)

theorem sameEngine_of_engineFields (h : t.engineFields = s.engineFields) : SameEngine s t := by
  simp only [State.engineFields, Prod.mk.injEq] at h
  obtain ⟨hopr, hslot, hcur, hacc, hnb, hwidx, hlreg, hphase⟩ := h
  exact ⟨hopr, hslot, hcur, hacc, hnb, hwidx, hlreg, hphase⟩

@[simp] theorem State.setMem_engineFields (s : State) (m : MemId) (v : Memory) :
    (s.setMem m v).engineFields = s.engineFields := by cases m <;> rfl

@[simp] theorem State.setLen_engineFields (s : State) (m : MemId) (n : Nat) :
    (s.setLen m n).engineFields = s.engineFields := by cases m <;> rfl

/-- The schedule is no part of the data. -/
@[simp] theorem State.mem_withHost (s : State) (l : List HostAction) (m : MemId) :
    ({ s with host := l } : State).mem m = s.mem m := by cases m <;> rfl

@[simp] theorem State.len_withHost (s : State) (l : List HostAction) (m : MemId) :
    ({ s with host := l } : State).len m = s.len m := by cases m <;> rfl

/-- A cell with a value answers a host read with it. -/
theorem State.cellForHost_of_read {a : Nat} {b : Byte} (h : (s.mem m).read a = some b) : s.cellForHost m a = b := by
  unfold State.cellForHost
  rw [h]

/-- HostReadByte as a step: the cell's byte is what the host reads, and nothing else changes (R62). -/
theorem step_readByte {a : Nat} {rest : List HostAction} (hb : s.busy = false)
    (hh : s.host = .move (.readByte m a) :: rest) (ha : a < s.cap m) :
    step s = .next { s with host := rest, hostData := some (.byte (s.cellForHost m a)) } := by
  refine (step_move hh).trans ((hostMove_readByte (s := { s with host := rest }) hb ha).trans ?_)
  cases m <;> rfl

/-- Settles O9: each row is the answer of `hostMove` to that move. -/
theorem hostMovesActAsTabled : Obligations.HostMovesActAsTabled := by
  intro s rest
  refine ⟨fun hb => ⟨fun m a v ha => ?_, fun m a ha => ?_, fun m n hp hn => ?_, fun m => ?_, fun v => ?_, ?_,
    fun v hi => ?_⟩, ?_, ?_⟩
  · exact ⟨_, (step_move rfl).trans (hostMove_writeByte (s := { s with host := rest }) hb ha), by simp,
      fun x hx => by simp [hx], fun n hn => by simp [State.setMem_mem_ne _ hn], fun n => by simp, by simp, by simp,
      by simp, sameEngine_of_engineFields (State.setMem_engineFields ..)⟩
  · exact ⟨_, _, step_readByte hb rfl ha, rfl,
      fun v hv => State.cellForHost_of_read (by simpa using hv), sameData_of_dataFields rfl,
      sameEngine_of_engineFields rfl, rfl⟩
  · exact ⟨_, (step_move rfl).trans (hostMove_writeLen (s := { s with host := rest }) hb hn),
      State.setLen_len_self hp hn, fun k hk => by simp [State.setLen_len_ne _ hk], fun k => by simp, by simp, by simp,
      by simp, sameEngine_of_engineFields (State.setLen_engineFields ..)⟩
  · exact ⟨_, (step_move rfl).trans (hostMove_readLen (s := { s with host := rest }) hb), by simp,
      sameData_of_dataFields rfl, sameEngine_of_engineFields rfl, rfl⟩
  · exact ⟨_, (step_move rfl).trans (hostMove_writeCtrl (s := { s with host := rest }) hb), rfl,
      fun k => by cases k <;> rfl, fun k => by cases k <;> rfl, rfl, rfl, sameEngine_of_engineFields rfl⟩
  · exact ⟨_, (step_move rfl).trans (hostMove_readCtrl (s := { s with host := rest }) hb), rfl,
      sameData_of_dataFields rfl, sameEngine_of_engineFields rfl, rfl⟩
  · have hi' : ∀ i, decode v = .ok i → ({ s with host := rest } : State).inputsWritten i = true := fun i hd => by
      simpa [State.inputsWritten] using hi i hd
    exact ⟨_, (step_move rfl).trans (hostMove_writeCmd (s := { s with host := rest }) hb hi'), State.launch_busy ..,
      State.launch_done .., State.launch_err .., rfl, rfl, rfl, rfl, rfl, rfl, sameData_of_dataFields rfl⟩
  · exact ⟨_, (step_move rfl).trans (hostMove_readStatus (s := { s with host := rest })), rfl, sameData_of_dataFields rfl,
      sameEngine_of_engineFields rfl, rfl⟩
  · exact ⟨_, (step_move rfl).trans (hostMove_reset (s := { s with host := rest })), rfl, rfl,
      fun k => by cases k <;> rfl, fun k a => by cases k <;> rfl⟩

/-- Settles O10: `hostMove_busy` and `exec_busy`. -/
theorem hostMovesWhileBusyChangeNothing : Obligations.HostMovesWhileBusyChangeNothing := by
  refine fun s rest hb => ⟨fun c hc => ?_, fun i => exec_busy hb⟩
  obtain ⟨d, w, k, h⟩ := hostMove_busy (s := { s with host := rest }) hb hc
  exact ⟨_, (step_move rfl).trans h, sameData_of_dataFields rfl, sameEngine_of_engineFields rfl, rfl, rfl⟩

/-- Settles O12: the first read leaves the cell and the count of resets, which fix what the second returns. -/
theorem readingTwiceReturnsTheSameByte : Obligations.ReadingTwiceReturnsTheSameByte := by
  intro s m a hb ha
  refine ⟨_, _, s.cellForHost m a, step_readByte hb rfl ha, step_readByte (rest := []) hb rfl ha, ?_, ?_,
    sameData_of_dataFields rfl, sameEngine_of_engineFields rfl, rfl⟩
  · cases m <;> rfl
  · cases m <;> rfl

end Sys2Proof.Machine
end

section
/-! PROOFS. The statement settled: O43. A command leaves a state it may be launched in again; the second run reads the same
inputs, so it completes the same way and writes its output again (R60). -/

namespace Sys2Proof.Machine

variable {s t u : State} {i : Instr}

/-- A command keeps the canonical form of the memories. -/
theorem exec_wf (hwf : ∀ m, (s.mem m).wf = true) (h : exec i s = .next t) (m : MemId) : (t.mem m).wf = true := by
  by_cases hm : m = outputOf i
  · subst hm
    cases hb : s.busy with
    | true =>
      cases (exec_busy hb).symm.trans h
      exact hwf _
    | false =>
      cases i with
      | pack =>
        obtain ⟨v, rfl, hv, -⟩ := exec_pack_next hb h
        exact hv (hwf .frm)
      | unpack =>
        rcases exec_unpack_next hb h with ⟨-, rfl⟩ | ⟨-, L, -, -, rfl⟩ | ⟨-, L, -, -, v, rfl, hv, -⟩
        · exact hwf .msg
        · exact hwf .msg
        · exact hv (hwf .msg)
      | embed =>
        rcases exec_embed_next hb h with ⟨-, rfl⟩ | ⟨-, -, rfl⟩ | ⟨-, -, v, rfl, hv, -⟩
        · exact hwf .cb
        · exact hwf .cb
        · exact hv (hwf .cb)
      | extract =>
        rcases exec_extract_next hb h with ⟨-, rfl⟩ | ⟨-, v, left, rfl, hv, -⟩
        · exact hwf .frm
        · exact hv (hwf .frm)
  · rw [exec_mem_ne h hm]
    exact hwf m

/-- EMBED leaves a value in every cell of `CB` that has one. -/
theorem exec_embed_cb_written {a : Nat} (h : exec .embed s = .next t) (ha : s.cb.read a ≠ none) :
    t.cb.read a ≠ none := by
  cases hb : s.busy with
  | true =>
    cases (exec_busy hb).symm.trans h
    exact ha
  | false =>
    rcases exec_embed_next hb h with ⟨-, rfl⟩ | ⟨-, -, rfl⟩ | ⟨-, -, v, rfl, -, -, hin, hout⟩
    · exact ha
    · exact ha
    · by_cases hs : ∃ k < s.slotsWritten, a = slotIndex k
      · obtain ⟨k, hk, rfl⟩ := hs
        obtain ⟨f, b, -, -, hr⟩ := hin k hk
        simp [hr]
      · simpa [hout a fun k hk he => hs ⟨k, hk, he⟩] using ha

/-- Only EMBED reads the memory it writes (R50). -/
theorem ne_outputOf_of_mem_inputsOf {m : MemId} (hi : i ≠ .embed) (hm : m ∈ inputsOf i) : m ≠ outputOf i := by
  revert hi hm
  cases i <;> cases m <;> decide

/-- A command completes with its launch premises met again (R205). -/
theorem exec_ready (hr : Ready i s) (hwf : ∀ m, (s.mem m).wf = true) (h : exec i s = .next t) : Ready i t := by
  obtain ⟨e, hc, -⟩ := exec_completed hr.idle h
  obtain ⟨-, hcbLen, hparams⟩ := controlFields_eq_iff.1 (exec_controlFields h)
  refine ⟨hc.busy, hparams ▸ hr.params, exec_lengths hr h, ?_⟩
  by_cases hi : i = .embed
  · subst hi
    refine State.inputsWritten_of_read (fun m _ => exec_wf hwf h m) fun m hm a ha => ?_
    have hcell : ∀ a < s.len m, (s.mem m).read a ≠ none := fun a ha => by
      obtain ⟨b, hb⟩ := State.inputsWritten_read hr.inputs hm ha
      simp [hb]
    by_cases hcb : m = .cb
    · subst hcb
      exact exec_embed_cb_written h (hcell a (ha.trans_eq hcbLen))
    · obtain ⟨hmem, hlen⟩ := exec_mem_len_ne h hcb
      exact hmem ▸ hcell a (hlen ▸ ha)
  · exact State.inputsWritten_congr hr.inputs fun m hm => exec_mem_len_ne h (ne_outputOf_of_mem_inputsOf hi hm)

/-- A command that ends in an error has changed no data (R176). -/
theorem exec_error_sameData (hb : s.busy = false) (h : exec i s = .next t) (he : t.err ≠ 0) : SameData s t := by
  cases i with
  | pack => exact absurd (exec_pack_output hb h).1 he
  | unpack =>
    rcases exec_unpack_next hb h with ⟨-, rfl⟩ | ⟨-, L, -, -, rfl⟩ | ⟨-, L, -, -, v, rfl, -⟩
    · exact sameData_of_dataFields rfl
    · exact sameData_of_dataFields rfl
    · exact absurd (errField_statusWord ..) he
  | embed =>
    rcases exec_embed_next hb h with ⟨-, rfl⟩ | ⟨-, -, rfl⟩ | ⟨-, -, v, rfl, -⟩
    · exact sameData_of_dataFields rfl
    · exact sameData_of_dataFields rfl
    · exact absurd (errField_statusWord ..) he
  | extract =>
    rcases exec_extract_next hb h with ⟨-, rfl⟩ | ⟨-, v, left, rfl, -⟩
    · exact sameData_of_dataFields rfl
    · exact absurd (errField_statusWord ..) he

/-- A command that succeeds leaves its output memory as it was beyond the length it gives it. -/
theorem exec_output_beyond {a : Nat} (hr : Ready i s) (h : exec i s = .next t) (he : t.err = 0)
    (ha : t.len (outputOf i) ≤ a) : (t.mem (outputOf i)).read a = (s.mem (outputOf i)).read a := by
  cases i with
  | pack => exact exec_pack_frm_beyond h ((exec_pack_output hr.idle h).2.1 ▸ ha)
  | unpack =>
    by_cases hbad : s.frameBad
    · exact absurd ((exec_unpack_bad hr.idle hbad h).symm.trans he) (by decide)
    · obtain ⟨-, L, hL, -, hlen, -⟩ := exec_unpack_good hr.idle hbad h
      refine (exec_unpack_keeps h).1 a fun L' hL' => ?_
      cases hL.symm.trans hL'
      exact hlen ▸ ha
  | embed =>
    have hcbLen : t.cbLen = s.cbLen := (controlFields_eq_iff.1 (exec_controlFields h)).2.1
    refine exec_embed_cb_beside h fun k hk hak => ?_
    have hlt : slotIndex k < s.cbLen := slotIndex_lt (hk.trans_le (Nat.min_le_right ..))
    exact absurd (hcbLen ▸ ha : s.cbLen ≤ a) (by omega)
  | extract =>
    by_cases h0 : s.cbLen % 4 = 0
    · refine (exec_extract_keeps h).1 a ?_
      have hlen := (exec_extract_pixels hr.idle h0 h).2.1
      simpa [outputOf, hlen, toNat_ofNat_lt (extracted_fits hr.params (hr.lengths .cb)).2] using ha
    · exact absurd ((exec_extract_ragged hr.idle h0 h).symm.trans he) (by decide)

/-- EMBED again on its own output has the same result: each bit is written where it already stands. -/
theorem exec_embed_again (hr : Ready .embed s) (hr' : Ready .embed t) (h : exec .embed s = .next t)
    (h' : exec .embed t = .next u) : SameResult .embed t u := by
  obtain ⟨hctrl, hcbLen, -⟩ := controlFields_eq_iff.1 (exec_controlFields h)
  have hfrm : t.frm = s.frm := exec_mem_ne (m := .frm) h (by decide)
  have hfrmLen : t.frmLen = s.frmLen := exec_frmLen h (by decide)
  have hslots : t.slotsWritten = s.slotsWritten := by
    simp only [State.slotsWritten, State.bitsRequired, hfrmLen, hcbLen]
  have hlong : t.frameTooLong ↔ s.frameTooLong := by
    simp only [State.frameTooLong, State.trunc, hctrl, hcbLen, hfrmLen]
  by_cases h0 : s.cbLen % 4 = 0
  · by_cases hl : s.frameTooLong
    · exact sameResult_of_error hr hr' h h' (by decide) (exec_embed_tooLong hr.idle hl h)
        (exec_embed_tooLong hr'.idle (hlong.2 hl) h')
    · obtain ⟨he, -, hbits, -⟩ := exec_embed_fits hr.idle h0 hl h
      obtain ⟨he', hlen', hbits', hrest'⟩ := exec_embed_fits hr'.idle (hcbLen ▸ h0) (hl ∘ hlong.1) h'
      refine sameResult_of_exec hr hr' h h' (he'.trans he.symm) fun _ => ⟨hlen', fun a _ => ?_⟩
      by_cases hs : ∃ k < s.slotsWritten, a = slotIndex k
      · obtain ⟨k, hk, rfl⟩ := hs
        obtain ⟨f, b, hf, -, ht⟩ := hbits k hk
        obtain ⟨f', b', hf', hb', hu⟩ := hbits' k (hslots ▸ hk)
        cases hf.symm.trans (hfrm ▸ hf')
        cases ht.symm.trans hb'
        rw [setLsb_setLsb] at hu
        exact hu.trans ht.symm
      · exact hrest' a fun k hk he => hs ⟨k, hslots ▸ hk, he⟩
  · exact sameResult_of_error hr hr' h h' (by decide) (exec_embed_ragged hr.idle h0 h)
      (exec_embed_ragged hr'.idle (hcbLen ▸ h0) h')

/-- A command run again has the same result: for all but EMBED because its inputs are unchanged (R32). -/
theorem exec_again (hr : Ready i s) (hr' : Ready i t) (h : exec i s = .next t) (h' : exec i t = .next u) :
    SameResult i t u := by
  by_cases hi : i = .embed
  · subst hi
    exact exec_embed_again hr hr' h h'
  · have hin : SameInputs i s t := by
      refine ⟨fun m hm => ?_, fun he => absurd he hi⟩
      obtain ⟨hmem, hlen⟩ := exec_mem_len_ne h (ne_outputOf_of_mem_inputsOf hi hm)
      exact ⟨hlen, fun a _ => by rw [hmem]⟩
    obtain ⟨t', u', ht, hu, hres⟩ := resultDependsOnInputsOnly i s t hr hr' hin
    cases ht.symm.trans h
    cases hu.symm.trans h'
    exact hres

/-- Two completions from equal reserved bits with the same error code leave the same `STATUS` (R83). -/
theorem exec_status_eq (hr : Ready i s) (hr' : Ready i t) (h : exec i s = .next t) (h' : exec i t = .next u)
    (he : u.err = t.err) : u.status = t.status := by
  obtain ⟨e, hc, hst⟩ := exec_completed hr.idle h
  obtain ⟨e', hc', hst'⟩ := exec_completed hr'.idle h'
  rw [hst', ← hc'.err, he, hc.err, hst, statusWord_statusWord]

/-- Settles O43: on an error the second run changes no data; on success it leaves the output as it was below its length by
`exec_again`, beyond it by `exec_output_beyond`. -/
theorem repeatingACommandChangesNothing : Obligations.RepeatingACommandChangesNothing := by
  intro i s hr hwf
  obtain ⟨t, h⟩ := exec_total hr
  have hr' := exec_ready hr hwf h
  obtain ⟨u, h'⟩ := exec_total hr'
  obtain ⟨-, -, herr, hout⟩ := exec_again hr hr' h h'
  refine ⟨t, u, h, h', ?_, exec_status_eq hr hr' h h' herr⟩
  by_cases he : t.err = 0
  · obtain ⟨hlen, hcell⟩ := hout he
    obtain ⟨hctrl, -, hparams⟩ := controlFields_eq_iff.1 (exec_controlFields h')
    have hwf' := exec_wf hwf h
    have hmem : u.mem (outputOf i) = t.mem (outputOf i) := by
      refine Memory.ext (exec_wf hwf' h' _) (hwf' _) fun a => ?_
      rcases Nat.lt_or_ge a (t.len (outputOf i)) with ha | ha
      · exact hcell a ha
      · exact exec_output_beyond hr' h' (herr.trans he) (hlen ▸ ha)
    refine sameData_of_mem_len hparams hctrl (fun m => ?_) fun m => ?_
    · by_cases hm : m = outputOf i
      · exact hm ▸ hmem
      · exact exec_mem_ne h' hm
    · by_cases hm : m = outputOf i
      · exact hm ▸ hlen
      · exact (exec_mem_len_ne h' hm).2
  · exact exec_error_sameData hr'.idle h' (herr ▸ he)

end Sys2Proof.Machine
end

section
/-! PROOFS. The statement settled: O5. Under the invariant every access of the engine is in range and reads a cell with a
value, so each of its steps answers (R35, R90, R204). -/

namespace Sys2Proof.Machine

variable {s : State} {i : Instr}

/-- The engine's read of an input cell below its length register answers (R35, R50). -/
theorem DataLegal.loadByte {m : MemId} {a : Nat} (hd : DataLegal s) (hi : s.inputsWritten i = true) (hm : m ∈ inputsOf i)
    (ha : a < s.len m) : ∃ b, s.loadByte m a = .ok b := by
  obtain ⟨b, hb⟩ := State.inputsWritten_read hi hm ha
  exact ⟨b, State.loadByte_eq_ok.2 ⟨ha.trans_le (hd.lengths m), hb⟩⟩

theorem stepPack_total (hd : DataLegal s) (hp : PackOk s) : ∃ t, stepPack s = .ok t := by
  have hfit := hd.frame_fits
  obtain ⟨hin, ⟨k, hk, -⟩ | ⟨hk, -⟩⟩ := hp
  · exact ⟨_, stepPack_header hk (State.storeByte_of_lt _ (by omega))⟩
  · rcases Nat.lt_or_ge s.widx.toNat s.msgLen.toNat with hlt | hge
    · obtain ⟨b, hb⟩ := hd.loadByte (m := .msg) hin (by simp [inputsOf]) hlt
      exact ⟨_, stepPack_copy hk hlt hb (State.storeByte_of_lt _ (by omega))⟩
    · exact ⟨_, stepPack_final hk hge⟩

theorem stepUnpack_total (hd : DataLegal s) (hp : UnpackOk s) : ∃ t, stepUnpack s = .ok t := by
  obtain ⟨hin, hph⟩ := hp
  have hload : ∀ {a}, a < s.frmLen.toNat → ∃ b, s.loadByte .frm a = .ok b := hd.loadByte (m := .frm) hin (by simp [inputsOf])
  rcases hph with ⟨hk, -⟩ | ⟨k, hk, -, h4⟩ | ⟨hk, -⟩ | ⟨hk, hL, -⟩
  · simp only [stepUnpack, hk]
    split <;> exact ⟨_, rfl⟩
  · obtain ⟨b, hb⟩ := hload (show k.val < _ by omega)
    exact ⟨_, stepUnpack_header hk hb⟩
  · simp only [stepUnpack, hk]
    split <;> exact ⟨_, rfl⟩
  · simp only [stepUnpack, hk]
    split
    · obtain ⟨b, hb⟩ := hload (show 4 + s.widx.toNat < _ by omega)
      have hst : s.widx.toNat < s.cap .msg := by
        have := hd.payload_fits hL
        omega
      exact ⟨_, except_bind_eq_ok.2 ⟨b, hb, except_bind_eq_ok.2 ⟨_, State.storeByte_of_lt b hst, rfl⟩⟩⟩
    · exact ⟨_, rfl⟩

theorem stepEmbed_total (hd : DataLegal s) (hp : EmbedOk s) : ∃ t, stepEmbed s = .ok t := by
  obtain ⟨hin, -, hph⟩ := hp
  rcases hph with ⟨hk, -⟩ | ⟨hk, -⟩
  · simp only [stepEmbed, hk]
    split
    · exact ⟨_, rfl⟩
    · split <;> exact ⟨_, rfl⟩
  · simp only [stepEmbed, hk]
    split
    · rename_i hlt
      have hslot : slotIndex s.slot < s.len .cb := slotIndex_lt hlt.2
      obtain ⟨f, hf⟩ := hd.loadByte (m := .frm) (a := s.cur.toNat / 8) hin (by simp [inputsOf])
        (by simp only [State.len_frm]; omega)
      obtain ⟨v, hv⟩ := hd.loadByte (m := .cb) hin (by simp [inputsOf]) hslot
      have hst := State.storeByte_of_lt (setLsb v (cursorBit f s.cur.toNat)) (hslot.trans_le (hd.lengths .cb))
      exact ⟨_, except_bind_eq_ok.2 ⟨f, hf, except_bind_eq_ok.2 ⟨v, hv, except_bind_eq_ok.2 ⟨_, hst, rfl⟩⟩⟩⟩
    · exact ⟨_, rfl⟩

theorem stepExtract_total (hd : DataLegal s) (hp : ExtractOk s) : ∃ t, stepExtract s = .ok t := by
  obtain ⟨hin, hnb, hwi, -, hph⟩ := hp
  rcases hph with ⟨hk, -⟩ | ⟨hk, -⟩
  · simp only [stepExtract, hk]
    split <;> exact ⟨_, rfl⟩
  · by_cases hs : s.slot < 3 * (s.cbLen / 4)
    · obtain ⟨v, hv⟩ := hd.loadByte (m := .cb) hin (by simp [inputsOf]) (slotIndex_lt hs)
      by_cases h7 : s.nb.toNat < 7
      · exact ⟨_, stepExtract_gather hk hs hv h7⟩
      · have hfit := (extracted_fits hd.params (hd.lengths .cb)).1
        unfold usable pixels at hfit
        exact ⟨_, stepExtract_store hk hs hv h7 (State.storeByte_of_lt _ (by omega))⟩
    · simp only [stepExtract, hk, if_neg hs]
      exact ⟨_, rfl⟩

/-- A command in progress in a legal state has an enabled step (R204). -/
theorem stepOf_total (hd : DataLegal s) (hp : InProgress i s) : ∃ t, stepOf i s = .ok t := by
  cases i with
  | pack => exact stepPack_total hd hp
  | unpack => exact stepUnpack_total hd hp
  | embed => exact stepEmbed_total hd hp
  | extract => exact stepExtract_total hd hp

theorem engineStep_total (hs : Invariant s) : ∃ t, engineStep s = .next t := by
  cases hb : s.busy with
  | false => exact ⟨s, engineStep_idle hb⟩
  | true =>
    by_cases hill : s.phase = .illegal
    · exact ⟨s.raise .illegalCommand, by simp [engineStep, hb, hill]⟩
    · obtain ⟨i, ho, hp⟩ := (engineOk_iff.1 (hs.engine hb)).resolve_left hill
      obtain ⟨t, ht⟩ := stepOf_total hs.data hp
      exact ⟨t, engineStep_ok hb hill ho ht⟩

theorem engineStep_ne_fault (hs : Invariant s) (f : Fault) : engineStep s ≠ .fault f := by
  obtain ⟨t, ht⟩ := engineStep_total hs
  simp [ht]

/-- A command is ignored while busy, refused over an unwritten input, and completes otherwise. -/
theorem exec_ne_fault (hs : Invariant s) (f : Fault) : exec i s ≠ .fault f := by
  cases hb : s.busy with
  | true => simp [exec_busy hb]
  | false =>
    cases hw : s.inputsWritten i with
    | false => simp [exec_unwritten hb hw]
    | true =>
      obtain ⟨t, ht⟩ := exec_total ⟨hb, hs.params, hs.lengths, hw⟩
      simp [ht]

theorem illegalCommand_ne_fault (v : Byte) (f : Fault) : illegalCommand v s ≠ .fault f := by
  unfold illegalCommand
  split <;> simp

theorem launchMove_ne_fault (v : Byte) (f : Fault) : launchMove v s ≠ .fault f := by
  unfold launchMove
  split
  · simp
  · split <;> simp

/-- A host move is carried out, ignored, answered or refused, in any state (R62, R63). -/
theorem hostMove_ne_fault (c : HostMove) (f : Fault) : hostMove c s ≠ .fault f := by
  cases c with
  | writeByte _ _ _ | readByte _ _ | writeLen _ _ =>
    simp only [hostMove]
    split
    · simp
    · split <;> simp
  | readLen _ | writeCtrl _ | readCtrl =>
    simp only [hostMove]
    split <;> simp
  | writeCmd v =>
    simp only [hostMove]
    split
    · simp
    · exact launchMove_ne_fault v f
  | readStatus | reset => simp [hostMove]

theorem awaitDone_ne_fault (hs : Invariant s) (f : Fault) : awaitDone s ≠ .fault f := by
  obtain ⟨t, ht⟩ := engineStep_total hs
  unfold awaitDone
  rw [ht]
  split <;> simp

/-- Settles O5: under the invariant the engine's step and a command answer or are refused, and no other action of the host
can fault in any state. -/
theorem noStepFaultsUnderTheInvariant : Obligations.NoStepFaultsUnderTheInvariant := by
  intro s hs f
  have hrest : ∀ rest, Invariant { s with host := rest } := fun rest => hs.withHostSide rest ..
  cases hh : s.host with
  | nil => exact step_nil hh ▸ engineStep_ne_fault hs f
  | cons action rest =>
    cases action with
    | move c => exact step_move hh ▸ hostMove_ne_fault c f
    | engine => exact step_engine hh ▸ engineStep_ne_fault (hrest rest) f
    | run v =>
      cases hv : decode v with
      | ok i => exact step_run hh hv ▸ exec_ne_fault (hrest rest) f
      | error r => exact step_run_illegal hh hv ▸ illegalCommand_ne_fault v f
    | await => exact step_await hh ▸ awaitDone_ne_fault (hrest rest) f
    | ifErrSkip n => simp [step_ifErrSkip hh]
    | ifErrStop => simp [step_ifErrStop hh]

end Sys2Proof.Machine
end

section
/-! PROOFS. The engine's steps counted from the launch: no step counts more than one, and a completed command's count is
R203's, so it is in progress before the last of them. -/

namespace Sys2Proof.Machine

variable {s t : State} {i : Instr} {n : Nat}

/-- How many of its steps (R101, R105, R124, R144) command `i` has taken; once it has completed, how many it took. Before
the data steps `WIDX`, `SLOT` and `CUR` are 0 in every run; they stand in the count there so that a step changes it by one
from any state. EMBED ends when `SLOT` or `CUR` reaches its bound, so the greater of them counts. -/
def State.stepsTaken (s : State) : Instr → Nat
  | .pack => match s.phase with
    | .header k => k.val + s.widx.toNat
    | .data => 4 + s.widx.toNat
    | _ => stepCount .pack s
  | .unpack => match s.phase with
    | .check => s.widx.toNat
    | .header k => 1 + k.val + s.widx.toNat
    | .lengthCheck => 5 + s.widx.toNat
    | .data => 6 + s.widx.toNat
    | _ => if s.frmLen.toNat < 4 then 1 else if 4 + s.lreg.toNat > s.frmLen.toNat then 6 else 6 + s.lreg.toNat + 1
  | .embed => match s.phase with
    | .check => max s.slot s.cur.toNat
    | .data => 1 + max s.slot s.cur.toNat
    | _ => stepCount .embed s
  | .extract => match s.phase with
    | .check => s.slot
    | .data => 1 + s.slot
    | _ => stepCount .extract s

@[simp] theorem stepCount_complete (i : Instr) (s : State) (e : Option ErrorKind) :
    stepCount i (s.complete e) = stepCount i s := by
  cases i <;> rfl

/-- The count goes one up while the command goes on, `STATUS` as it was; in an idle state it is at most one more. -/
inductive CountsStep (i : Instr) (s t : State) : Prop where
  | goesOn (opr : t.opr = s.opr) (status : t.status = s.status) (count : t.stepsTaken i = s.stepsTaken i + 1)
  | completes (opr : t.opr = s.opr) (idle : t.busy = false) (count : t.stepsTaken i ≤ s.stepsTaken i + 1)

theorem stepPack_countsStep (h : stepPack s = .ok t) : CountsStep .pack s t := by
  rcases stepPack_cases h with ⟨k, u, hk, hu, rfl⟩ | ⟨hk, hlt, b, u, -, hu, rfl⟩ | ⟨hk, hge, rfl⟩
  · obtain ⟨-, rfl⟩ := State.storeByte_eq_ok.1 hu
    refine .goesOn rfl rfl ?_
    fin_cases k <;> simp [State.stepsTaken, hk, afterHeader, State.setMem] <;> omega
  · obtain ⟨-, rfl⟩ := State.storeByte_eq_ok.1 hu
    have hw : (s.widx + 1).toNat = s.widx.toNat + 1 := by
      have := s.msgLen.isLt
      bv_omega
    exact .goesOn rfl rfl (by simp only [State.stepsTaken, State.setMem, hk, hw]; omega)
  · refine .completes rfl (State.complete_busy ..) ?_
    simp only [State.stepsTaken, hk, State.complete_phase, stepCount_complete]
    simp only [stepCount]
    omega

theorem stepUnpack_countsStep (h : stepUnpack s = .ok t) : CountsStep .unpack s t := by
  rcases stepUnpack_cases h with ⟨hk, h4, rfl⟩ | ⟨hk, -, rfl⟩ | ⟨k, b, hk, -, rfl⟩ | ⟨hk, hlt, rfl⟩ | ⟨hk, -, rfl⟩ |
    ⟨hk, hlt, b, u, -, hu, rfl⟩ | ⟨hk, hge, rfl⟩
  · refine .completes rfl (State.complete_busy ..) ?_
    simp [State.stepsTaken, State.raise, hk, h4]
  · refine .goesOn rfl rfl ?_
    simp only [State.stepsTaken, hk]
    exact Nat.add_comm ..
  · refine .goesOn rfl rfl ?_
    fin_cases k <;> simp [State.stepsTaken, hk, afterHeader] <;> omega
  · refine .completes rfl (State.complete_busy ..) ?_
    simp only [State.stepsTaken, State.raise, hk, State.complete_phase]
    by_cases h4 : s.frmLen.toNat < 4
    · simp [h4]
    · simp [h4, hlt]
  · refine .goesOn rfl rfl ?_
    simp only [State.stepsTaken, hk]
    omega
  · obtain ⟨-, rfl⟩ := State.storeByte_eq_ok.1 hu
    have hw : (s.widx + 1).toNat = s.widx.toNat + 1 := by
      have := s.lreg.isLt
      bv_omega
    exact .goesOn rfl rfl (by simp only [State.stepsTaken, State.setMem, hk, hw]; omega)
  · refine .completes rfl (State.complete_busy ..) ?_
    simp only [State.stepsTaken, hk, State.complete_phase, State.complete_frmLen, State.complete_lreg]
    split
    · omega
    · split <;> omega

theorem stepEmbed_countsStep (h : stepEmbed s = .ok t) : CountsStep .embed s t := by
  rcases stepEmbed_cases h with ⟨hk, h4, rfl⟩ | ⟨hk, h4, hcap, rfl⟩ | ⟨hk, h4, hcap, rfl⟩ |
    ⟨hk, hc, hs, f, b, u, -, -, hu, rfl⟩ | ⟨hk, hend, rfl⟩
  · refine .completes rfl (State.complete_busy ..) ?_
    simp [State.stepsTaken, State.raise, hk, stepCount, h4]
  · refine .completes rfl (State.complete_busy ..) ?_
    simp [State.stepsTaken, State.raise, hk, stepCount, hcap]
  · refine .goesOn rfl rfl ?_
    simp only [State.stepsTaken, hk]
    omega
  · obtain ⟨-, rfl⟩ := State.storeByte_eq_ok.1 hu
    have hw : (s.cur + 1).toNat = s.cur.toNat + 1 := by
      have := s.frmLen.isLt
      bv_omega
    exact .goesOn rfl rfl (by simp only [State.stepsTaken, State.setMem, hk, hw]; omega)
  · refine .completes rfl (State.complete_busy ..) ?_
    simp only [State.stepsTaken, hk, State.complete_phase, stepCount_complete]
    simp only [stepCount]
    split <;> omega

theorem stepExtract_countsStep (h : stepExtract s = .ok t) : CountsStep .extract s t := by
  rcases stepExtract_cases h with ⟨hk, h4, rfl⟩ | ⟨hk, h4, rfl⟩ | ⟨hk, hs, h7, b, -, rfl⟩ |
    ⟨hk, hs, h7, b, u, -, hu, rfl⟩ | ⟨hk, hs, rfl⟩
  · refine .completes rfl (State.complete_busy ..) ?_
    simp [State.stepsTaken, State.raise, hk, stepCount, h4]
  · refine .goesOn rfl rfl ?_
    simp only [State.stepsTaken, hk]
    omega
  · refine .goesOn rfl rfl ?_
    simp only [State.stepsTaken, hk]
    omega
  · obtain ⟨-, rfl⟩ := State.storeByte_eq_ok.1 hu
    refine .goesOn rfl rfl ?_
    simp only [State.stepsTaken, hk, State.setMem]
    omega
  · refine .completes rfl (State.complete_busy ..) ?_
    simp only [State.stepsTaken, hk, State.complete_phase, stepCount_complete]
    simp only [stepCount]
    split <;> omega

theorem stepOf_countsStep (h : stepOf i s = .ok t) : CountsStep i s t := by
  cases i with
  | pack => exact stepPack_countsStep h
  | unpack => exact stepUnpack_countsStep h
  | embed => exact stepEmbed_countsStep h
  | extract => exact stepExtract_countsStep h

theorem engineStep_countsStep (ho : s.opr = opcodeOf i) (h : engineStep s = .next t) : CountsStep i s t := by
  rcases engineStep_cases h with ⟨hb, rfl⟩ | ⟨-, hill, rfl⟩ | ⟨-, -, j, hj, hstep⟩
  · exact .completes rfl hb (Nat.le_succ _)
  · refine .completes rfl (State.complete_busy ..) ?_
    cases i <;> simp only [State.stepsTaken, State.raise, State.complete_phase, hill] <;> exact Nat.le_succ _
  · obtain rfl := opcodeOf_injective (ho.symm.trans hj)
    exact stepOf_countsStep hstep

/-- An idle engine stays as it is (R204). -/
theorem runEngine_idle (hb : s.busy = false) (n : Nat) : runEngine n s = .next s := by
  induction n with
  | zero => rfl
  | succ n ih => rw [runEngine_cons (engineStep_idle hb), ih]

theorem runEngine_succ_eq_next (h : runEngine (n + 1) s = .next t) :
    ∃ u, engineStep s = .next u ∧ runEngine n u = .next t := by
  cases he : engineStep s with
  | next u => exact ⟨u, rfl, runEngine_cons he ▸ h⟩
  | fault f => simp [runEngine, he] at h
  | refused r => simp [runEngine, he] at h

theorem runEngine_stepsTaken_le (ho : s.opr = opcodeOf i) (h : runEngine n s = .next t) :
    t.stepsTaken i ≤ s.stepsTaken i + n := by
  induction n generalizing s with
  | zero =>
    cases h
    exact Nat.le_refl _
  | succ n ih =>
    obtain ⟨u, hu, h⟩ := runEngine_succ_eq_next h
    cases engineStep_countsStep ho hu with
    | goesOn opr _ count | completes opr _ count =>
      have := ih (opr.trans ho) h
      omega

/-- As long as the engine is busy its steps leave `STATUS` as it was. -/
theorem runEngine_status (ho : s.opr = opcodeOf i) (h : runEngine n s = .next t) (hb : t.busy = true) :
    t.status = s.status := by
  induction n generalizing s with
  | zero =>
    cases h
    rfl
  | succ n ih =>
    obtain ⟨u, hu, h⟩ := runEngine_succ_eq_next h
    cases engineStep_countsStep ho hu with
    | goesOn opr status _ => exact (ih (opr.trans ho) h).trans status
    | completes _ idle _ =>
      cases (runEngine_idle idle n).symm.trans h
      exact absurd (idle.symm.trans hb) (by decide)

@[simp] theorem launch_stepsTaken (i : Instr) (s : State) : (s.launch (encode i)).stepsTaken i = 0 := by
  cases i <;> rfl

/-- A completed command has taken the steps R203 counts. -/
theorem exec_stepsTaken (hb : s.busy = false) (h : exec i s = .next t) : t.stepsTaken i = stepCount i s := by
  cases i with
  | pack =>
    obtain ⟨v, rfl, -⟩ := exec_pack_next hb h
    rfl
  | unpack =>
    rcases exec_unpack_next hb h with ⟨h4, rfl⟩ | ⟨h4, L, hL, hlt, rfl⟩ | ⟨h4, L, hL, hle, v, rfl, -⟩
    · simp [State.stepsTaken, stepCount, h4]
    · simp [State.stepsTaken, stepCount, hL, toNat_ofNat_lt (State.headerLength_lt hL)]
    · simp [State.stepsTaken, stepCount, hL, toNat_ofNat_lt (State.headerLength_lt hL)]
  | embed =>
    rcases exec_embed_next hb h with ⟨-, rfl⟩ | ⟨-, -, rfl⟩ | ⟨-, -, v, rfl, -⟩ <;> rfl
  | extract =>
    rcases exec_extract_next hb h with ⟨-, rfl⟩ | ⟨-, v, left, rfl, -⟩ <;> rfl

/-- Before the last of the steps R203 counts the command is in progress: were it completed, its count would be R203's. -/
theorem runEngine_beforeCompletion (hr : Ready i s) (hn : n < stepCount i s)
    (h : runEngine n (s.launch (encode i)) = .next t) : t.busy = true ∧ t.done = false := by
  have ho : (s.launch (encode i)).opr = opcodeOf i := opField_encode i
  have hbusy : t.busy = true := by
    by_contra hb
    have hidle : t.busy = false := by simpa using hb
    obtain ⟨u, hu, hrun⟩ := engineStepsRealiseTheCommand i s hr
    have hlate : runEngine (stepCount i s) (s.launch (encode i)) = .next t := by
      rw [← Nat.add_sub_of_le hn.le, runEngine_add h, runEngine_idle hidle]
    cases hlate.symm.trans hrun
    have hle := runEngine_stepsTaken_le ho h
    rw [exec_stepsTaken hr.idle hu, launch_stepsTaken] at hle
    omega
  exact ⟨hbusy, by rw [State.done, runEngine_status ho h hbusy]; exact s.launch_done _⟩

end Sys2Proof.Machine
end

section
/-! PROOFS. The statement settled: O6. A command in progress comes to its completion, since its steps are counted and there
are only so many. -/

namespace Sys2Proof.Machine

variable {s : State} {i : Instr}

theorem InProgress.phase_ne_illegal (hp : InProgress i s) : s.phase ≠ .illegal := by
  intro hill
  cases i <;> simp [InProgress, PackOk, UnpackOk, EmbedOk, ExtractOk, hill] at hp

/-- `WIDX` and `CUR` are bounded by their widths, EXTRACT's `SLOT` by the usable slots (R29, R143). -/
theorem InProgress.stepsTaken_lt (hp : InProgress i s) : s.stepsTaken i < 2 ^ 37 + usable s.cbLen := by
  have hw := s.widx.isLt
  have hc := s.cur.isLt
  cases i with
  | pack =>
    obtain ⟨-, ⟨k, hk, -⟩ | ⟨hk, -⟩⟩ := hp <;> simp only [State.stepsTaken, hk] <;> omega
  | unpack =>
    obtain ⟨-, ⟨hk, -⟩ | ⟨k, hk, -⟩ | ⟨hk, -⟩ | ⟨hk, -⟩⟩ := hp <;> simp only [State.stepsTaken, hk] <;> omega
  | embed =>
    obtain ⟨-, hs, ⟨hk, -⟩ | ⟨hk, -⟩⟩ := hp <;> simp only [State.stepsTaken, hk] <;> omega
  | extract =>
    obtain ⟨-, -, -, -, ⟨hk, hs⟩ | ⟨hk, -, hs⟩⟩ := hp <;> simp only [State.stepsTaken, hk, usable, pixels] <;> omega

theorem runEngine_completes (hd : DataLegal s) (hb : s.busy = true) (ho : s.opr = opcodeOf i) (hp : InProgress i s) :
    ∃ n t, runEngine n s = .next t ∧ t.busy = false ∧ t.done = true := by
  induction hk : 2 ^ 37 + usable s.cbLen - s.stepsTaken i using Nat.strong_induction_on generalizing s with
  | _ k ih =>
    obtain ⟨t, ht⟩ := stepOf_total hd hp
    have he := engineStep_ok hb hp.phase_ne_illegal ho ht
    cases stepOf_afterStep hd hp ht with
    | completes _ e hw =>
      exact ⟨1, t, (runEngine_one s).trans he, by simp [State.busy, hw], by simp [State.done, hw]⟩
    | goesOn hd' hw ho' hp' =>
      have hb' : t.busy = true := by rwa [State.busy, hw]
      have hcount : t.stepsTaken i = s.stepsTaken i + 1 := by
        cases stepOf_countsStep ht with
        | goesOn _ _ count => exact count
        | completes _ idle _ => exact absurd (idle.symm.trans hb') (by decide)
      have hlen : t.cbLen = s.cbLen := (controlFields_eq_iff.1 (stepOf_controlFields ht)).2.1
      have hlt := hp.stepsTaken_lt
      obtain ⟨n, u, hu, hdone⟩ := ih _ (by rw [hlen]; omega) hd' hb' (ho'.trans ho) hp' rfl
      exact ⟨n + 1, u, (runEngine_cons he).trans hu, hdone⟩

/-- Settles O6: an illegal launch completes with the next step, a command in progress by `runEngine_completes`. -/
theorem everyCommandCompletes : Obligations.EveryCommandCompletes := by
  intro s hs hb
  by_cases hill : s.phase = .illegal
  · refine ⟨1, s.raise .illegalCommand, ?_, State.complete_busy .., State.complete_done ..⟩
    simp [runEngine_one, engineStep, hb, hill]
  · obtain ⟨i, ho, hp⟩ := (engineOk_iff.1 (hs.engine hb)).resolve_left hill
    exact runEngine_completes hs.data hb ho hp

end Sys2Proof.Machine
end

section
/-! PROOFS. The statements settled: O14, O15, O16, O17, O46. Command words, the launch, and the wait for `DONE`. -/

namespace Sys2Proof.Machine

variable {s : State} {v : Byte}

/-- Settles O14, with `decode_eq_ok` for the bytes that are no command. -/
theorem commandWordsAreTheOpcodeMap : Obligations.CommandWordsAreTheOpcodeMap :=
  ⟨rfl, rfl, rfl, rfl, fun _ _ => decode_eq_ok⟩

/-- Settles O15, by evaluating the decoder on each word. -/
theorem specWordsDecode : Obligations.SpecWordsDecode :=
  ⟨rfl, rfl, rfl, rfl, rfl, rfl, rfl, rfl, rfl, rfl, rfl⟩

/-- The four command words are 1 to 4, so every other byte is rejected (R79, R81). -/
theorem decode_reserved (hv : v = 0x00 ∨ 0x05 ≤ v.toNat) : ∃ r, decode v = .error r := by
  cases hd : decode v with
  | error r => exact ⟨r, rfl⟩
  | ok i =>
    obtain rfl := decode_eq_ok.1 hd
    exact absurd hv (by cases i <;> decide)

/-- Settles O16: no other byte is a command word, and an illegal word is the launch with the completion after it. -/
theorem reservedWordsCompleteWithIllegalCommand : Obligations.ReservedWordsCompleteWithIllegalCommand := by
  intro v s rest hv hb hh
  obtain ⟨r, hr⟩ := decode_reserved hv
  have hidle : ({ s with host := rest } : State).busy = false := hb
  refine ⟨(State.launch v { s with host := rest }).raise .illegalCommand, ?_, ⟨?_, ?_, ?_, ?_⟩, ?_, ?_, ?_⟩
  · rw [step_run_illegal hh hr, illegalCommand, hidle]
    rfl
  · exact State.complete_busy ..
  · exact State.complete_done ..
  · exact State.complete_err ..
  · simp [State.raise]
  · exact State.complete_err ..
  · exact sameData_of_dataFields rfl
  · rfl

/-- After the launch of an illegal word the next engine step is the completion (R80, R174). -/
theorem engineStep_launch_illegal {r : Reject} (hv : decode v = .error r) :
    engineStep (s.launch v) = .next ((s.launch v).raise .illegalCommand) := by
  simp [engineStep, firstPhase, hv]

/-- Settles O17: the launch writes what R80 lists; the two ways on are `engineStep_launch_illegal` and O44. -/
theorem launchSetsTheEngineUp : Obligations.LaunchSetsTheEngineUp := by
  intro v s rest hb hh hready
  have hready' : ∀ i, decode v = .ok i → Ready i { s with host := rest } := fun i hi =>
    ready_withHostSide (hready i hi) rest ..
  have hstep := hostMove_writeCmd (s := { s with host := rest }) hb fun i hi => (hready' i hi).inputs
  refine ⟨_, (step_move hh).trans hstep, State.launch_busy .., State.launch_done .., State.launch_err .., rfl, rfl, rfl, rfl,
    rfl, rfl, sameData_of_dataFields rfl, fun ⟨r, hr⟩ => ?_, fun i hi => ?_⟩
  · exact ⟨_, engineStep_launch_illegal hr, State.complete_completed .., sameData_of_dataFields rfl⟩
  · obtain ⟨u, hu, hrun⟩ := engineStepsRealiseTheCommand i _ (hready' i hi)
    obtain ⟨e, hc, -⟩ := exec_completed (hready' i hi).idle hu
    obtain rfl := decode_eq_ok.1 hi
    exact ⟨_, u, hrun, hc.busy, hc.done⟩

theorem stepCount_withHost (i : Instr) (s : State) (l : List HostAction) :
    stepCount i { s with host := l } = stepCount i s := by
  cases i <;> rfl

/-- The raw write of `CMD` and the wait: the launch is the first step, the wait follows the engine to the command's result,
which is not done before, and the last step reads `STATUS` (R86). -/
theorem run_writeCmd_await {i : Instr} {t : State} {rest : List HostAction} (hr : Ready i s)
    (hs : s.host = .move (.writeCmd (encode i)) :: .await :: rest) (h : exec i s = .next t) :
    Host.Core.run core (stepCount i s + 2) s = .next { t with host := rest, hostStatus := some t.status } := by
  have hr' : Ready i { s with host := .await :: rest } := ready_withHostSide hr (.await :: rest) ..
  have hlaunch := hostMove_writeCmd (v := encode i) hr'.idle fun j hj => by
    rw [decode_encode] at hj
    cases hj
    exact hr'.inputs
  obtain ⟨u, hu, hsteps⟩ := engineStepsRealiseTheCommand i _ hr'
  cases hu.symm.trans (exec_at h _)
  have hwait := run_await rfl hsteps fun m hm v hv => (runEngine_beforeCompletion hr' hm hv).2
  rw [stepCount_withHost] at hwait
  obtain ⟨e, hc, -⟩ := exec_completed hr.idle h
  calc Host.Core.run core (stepCount i s + 2) s
      = Host.Core.run core (stepCount i s + 1) (State.launch (encode i) { s with host := .await :: rest }) :=
        run_succ ((step_move hs).trans hlaunch)
    _ = Host.Core.run core 1 { t with host := .await :: rest } := run_add hwait
    _ = .next { t with host := rest, hostStatus := some t.status } := run_succ (step_await_done rfl hc.done)

/-- Settles O46: both ways end in the command's result with `STATUS` read, by `run_writeCmd_await` and `run_command`. -/
theorem waitingForDoneEqualsTheOneStepCommand : Obligations.WaitingForDoneEqualsTheOneStepCommand := by
  intro i s rest hr
  obtain ⟨t, ht⟩ := exec_total hr
  obtain ⟨e, hc, -⟩ := exec_completed hr.idle ht
  have hpoll := run_writeCmd_await (s := { s with host := .move (.writeCmd (encode i)) :: .await :: rest })
    (ready_withHostSide hr _ ..) rfl (exec_at ht _)
  rw [stepCount_withHost] at hpoll
  have hrun := run_command (s := { s with host := .run (encode i) :: .await :: rest }) hr.idle rfl (exec_at ht _)
  exact ⟨_, hpoll, hrun, rfl, rfl, hc.done⟩

end Sys2Proof.Machine
end

section
/-! PROOFS. The statements settled: O21, O22, O24, O27. What PACK and UNPACK leave, and that UNPACK reads PACK's frame back. -/

namespace Sys2Proof.Machine

variable {s t u : State}

/-- The error code a command leaves says which completion it was (R83). -/
theorem exec_completed_of_err {i : Instr} {e : Option ErrorKind} (hb : s.busy = false) (h : exec i s = .next t)
    (he : t.err = errCode e) : Completed s e t := by
  obtain ⟨e', hc, -⟩ := exec_completed hb h
  rwa [errCode_injective (he.symm.trans hc.err)]

section
variable (hb : s.busy = false)
include hb

theorem exec_pack_header (h : exec .pack s = .next t) : ∀ a < 4, t.frm.read a = some (lengthByte s.msgLen a) := by
  obtain ⟨-, -, hcell⟩ := exec_pack_output hb h
  exact fun a ha => (hcell a (by omega)).trans (if_pos ha)

theorem exec_pack_payload (h : exec .pack s = .next t) : ∀ i < s.msgLen.toNat, t.frm.read (4 + i) = s.msg.read i := by
  obtain ⟨-, -, hcell⟩ := exec_pack_output hb h
  intro i hi
  rw [hcell _ (by omega), if_neg (by omega), Nat.add_sub_cancel_left]

theorem exec_pack_headerLength (h : exec .pack s = .next t) : t.headerLength = some s.msgLen.toNat :=
  State.headerLength_of_bytes (exec_pack_header hb h)

/-- UNPACK with a complete header leaves the length it announces in `LREG`, whatever its second check says (R104). -/
theorem exec_unpack_lreg {L : Nat} (h4 : 4 ≤ s.frmLen.toNat) (hL : s.headerLength = some L)
    (h : exec .unpack s = .next t) : t.lreg.toNat = L := by
  rcases exec_unpack_next hb h with ⟨hlt, -⟩ | ⟨-, L', hL', -, rfl⟩ | ⟨-, L', hL', -, v, rfl, -⟩
  · omega
  all_goals
    cases hL.symm.trans hL'
    exact toNat_ofNat_lt (State.headerLength_lt hL)

/-- UNPACK on a bad frame ends in `FormatError` and changes no data (R104, R172). -/
theorem exec_unpack_formatError (hbad : s.frameBad) (h : exec .unpack s = .next t) :
    Completed s (some .format) t ∧ SameData s t := by
  obtain ⟨hparams, hcb, hfrm, hcbLen, hfrmLen, hctrl, -, -, -, hkeeps, -⟩ := unpackFrame s t h
  obtain ⟨hmsg, hmsgLen⟩ := hkeeps hbad
  exact ⟨exec_completed_of_err hb h (exec_unpack_bad hb hbad h), hparams, hcb, hmsg, hfrm, hcbLen, hmsgLen, hfrmLen, hctrl⟩

/-- UNPACK on a frame that holds the length it announces ends with `ERR` 0 and the payload in `MSG` (R104). -/
theorem exec_unpack_payload {L : Nat} (hL : s.headerLength = some L) (hle : 4 + L ≤ s.frmLen.toNat)
    (h : exec .unpack s = .next t) :
    Completed s none t ∧ t.msgLen.toNat = L ∧ ∀ i < L, t.msg.read i = s.frm.read (4 + i) := by
  have hgood : ¬ s.frameBad := by
    rintro (hlt | ⟨L', hL', hlt⟩)
    · omega
    · cases hL.symm.trans hL'
      omega
  obtain ⟨herr, L', hL', -, hlen, hcopy⟩ := exec_unpack_good hb hgood h
  cases hL.symm.trans hL'
  exact ⟨exec_completed_of_err hb h herr, hlen, hcopy⟩

end

/-- Settles O21: `FRM` by PACK's output and its frame, the rest by its frame. -/
theorem packFramesThePayload : Obligations.PackFramesThePayload := by
  refine ⟨rfl, fun s hr => ?_⟩
  obtain ⟨t, h⟩ := exec_total hr
  obtain ⟨herr, hlen, -⟩ := exec_pack_output hr.idle h
  obtain ⟨hparams, hcb, hmsg, hcbLen, hmsgLen, hctrl, -, -, hhost, hbeyond⟩ := packFrame s t h
  have hheader : ∀ a < 4, t.frm.read a = some (BitVec.ofNat 8 ((s.msgLen.toNat >>> (8 * (3 - a))) &&& 0xFF)) :=
    fun a ha => (exec_pack_header hr.idle h a ha).trans (congrArg some (lengthByte_eq ..))
  have hwritten : ∀ i < s.msgLen.toNat, s.msg.read i ≠ none := fun i hi =>
    Option.ne_none_iff_exists'.2 (State.inputsWritten_read (m := .msg) hr.inputs (by simp [inputsOf]) hi)
  exact ⟨t, h, exec_completed_of_err hr.idle h herr, hheader 0 (by omega), hheader 1 (by omega), hheader 2 (by omega),
    hheader 3 (by omega), fun i hi => ⟨exec_pack_payload hr.idle h i hi, hwritten i hi⟩, hlen, hbeyond, hmsg, hmsgLen, hcb,
    hcbLen, hctrl, hparams, hhost⟩

/-- Settles O22: PACK's header is the bytes of `MSGLEN`, which read back as it. -/
theorem packHeaderReadsBack : Obligations.PackHeaderReadsBack := by
  intro s hr
  obtain ⟨t, h⟩ := exec_total hr
  obtain ⟨herr, hlen, -⟩ := exec_pack_output hr.idle h
  exact ⟨t, h, herr, exec_pack_headerLength hr.idle h, hlen, exec_pack_payload hr.idle h,
    exec_mem_ne (m := .msg) h (by decide), exec_msgLen h (by decide)⟩

/-- Settles O24: a frame fails a check or is good, and beside its output UNPACK keeps what its frame says. -/
theorem unpackChecksThenCopies : Obligations.UnpackChecksThenCopies := by
  refine ⟨rfl, fun s hr => ?_⟩
  obtain ⟨t, h⟩ := exec_total hr
  refine ⟨t, h, fun hlt => exec_unpack_formatError hr.idle (.inl hlt) h, fun h4 => ?_, exec_sameHost h⟩
  obtain ⟨L, hL⟩ := State.headerLength_some h4 hr.inputs
  obtain ⟨b0, b1, b2, b3, h0, h1, h2, h3, hbytes⟩ := State.headerLength_cells hL
  refine ⟨b0, b1, b2, b3, h0, h1, h2, h3, fun L' hL' => ?_⟩
  obtain rfl : L = L' := hbytes.trans hL'.symm
  refine ⟨exec_unpack_lreg hr.idle h4 hL h, fun hlt => exec_unpack_formatError hr.idle (.inr ⟨L, hL, hlt⟩) h,
    fun hle => ?_⟩
  have hwritten : ∀ i < L, s.frm.read (4 + i) ≠ none := fun i hi =>
    Option.ne_none_iff_exists'.2 (State.inputsWritten_read (m := .frm) hr.inputs (by simp [inputsOf])
      (by simp only [State.len_frm]; omega))
  obtain ⟨hc, hlen, hcopy⟩ := exec_unpack_payload hr.idle hL hle h
  obtain ⟨hparams, hcb, hfrm, hcbLen, hfrmLen, hctrl, -, -, hbeyond, -⟩ := unpackFrame s t h
  refine ⟨hc, hlen, fun i hi => ⟨hcopy i hi, hwritten i hi⟩, fun i hi => hbeyond i ?_,
    hfrm, hfrmLen, hcb, hcbLen, hctrl, hparams⟩
  intro K hK
  cases hL.symm.trans hK
  exact hi

/-- Settles O27: the header PACK wrote announces `MSGLEN` in every frame that begins with PACK's, so UNPACK copies exactly the
payload. -/
theorem unpackInvertsPack : Obligations.UnpackInvertsPack := by
  intro s t u hr ht hru hlen hagree
  obtain ⟨-, hframe, -⟩ := exec_pack_output hr.idle ht
  have hL : u.headerLength = some s.msgLen.toNat :=
    (State.headerLength_congr fun a ha => hagree a (by omega)).trans (exec_pack_headerLength hr.idle ht)
  obtain ⟨w, hw⟩ := exec_total hru
  obtain ⟨hc, hmsgLen, hcopy⟩ := exec_unpack_payload hru.idle hL (hframe ▸ hlen) hw
  refine ⟨w, hw, hc.err, BitVec.eq_of_toNat_eq hmsgLen, fun i hi => ?_⟩
  calc w.msg.read i = u.frm.read (4 + i) := hcopy i hi
    _ = t.frm.read (4 + i) := hagree _ (by omega)
    _ = s.msg.read i := exec_pack_payload hr.idle ht i hi

end Sys2Proof.Machine
end

section
/-! PROOFS. The statements settled: O47, O48. The framing commands one engine step at a time. -/

namespace Sys2Proof.Machine

variable {s t : State} {b : Byte}

/-- A status word with the completion's fields is a completion (R83). -/
theorem completed_of_status {e : Option ErrorKind} (h : t.status = statusWord s.status false true (errCode e)) :
    Completed s e t :=
  ⟨by simp [State.busy, h], by simp [State.done, h], by simp [State.err, h], by simp [h]⟩

/-- `WIDX` does not wrap below a 32-bit bound (R29). -/
theorem toNat_succ_of_lt_length {w : BitVec 33} {l : BitVec 32} (h : w.toNat < l.toNat) : (w + 1).toNat = w.toNat + 1 := by
  have := l.isLt
  bv_omega

theorem stepUnpack_check (hp : s.phase = .check) :
    stepUnpack s = .ok (if s.frmLen.toNat < 4 then s.raise .format else { s with phase := .header 0 }) := by
  simp only [stepUnpack, hp]
  split <;> rfl

theorem stepUnpack_lengthCheck (hp : s.phase = .lengthCheck) :
    stepUnpack s = .ok (if 4 + s.lreg.toNat > s.frmLen.toNat then s.raise .format else { s with phase := .data }) := by
  simp only [stepUnpack, hp]
  split <;> rfl

theorem stepUnpack_copy (hp : s.phase = .data) (hw : s.widx.toNat < s.lreg.toNat)
    (hl : s.loadByte .frm (4 + s.widx.toNat) = .ok b) (hs : s.storeByte .msg s.widx.toNat b = .ok t) :
    stepUnpack s = .ok { t with widx := t.widx + 1 } := by
  unfold stepUnpack
  rw [hp]
  exact (if_pos hw).trans (except_bind_eq_ok.2 ⟨b, hl, except_bind_eq_ok.2 ⟨t, hs, rfl⟩⟩)

theorem stepUnpack_final (hp : s.phase = .data) (hw : s.lreg.toNat ≤ s.widx.toNat) :
    stepUnpack s = .ok (State.complete none { s with msgLen := s.lreg }) := by
  unfold stepUnpack
  rw [hp]
  exact if_neg (Nat.not_lt.2 hw)

/-- Settles O47: each clause is PACK's step in that situation; the capacity of `FRM` is four above that of `MSG` (R6), so
neither store is out of range. -/
theorem packStepsInOrder : Obligations.PackStepsInOrder := by
  intro s hb ho
  have hcap : s.cap .frm = s.cap .msg + 4 := rfl
  have hnext : ∀ {u}, s.phase ≠ .illegal → stepPack s = .ok u → engineStep s = .next u := fun hp =>
    engineStep_ok (i := .pack) hb hp ho
  refine ⟨fun k hp => ?_, fun b hp hw hl hr => ?_, fun hp hw => ?_⟩
  · have hst := State.storeByte_of_lt (lengthByte s.msgLen k.val) (show k.val < s.cap .frm by omega)
    have hread := State.storeByte_read hst
    refine ⟨_, hnext (by simp [hp]) (stepPack_header hp hst), ?_,
      fun x hx => (hread x).trans (if_neg hx), rfl, rfl, rfl, rfl⟩
    exact (hread k.val).trans ((if_pos rfl).trans (congrArg some (lengthByte_eq ..)))
  · have hlt : s.widx.toNat < s.cap .msg := Nat.lt_of_lt_of_le hw hl
    have hst := State.storeByte_of_lt b (show 4 + s.widx.toNat < s.cap .frm by omega)
    have hread := State.storeByte_read hst
    have hstep := stepPack_copy hp hw (State.loadByte_eq_ok.2 ⟨hlt, hr⟩) hst
    exact ⟨_, hnext (by simp [hp]) hstep, (hread _).trans (if_pos rfl),
      fun x hx => (hread x).trans (if_neg hx), toNat_succ_of_lt_length hw, hp, rfl, rfl⟩
  · exact ⟨_, hnext (by simp [hp]) (stepPack_final hp hw), toNat_frameLength _, rfl,
      completed_of_status rfl⟩

/-- Settles O48: each clause is UNPACK's step in that situation. -/
theorem unpackStepsInOrder : Obligations.UnpackStepsInOrder := by
  intro s hb ho hl
  have hcap : s.cap .frm = s.cap .msg + 4 := rfl
  have hnext : ∀ {u}, s.phase ≠ .illegal → stepUnpack s = .ok u → engineStep s = .next u := fun hp =>
    engineStep_ok (i := .unpack) hb hp ho
  simp only [State.len_frm] at hl
  refine ⟨fun hp hlt => ?_, fun hp h4 => ?_, fun k b hp h4 hr => ?_, fun hp hlt => ?_, fun hp hle => ?_,
    fun b hp hw hle hr => ?_, fun hp hw => ?_⟩
  · have hstep := (stepUnpack_check hp).trans (congrArg _ (if_pos hlt))
    exact ⟨_, hnext (by simp [hp]) hstep, State.complete_completed .., sameData_of_dataFields rfl⟩
  · have hstep := (stepUnpack_check hp).trans (congrArg _ (if_neg (Nat.not_lt.2 h4)))
    exact ⟨_, hnext (by simp [hp]) hstep, rfl, sameData_of_dataFields rfl, rfl⟩
  · have hload : s.loadByte .frm k.val = .ok b := State.loadByte_eq_ok.2 ⟨by omega, hr⟩
    exact ⟨_, hnext (by simp [hp]) (stepUnpack_header hp hload), rfl, rfl, sameData_of_dataFields rfl, rfl⟩
  · have hstep := (stepUnpack_lengthCheck hp).trans (congrArg _ (if_pos hlt))
    exact ⟨_, hnext (by simp [hp]) hstep, State.complete_completed .., sameData_of_dataFields rfl⟩
  · have hstep := (stepUnpack_lengthCheck hp).trans (congrArg _ (if_neg (Nat.not_lt.2 hle)))
    exact ⟨_, hnext (by simp [hp]) hstep, rfl, sameData_of_dataFields rfl, rfl⟩
  · have hload : s.loadByte .frm (4 + s.widx.toNat) = .ok b := State.loadByte_eq_ok.2 ⟨by omega, hr⟩
    have hst := State.storeByte_of_lt b (show s.widx.toNat < s.cap .msg by omega)
    have hread := State.storeByte_read hst
    exact ⟨_, hnext (by simp [hp]) (stepUnpack_copy hp hw hload hst), (hread _).trans (if_pos rfl),
      fun x hx => (hread x).trans (if_neg hx), toNat_succ_of_lt_length hw, hp, rfl, rfl⟩
  · exact ⟨_, hnext (by simp [hp]) (stepUnpack_final hp hw), rfl, rfl, completed_of_status rfl⟩

end Sys2Proof.Machine
end

section
/-! PROOFS. The statements settled: O28, O29, O30, O32, O49. EMBED: a failed check changes no data, a good frame's bits go into
the slots, and one data step writes one bit. -/

namespace Sys2Proof.Machine

variable {s t : State}

/-- A command that leaves an error's code has completed with that error and changed no data (R83, R176). -/
theorem exec_failed {i : Instr} {e : ErrorKind} (hb : s.busy = false) (h : exec i s = .next t)
    (he : t.err = errCode (some e)) : Completed s (some e) t ∧ SameData s t := by
  refine ⟨exec_completed_of_err hb h he, exec_error_sameData hb h fun h0 => ?_⟩
  cases errCode_eq_zero.1 (he.symm.trans h0)

/-- Settles O28: a buffer is ragged, or the frame is too long for it, or EMBED embeds; what else EMBED keeps its frame says. -/
theorem embedWritesTheFrameBits : Obligations.EmbedWritesTheFrameBits := by
  refine ⟨rfl, fun s hr => ?_⟩
  obtain ⟨t, h⟩ := exec_total hr
  obtain ⟨hparams, hmsg, hfrm, hcbLen, hmsgLen, hfrmLen, hctrl, -, -, hhost, -⟩ := embedFrame s t h
  refine ⟨t, h, fun h4 => ?_, fun h0 htr hlen => ?_, fun h0 hfit => ?_,
    hfrm, hfrmLen, hcbLen, hmsg, hmsgLen, hctrl, hparams, hhost⟩
  · obtain ⟨hc, hd⟩ := exec_failed (e := .inputShape) hr.idle h (exec_embed_ragged hr.idle h4 h)
    exact ⟨hc, hd.cb⟩
  · obtain ⟨hc, hd⟩ := exec_failed (e := .capacity) hr.idle h (exec_embed_tooLong hr.idle ⟨htr, h0, hlen⟩ h)
    exact ⟨hc, hd.cb⟩
  · have hnot : ¬ s.frameTooLong := by
      rintro ⟨htr, -, hlen⟩
      rcases hfit with htr' | hle
      · simp [htr] at htr'
      · omega
    obtain ⟨herr, -, hbits, hrest⟩ := exec_embed_fits hr.idle h0 hnot h
    exact ⟨exec_completed_of_err hr.idle h herr, hbits, hrest⟩

/-- Settles O29: the failing clauses of O28. -/
theorem embedFailureIsAtomic : Obligations.EmbedFailureIsAtomic := by
  intro s hr hfail
  obtain ⟨t, h, hragged, hlong, -, -, -, hcbLen, -⟩ := embedWritesTheFrameBits.2 s hr
  by_cases h0 : s.cbLen % 4 = 0
  · obtain ⟨htr, hlen⟩ := hfail.resolve_left (not_not_intro h0)
    obtain ⟨hc, hcb⟩ := hlong h0 htr hlen
    exact ⟨t, h, fun h4 => absurd h0 h4, fun _ => hc.err, hcb, hcbLen, hc.busy, hc.done⟩
  · obtain ⟨hc, hcb⟩ := hragged h0
    exact ⟨t, h, fun _ => hc.err, fun h0' => absurd h0' h0, hcb, hcbLen, hc.busy, hc.done⟩

/-- EMBED leaves a cell of `CB` as it was, or replaces its least-significant bit by a cursor bit (R59, R129). -/
theorem exec_embed_cb_cases (h : exec .embed s = .next t) (a : Nat) :
    t.cb.read a = s.cb.read a ∨
      ∃ f v k, s.cb.read a = some v ∧ t.cb.read a = some (setLsb v (cursorBit f k)) := by
  cases hb : s.busy with
  | true =>
    cases (exec_busy hb).symm.trans h
    exact .inl rfl
  | false =>
    rcases exec_embed_next hb h with ⟨-, rfl⟩ | ⟨-, -, rfl⟩ | ⟨-, -, w, rfl, -, -, hbits, hrest⟩
    · exact .inl rfl
    · exact .inl rfl
    · by_cases hslot : ∃ k < s.slotsWritten, a = slotIndex k
      · obtain ⟨k, hk, rfl⟩ := hslot
        obtain ⟨f, v, -, hv, hw⟩ := hbits k hk
        exact .inr ⟨f, v, k, hv, hw⟩
      · exact .inl (hrest a fun k hk he => hslot ⟨k, hk, he⟩)

/-- Bytes that differ in at most bit 0 agree above it and are at most one apart. -/
theorem near_of_xor {v w : Byte} (h : v ^^^ w = 0 ∨ v ^^^ w = 1) :
    v.extractLsb' 1 7 = w.extractLsb' 1 7 ∧
      (w.toNat = v.toNat ∨ w.toNat = v.toNat + 1 ∨ w.toNat + 1 = v.toNat) := by
  have hflip : ∀ x : Byte, x.extractLsb' 1 7 = (x ^^^ 1).extractLsb' 1 7 ∧
      ((x ^^^ 1).toNat = x.toNat + 1 ∨ (x ^^^ 1).toNat + 1 = x.toNat) := by decide
  have hw : w = v ^^^ (v ^^^ w) := by rw [← BitVec.xor_assoc, BitVec.xor_self, BitVec.zero_xor]
  rcases h with h | h
  · obtain rfl : w = v := by rw [hw, h]; exact BitVec.xor_zero
    exact ⟨rfl, .inl rfl⟩
  · rw [h] at hw
    subst hw
    exact ⟨(hflip v).1, .inr (hflip v).2⟩

/-- Settles O30: an alpha cell is no slot, and a slot's byte differs in at most its least-significant bit. -/
theorem embedKeepsAlphaAndUpperBits : Obligations.EmbedKeepsAlphaAndUpperBits := by
  intro s t h
  refine ⟨exec_sameAlpha h, fun a v w hv hw => ?_⟩
  have hxor : v ^^^ w = 0 ∨ v ^^^ w = 1 := by
    rcases exec_embed_cb_cases h a with hsame | ⟨f, v', k, hv', hw'⟩
    · cases hv.symm.trans (hsame.symm.trans hw)
      exact .inl BitVec.xor_self
    · cases hv.symm.trans hv'
      cases hw.symm.trans hw'
      exact xor_setLsb v f k
  exact ⟨hxor, near_of_xor hxor⟩

/-- `CTRL` is no part of a memory or of a length register. -/
theorem State.mem_withCtrl (s : State) (c : Byte) (m : MemId) : ({ s with ctrl := c } : State).mem m = s.mem m := by
  cases m <;> rfl

theorem State.len_withCtrl (s : State) (c : Byte) (m : MemId) : ({ s with ctrl := c } : State).len m = s.len m := by
  cases m <;> rfl

/-- The launch premises do not look at `CTRL` (R205). -/
theorem Ready.withCtrl {i : Instr} (hr : Ready i s) (c : Byte) : Ready i { s with ctrl := c } :=
  ⟨hr.idle, hr.params, fun m => (State.len_withCtrl s c m).trans_le (hr.lengths m),
    State.inputsWritten_congr hr.inputs fun m _ => ⟨State.mem_withCtrl s c m, State.len_withCtrl s c m⟩⟩

/-- Where EMBED embeds under either value of `CTRL`, it leaves the same in `CB` (R127). -/
theorem exec_embed_withCtrl {c : Byte} {t' : State} (hb : s.busy = false) (h0 : s.cbLen % 4 = 0)
    (hfit : ¬ s.frameTooLong) (hfit' : ¬ State.frameTooLong { s with ctrl := c }) (h : exec .embed s = .next t)
    (h' : exec .embed { s with ctrl := c } = .next t') (a : Nat) : t'.cb.read a = t.cb.read a := by
  obtain ⟨-, -, hbits, hrest⟩ := exec_embed_fits hb h0 hfit h
  obtain ⟨-, -, hbits', hrest'⟩ := exec_embed_fits (s := { s with ctrl := c }) hb h0 hfit' h'
  by_cases hslot : ∃ k < s.slotsWritten, a = slotIndex k
  · obtain ⟨k, hk, rfl⟩ := hslot
    obtain ⟨f, v, hf, hv, ht⟩ := hbits k hk
    obtain ⟨f', v', hf', hv', ht'⟩ := hbits' k hk
    cases hf.symm.trans hf'
    cases hv.symm.trans hv'
    exact ht'.trans ht.symm
  · have hout : ∀ k < s.slotsWritten, a ≠ slotIndex k := fun k hk he => hslot ⟨k, hk, he⟩
    exact (hrest' a hout).trans (hrest a hout).symm

/-- Settles O32: with the check off no frame is too long, and a slot's new least-significant bit is the frame's bit. -/
theorem truncationModeWritesWhatFits : Obligations.TruncationModeWritesWhatFits := by
  intro s hr htr h0
  obtain ⟨t, h⟩ := exec_total hr
  have hfit : ¬ s.frameTooLong := fun ⟨htr', _⟩ => by simp [htr] at htr'
  obtain ⟨herr, -, hbits, -⟩ := exec_embed_fits hr.idle h0 hfit h
  refine ⟨t, h, herr, fun k hk => ?_, fun hle => ?_⟩
  · obtain ⟨f, v, hf, -, ht⟩ := hbits k hk
    exact ⟨_, ht, (fbit_of_read hf).trans (congrArg some (lsb_setLsb_cursorBit v f k).symm)⟩
  · have hr' := hr.withCtrl 0x00
    obtain ⟨t', h'⟩ := exec_total hr'
    have hfit' : ¬ State.frameTooLong { s with ctrl := 0x00 } := fun ⟨_, _, hlong⟩ => absurd hlong (Nat.not_lt.2 hle)
    exact ⟨t', h', (exec_embed_fits hr'.idle h0 hfit' h').1,
      exec_embed_withCtrl hr.idle h0 hfit hfit' h h'⟩

/-- EMBED's data step (R123). -/
theorem stepEmbed_data {f v : Byte} (hp : s.phase = .data) (hc : s.cur.toNat < 8 * s.frmLen.toNat)
    (hs : s.slot < 3 * (s.cbLen / 4)) (hf : s.loadByte .frm (s.cur.toNat / 8) = .ok f)
    (hv : s.loadByte .cb (slotIndex s.slot) = .ok v)
    (hst : s.storeByte .cb (slotIndex s.slot) (setLsb v (cursorBit f s.cur.toNat)) = .ok t) :
    stepEmbed s = .ok { t with cur := t.cur + 1, slot := t.slot + 1 } := by
  unfold stepEmbed
  rw [hp]
  exact (if_pos ⟨hc, hs⟩).trans
    (except_bind_eq_ok.2 ⟨f, hf, except_bind_eq_ok.2 ⟨v, hv, except_bind_eq_ok.2 ⟨t, hst, rfl⟩⟩⟩)

/-- `CUR` does not wrap below eight times a 33-bit length (R29). -/
theorem cur_toNat_succ (hc : s.cur.toNat < 8 * s.frmLen.toNat) : (s.cur + 1).toNat = s.cur.toNat + 1 := by
  have := s.frmLen.isLt
  bv_omega

/-- Settles O49: the cursor's byte and the slot lie below the length registers, so neither access is out of range, and the
store writes one cell. -/
theorem embedDataStep : Obligations.EmbedDataStep := by
  intro s f v hb ho hp hc hs hfl hcl hf hv
  simp only [State.len_frm] at hfl
  have hslot : slotIndex s.slot < s.cap .cb := (slotIndex_lt hs).trans_le hcl
  have hload : s.loadByte .frm (s.cur.toNat / 8) = .ok f := State.loadByte_eq_ok.2 ⟨by omega, hf⟩
  have hst := State.storeByte_of_lt (setLsb v (cursorBit f s.cur.toNat)) hslot
  have hread := State.storeByte_read hst
  have hstep := stepEmbed_data hp hc hs hload (State.loadByte_eq_ok.2 ⟨hslot, hv⟩) hst
  exact ⟨_, engineStep_ok (i := .embed) hb (by simp [hp]) ho hstep, (hread _).trans (if_pos rfl),
    fun x hx => (hread x).trans (if_neg hx), cur_toNat_succ hc, rfl, rfl, rfl, rfl, rfl, rfl, rfl, rfl, rfl, rfl, rfl, rfl,
    rfl, rfl⟩

end Sys2Proof.Machine
end

section
/-! PROOFS. The statements settled: O34, O35, O36, O38, O50. EXTRACT: its bytes are the slots' least-significant bits, those it
reads back are the ones EMBED wrote, and one data step gathers one bit. -/

namespace Sys2Proof.Machine

variable {s t : State}

/-- A slot's bit is the least-significant bit of its byte, 0 standing for a byte without a value. -/
theorem slotBit_eq_lsb (m : Memory) (k : Nat) : slotBit m k = (lsb ((m.read (slotIndex k)).getD 0)).toNat := by
  unfold slotBit
  cases m.read (slotIndex k) with
  | none => rfl
  | some v => exact (lsb_toNat v).symm

/-- An extracted byte is the sum of its eight slots' bits at their places, the first highest (R140, R145). -/
theorem gatherBits_byte {j : Nat} {b : Byte} (h : gatherBits s j 8 = .ok b) :
    ∃ bit : Nat → Byte, (∀ k < 8, s.cb.read (slotIndex (j + k)) = some (bit k)) ∧
      b.toNat = ∑ k ∈ Finset.range 8, (lsb (bit k)).toNat <<< (7 - k) := by
  obtain ⟨-, hsum, hbits⟩ := gatherBits_spec h le_rfl
  refine ⟨fun k => (s.cb.read (slotIndex (j + k))).getD 0, fun k hk => ?_, ?_⟩
  · obtain ⟨v, hv, -⟩ := hbits k hk
    simp [hv]
  · simp only [hsum, slotBit_eq_lsb, Nat.shiftLeft_eq, Nat.add_one_sub_one]

/-- Bit `k` of a gathered byte, in cursor order, is the least-significant bit of slot `k` (R75). -/
theorem gatherBits_cursorBit {k : Nat} {b : Byte} (h : gatherBits s (8 * (k / 8)) 8 = .ok b) :
    ∃ v, s.cb.read (slotIndex k) = some v ∧ cursorBit b k = lsb v := by
  obtain ⟨-, -, hbits⟩ := gatherBits_spec h le_rfl
  obtain ⟨v, hv, hbit⟩ := hbits (k % 8) (Nat.mod_lt _ (by omega))
  rw [Nat.div_add_mod] at hv
  exact ⟨v, hv, (cursorBit_eq_lsb_iff b v k).2 hbit⟩

/-- EXTRACT's bits on whole pixels, in cursor order: each is there, and is its slot's least-significant bit (R145). -/
theorem exec_extract_fbit {k : Nat} (hb : s.busy = false) (h0 : s.cbLen % 4 = 0) (h : exec .extract s = .next t)
    (hk : k < 8 * (usable s.cbLen / 8)) :
    t.frm.fbit k ≠ none ∧ t.frm.fbit k = (s.cb.read (slotIndex k)).map lsb := by
  obtain ⟨-, -, hbytes⟩ := exec_extract_pixels hb h0 h
  obtain ⟨b, hg, hf⟩ := hbytes (k / 8) (by omega)
  obtain ⟨v, hv, hbit⟩ := gatherBits_cursorBit hg
  simp [fbit_of_read hf, hv, hbit]

/-- EXTRACT's length on whole pixels: it fits `FRMLEN` (R140, R6). -/
theorem exec_extract_frmLen (hr : Ready .extract s) (h0 : s.cbLen % 4 = 0) (h : exec .extract s = .next t) :
    t.frmLen.toNat = usable s.cbLen / 8 := by
  obtain ⟨-, hlen, -⟩ := exec_extract_pixels hr.idle h0 h
  rw [hlen]
  exact toNat_ofNat_lt (extracted_fits hr.params (hr.lengths .cb)).2

/-- Settles O34: a buffer is ragged, or EXTRACT packs its bytes; what else EXTRACT keeps its frame says. -/
theorem extractPacksTheSlotBits : Obligations.ExtractPacksTheSlotBits := by
  refine ⟨rfl, fun s hr => ?_⟩
  obtain ⟨t, h⟩ := exec_total hr
  obtain ⟨hparams, hcb, hmsg, hcbLen, hmsgLen, hctrl, -, -, hhost, hbeyond, hkeeps⟩ := extractFrame s t h
  refine ⟨t, h, fun h4 => ?_, fun h0 => ?_, hcb, hcbLen, hmsg, hmsgLen, hctrl, hparams, hhost⟩
  · exact ⟨exec_completed_of_err (e := some .inputShape) hr.idle h (exec_extract_ragged hr.idle h4 h), hkeeps h4⟩
  · obtain ⟨herr, -, hbytes⟩ := exec_extract_pixels hr.idle h0 h
    refine ⟨exec_completed_of_err hr.idle h herr, exec_extract_frmLen hr h0 h, fun j hj => ?_, hbeyond⟩
    obtain ⟨b, hg, hf⟩ := hbytes j hj
    obtain ⟨bit, hcell, hsum⟩ := gatherBits_byte hg
    exact ⟨b, bit, hf, hcell, hsum⟩

/-- Settles O35: the cursor bits of EXTRACT's bytes. -/
theorem extractedBitsAreTheSlotBits : Obligations.ExtractedBitsAreTheSlotBits := by
  intro s hr h0
  obtain ⟨t, h⟩ := exec_total hr
  obtain ⟨herr, -⟩ := exec_extract_pixels hr.idle h0 h
  have hlen := exec_extract_frmLen hr h0 h
  exact ⟨t, h, herr, hlen, fun k hk => exec_extract_fbit hr.idle h0 h (hlen ▸ hk)⟩

/-- Settles O36: both buffers are ragged, or both results have the same length and the same cursor bits, and a byte is fixed by
its eight cursor bits. -/
theorem extractDependsOnSlotBitsOnly : Obligations.ExtractDependsOnSlotBitsOnly := by
  intro s s' hr hr' hlen hbits
  obtain ⟨t, h⟩ := exec_total hr
  obtain ⟨t', h'⟩ := exec_total hr'
  refine ⟨t, t', h, h', ?_⟩
  by_cases h0 : s.cbLen % 4 = 0
  · have h0' : s'.cbLen % 4 = 0 := hlen ▸ h0
    obtain ⟨herr, -⟩ := exec_extract_pixels hr.idle h0 h
    obtain ⟨herr', -⟩ := exec_extract_pixels hr'.idle h0' h'
    have hl := exec_extract_frmLen hr h0 h
    have hl' := exec_extract_frmLen hr' h0' h'
    rw [hlen] at hl'
    refine sameResult_of_exec hr hr' h h' (herr'.trans herr.symm) fun _ => ⟨hl'.trans hl.symm, fun a ha => ?_⟩
    have ha' : a < usable s.cbLen / 8 := hl ▸ ha
    refine read_eq_of_fbit fun k _ hk => ?_
    obtain ⟨-, hbit⟩ := exec_extract_fbit (k := k) hr.idle h0 h (by omega)
    obtain ⟨hsome', hbit'⟩ := exec_extract_fbit (k := k) hr'.idle h0' h' (by rw [hlen]; omega)
    exact ⟨hbit'.trans ((hbits k (by omega)).trans hbit.symm), hsome'⟩
  · exact sameResult_of_error hr hr' h h' (by decide) (exec_extract_ragged hr.idle h0 h)
      (exec_extract_ragged hr'.idle (hlen ▸ h0) h')

/-- Where EMBED answers with `ERR` 0 the buffer has whole pixels and the frame is not too long (R171, R173). -/
theorem exec_embed_checks (hb : s.busy = false) (h : exec .embed s = .next t) (he : t.err = 0) :
    s.cbLen % 4 = 0 ∧ ¬ s.frameTooLong := by
  refine ⟨by_contra fun h4 => ?_, fun hlong => ?_⟩
  · exact absurd ((exec_embed_ragged hb h4 h).symm.trans he) (by decide)
  · exact absurd ((exec_embed_tooLong hb hlong h).symm.trans he) (by decide)

/-- The least-significant bit of a slot EMBED wrote is the frame's bit (R125). -/
theorem exec_embed_lsb {k : Nat} (hb : s.busy = false) (h : exec .embed s = .next t) (he : t.err = 0)
    (hk : k < s.slotsWritten) : s.frm.fbit k = (t.cb.read (slotIndex k)).map lsb := by
  obtain ⟨h0, hfit⟩ := exec_embed_checks hb h he
  obtain ⟨-, -, hbits, -⟩ := exec_embed_fits hb h0 hfit h
  obtain ⟨f, v, hf, -, ht⟩ := hbits k hk
  simp [fbit_of_read hf, ht, lsb_setLsb_cursorBit]

/-- Settles O38: EXTRACT's bits are those of the slots, and the slots EMBED wrote hold the frame's; a frame that is not too long
for the slots is not too long for the bytes extracted from them. -/
theorem extractInvertsEmbed : Obligations.ExtractInvertsEmbed := by
  intro s t u hr ht he hru hcb hcbLen
  obtain ⟨h0, hfit⟩ := exec_embed_checks hr.idle ht he
  obtain ⟨-, hcbLen', -⟩ := exec_embed_fits hr.idle h0 hfit ht
  have hlen : u.cbLen = s.cbLen := hcbLen.trans hcbLen'
  have hu0 : u.cbLen % 4 = 0 := hlen ▸ h0
  obtain ⟨w, hw⟩ := exec_total hru
  obtain ⟨herr, -⟩ := exec_extract_pixels hru.idle hu0 hw
  have hwlen := exec_extract_frmLen hru hu0 hw
  have hbit : ∀ k < s.slotsWritten, k < 8 * w.frmLen.toNat → w.frm.fbit k ≠ none ∧ w.frm.fbit k = s.frm.fbit k := by
    intro k hk hkw
    obtain ⟨hsome, hslot⟩ := exec_extract_fbit hru.idle hu0 hw (hwlen ▸ hkw)
    rw [hcb] at hslot
    exact ⟨hsome, hslot.trans (exec_embed_lsb hr.idle ht he hk).symm⟩
  refine ⟨w, hw, herr, fun k hk => ?_, fun htr => ?_⟩
  · obtain ⟨hks, hkw⟩ := lt_min_iff.1 hk
    exact (hbit k hks hkw).2
  · have hle : 8 * s.frmLen.toNat ≤ usable s.cbLen := Nat.not_lt.1 fun hlt => hfit ⟨htr, h0, hlt⟩
    have hprefix : s.frmLen.toNat ≤ w.frmLen.toNat := by
      rw [hwlen, hlen]
      omega
    refine ⟨hprefix, fun j hj => read_eq_of_fbit fun k _ hk => ?_⟩
    have hks : k < s.slotsWritten := lt_min (by unfold State.bitsRequired; omega) (by omega)
    exact (hbit k hks (by omega)).symm

/-- Settles O50: the slot lies below `CBLEN`, so the load is in range; the bit is gathered, or the eighth bit's byte is stored
into one cell. -/
theorem extractDataStep : Obligations.ExtractDataStep := by
  intro s v hb ho hp hs hcl hv
  have hload : s.loadByte .cb (slotIndex s.slot) = .ok v := State.loadByte_eq_ok.2 ⟨(slotIndex_lt hs).trans_le hcl, hv⟩
  have hnext : ∀ {u}, stepExtract s = .ok u → engineStep s = .next u :=
    engineStep_ok (i := .extract) hb (by simp [hp]) ho
  refine ⟨fun h7 => ?_, fun h7 hcap hwidx => ?_⟩
  · have hnb : (s.nb + 1).toNat = s.nb.toNat + 1 := by bv_omega
    exact ⟨_, hnext (stepExtract_gather hp hs hload h7), rfl, hnb, rfl, rfl, sameData_of_dataFields rfl, rfl, rfl, rfl, rfl,
      rfl⟩
  · have hw : (s.widx + 1).toNat = s.widx.toNat + 1 := by bv_omega
    have hst := State.storeByte_of_lt (shiftIn s.acc (lsb v)) hcap
    have hread := State.storeByte_read hst
    exact ⟨_, hnext (stepExtract_store hp hs hload (by omega) hst), (hread _).trans (if_pos rfl),
      fun x hx => (hread x).trans (if_neg hx), hw, rfl, rfl, rfl, rfl, rfl, rfl, rfl, rfl, rfl, rfl, rfl, rfl, rfl, rfl⟩

end Sys2Proof.Machine
end

section
/-! PROOFS. A second command on what the first has left: its launch premises, and the bits and bytes that go from EMBED's input
through the channel buffer into EXTRACT's output (R160, R162, R164). -/

namespace Sys2Proof.Machine

variable {s t u : State} {i j : Instr}

/-- What the commands' launch premises share does not depend on the command; the input cells do (R205). -/
theorem Ready.of_read (hr : Ready i s) (hwf : ∀ m, (s.mem m).wf = true)
    (hin : ∀ m ∈ inputsOf j, ∀ a < s.len m, (s.mem m).read a ≠ none) : Ready j s :=
  ⟨hr.idle, hr.params, hr.lengths, State.inputsWritten_of_read (fun m _ => hwf m) hin⟩

/-- A command whose inputs are among another's can be launched where the other can. -/
theorem Ready.of_inputs_subset (hr : Ready i s) (hsub : inputsOf j ⊆ inputsOf i) : Ready j s :=
  ⟨hr.idle, hr.params, hr.lengths, List.all_eq_true.2 fun m hm => List.all_eq_true.1 hr.inputs m (hsub hm)⟩

/-- The launch premises speak of the data and of `BUSY` alone. -/
theorem Ready.of_sameData (hr : Ready i s) (hd : SameData s t) (hb : t.busy = false) : Ready i t := by
  refine ⟨hb, hd.params ▸ hr.params, fun m => ?_, State.inputsWritten_congr hr.inputs fun m _ => ⟨hd.mem m, hd.len m⟩⟩
  rw [hd.len, State.cap, hd.params]
  exact hr.lengths m

/-- The host's side of the state is no part of the data. -/
theorem SameData.withHostSide (hd : SameData s t) (l : List HostAction) (d : Option HostValue) (w : Option Byte) (n k : Nat) :
    SameData s (t.withHostSide l d w n k) :=
  ⟨hd.params, hd.cb, hd.msg, hd.frm, hd.cbLen, hd.msgLen, hd.frmLen, hd.ctrl⟩

/-- A command that fills `FRM` without an error leaves a value in every cell below `FRMLEN`. -/
theorem exec_frm_written (hi : outputOf i = .frm) (hr : Ready i s) (h : exec i s = .next t) (he : t.err = 0) :
    ∀ a < t.frmLen.toNat, t.frm.read a ≠ none := by
  intro a ha
  cases i with
  | pack =>
    obtain ⟨-, hlen, -⟩ := exec_pack_output hr.idle h
    rcases Nat.lt_or_ge a 4 with h4 | h4
    · simp [exec_pack_header hr.idle h a h4]
    · obtain ⟨k, rfl⟩ := Nat.exists_eq_add_of_le h4
      have hk : k < s.msgLen.toNat := by omega
      obtain ⟨b, hb⟩ := State.inputsWritten_read (m := .msg) hr.inputs (by simp [inputsOf]) hk
      simp [exec_pack_payload hr.idle h k hk, show s.msg.read k = some b from hb]
  | extract =>
    by_cases h0 : s.cbLen % 4 = 0
    · obtain ⟨-, -, hbytes⟩ := exec_extract_pixels hr.idle h0 h
      obtain ⟨b, -, hb⟩ := hbytes a (exec_extract_frmLen hr h0 h ▸ ha)
      simp [hb]
    · exact absurd ((exec_extract_ragged hr.idle h0 h).symm.trans he) (by decide)
  | unpack => cases hi
  | embed => cases hi

/-- EMBED can be launched on PACK's frame when `CB` was written below `CBLEN` (R160). -/
theorem ready_embed_of_pack (hr : Ready .pack s) (hwf : ∀ m, (s.mem m).wf = true) (hcb : s.cb.written s.cbLen = true)
    (h : exec .pack s = .next t) : Ready .embed t := by
  obtain ⟨-, hcbEq, -, hcbLen, -⟩ := packFrame s t h
  refine (exec_ready hr hwf h).of_read (exec_wf hwf h) fun m hm a ha => ?_
  rcases List.mem_pair.1 hm with rfl | rfl
  · obtain ⟨b, hb⟩ := Memory.read_of_written hcb (ha.trans_eq hcbLen)
    simp [hcbEq, hb]
  · exact exec_frm_written rfl hr h (exec_pack_output hr.idle h).1 a ha

/-- UNPACK can be launched on the bytes EXTRACT left (R162). -/
theorem ready_unpack_of_extract (hr : Ready .extract s) (hwf : ∀ m, (s.mem m).wf = true) (h : exec .extract s = .next t)
    (he : t.err = 0) : Ready .unpack t := by
  refine (exec_ready hr hwf h).of_read (exec_wf hwf h) fun m hm => ?_
  obtain rfl := List.mem_singleton.1 hm
  exact exec_frm_written rfl hr h he

/-- Where the input cells are written, every bit EMBED reads is there. -/
theorem Ready.embed_fbit_ne_none {k : Nat} (hr : Ready .embed s) (hk : k < 8 * s.frmLen.toNat) : s.frm.fbit k ≠ none := by
  obtain ⟨f, hf⟩ := State.inputsWritten_read (m := .frm) (a := k / 8) hr.inputs (by simp [inputsOf])
    (by simp only [State.len_frm]; omega)
  exact Option.ne_none_iff_exists'.2 ⟨_, fbit_of_read hf⟩

/-- PACK's frame in the terms of the payload: the condition of `CapacityError` on it (R160). -/
theorem frameTooLong_of_pack (hb : s.busy = false) (h : exec .pack s = .next t) :
    t.frameTooLong ↔ s.trunc = false ∧ s.cbLen % 4 = 0 ∧ 8 * (4 + s.msgLen.toNat) > 3 * (s.cbLen / 4) := by
  obtain ⟨hctrl, hcbLen, -⟩ := controlFields_eq_iff.1 (exec_controlFields h)
  obtain ⟨-, hlen, -⟩ := exec_pack_output hb h
  simp only [State.frameTooLong, State.trunc, hctrl, hcbLen, hlen]

/-- PACK's frame in the terms of the payload: the slots an EMBED of it writes (R120). -/
theorem slotsWritten_of_pack (hb : s.busy = false) (h : exec .pack s = .next t) :
    t.slotsWritten = min (8 * (4 + s.msgLen.toNat)) (3 * (s.cbLen / 4)) := by
  obtain ⟨-, hcbLen, -⟩ := controlFields_eq_iff.1 (exec_controlFields h)
  obtain ⟨-, hlen, -⟩ := exec_pack_output hb h
  simp only [State.slotsWritten, State.bitsRequired, hcbLen, hlen]
  rfl

/-- EXTRACT gives back, as a prefix of its bytes, a frame that fits the buffer and was embedded in either setting of `TRUNC`
(R147). -/
theorem exec_extract_embedded (hr : Ready .embed s) (h : exec .embed s = .next t) (he : t.err = 0)
    (hfit : 8 * s.frmLen.toNat ≤ usable s.cbLen) (hru : Ready .extract u) (hcb : u.cb = t.cb) (hcbLen : u.cbLen = t.cbLen) :
    ∃ w, exec .extract u = .next w ∧ w.err = 0 ∧ s.frmLen.toNat ≤ w.frmLen.toNat ∧
      ∀ a < s.frmLen.toNat, w.frm.read a = s.frm.read a := by
  obtain ⟨w, hw, hwe, hbits, -⟩ := extractInvertsEmbed s t u hr h he hru hcb hcbLen
  obtain ⟨h0, hshort⟩ := exec_embed_checks hr.idle h he
  have hlen : u.cbLen = s.cbLen := hcbLen.trans (exec_embed_fits hr.idle h0 hshort h).2.1
  have hwlen : w.frmLen.toNat = usable s.cbLen / 8 := hlen ▸ exec_extract_frmLen hru (hlen ▸ h0) hw
  refine ⟨w, hw, hwe, by omega, fun a ha => (read_eq_of_fbit fun k _ hk => ?_).symm⟩
  exact ⟨(hbits k (by omega)).symm, hr.embed_fbit_ne_none (by omega)⟩

end Sys2Proof.Machine
end

section
/-! PROOFS. The statements settled: O51, O52, O53. ENCODE and DECODE as host programs, and the round trip. -/

namespace Sys2Proof.Machine

variable {s t p e x u : State}

/-- EMBED on the frame PACK left: which of its checks fails, or the frame's bits in the slots, in the terms of the payload
(R160). -/
theorem exec_pack_embed (hb : s.busy = false) (hp : exec .pack s = .next p) (hre : Ready .embed p)
    (he : exec .embed p = .next e) :
    (s.cbLen % 4 ≠ 0 → e.err = 3 ∧ e.cb = s.cb) ∧
    (s.cbLen % 4 = 0 → s.trunc = false → 8 * (4 + s.msgLen.toNat) > 3 * (s.cbLen / 4) → e.err = 1 ∧ e.cb = s.cb) ∧
    (s.cbLen % 4 = 0 → (s.trunc = true ∨ 8 * (4 + s.msgLen.toNat) ≤ 3 * (s.cbLen / 4)) → e.err = 0 ∧
      ∀ k < min (8 * (4 + s.msgLen.toNat)) (3 * (s.cbLen / 4)),
        (e.cb.read (slotIndex k)).map lsb = e.frm.fbit k ∧ e.frm.fbit k ≠ none) := by
  obtain ⟨-, hcb, -, hcbLen, -⟩ := packFrame s p hp
  have hlong := frameTooLong_of_pack hb hp
  refine ⟨fun h4 => ?_, fun h0 htr hgt => ?_, fun h0 hfit => ?_⟩
  · obtain ⟨hc, hd⟩ := exec_failed (e := .inputShape) hre.idle he (exec_embed_ragged hre.idle (hcbLen ▸ h4) he)
    exact ⟨hc.err, hd.cb.trans hcb⟩
  · obtain ⟨hc, hd⟩ := exec_failed (e := .capacity) hre.idle he (exec_embed_tooLong hre.idle (hlong.2 ⟨htr, h0, hgt⟩) he)
    exact ⟨hc.err, hd.cb.trans hcb⟩
  · have hshort : ¬ p.frameTooLong := fun h => by
      obtain ⟨htr, -, hgt⟩ := hlong.1 h
      rcases hfit with htr' | hle
      · simp [htr] at htr'
      · omega
    obtain ⟨herr, -⟩ := exec_embed_fits hre.idle (hcbLen ▸ h0) hshort he
    refine ⟨herr, fun k hk => ?_⟩
    have hks : k < p.slotsWritten := (slotsWritten_of_pack hb hp).symm ▸ hk
    rw [show e.frm = p.frm from exec_mem_ne (m := .frm) he (by decide)]
    exact ⟨(exec_embed_lsb hre.idle he herr hks).symm, hre.embed_fbit_ne_none (hks.trans_le (Nat.min_le_left ..))⟩

/-- Settles O51: PACK does not fail, so the program runs EMBED on its frame; EMBED keeps the frame and, by
`exec_pack_embed`, answers what the payload's length and the buffer say. -/
theorem encodeIsPackThenEmbed : Obligations.EncodeIsPackThenEmbed := by
  refine ⟨rfl, fun s hr hwf hcb hhost => ?_⟩
  obtain ⟨p, hp⟩ := exec_total hr
  obtain ⟨hpe, hlen, -⟩ := exec_pack_output hr.idle hp
  have hre := ready_embed_of_pack hr hwf hcb hp
  obtain ⟨e, he⟩ := exec_total hre
  obtain ⟨_, hc, -⟩ := exec_completed hre.idle he
  obtain ⟨-, -, hmsg, hcbLen, hmsgLen, -⟩ := packFrame s p hp
  obtain ⟨-, hmsg', hfrm', hcbLen', hmsgLen', hfrmLen', -⟩ := embedFrame p e he
  have hheader : e.headerLength = some s.msgLen.toNat :=
    (State.headerLength_congr fun a _ => by rw [hfrm']).trans (exec_pack_headerLength hr.idle hp)
  have hpayload : ∀ i < s.msgLen.toNat, e.frm.read (4 + i) = s.msg.read i := hfrm' ▸ exec_pack_payload hr.idle hp
  have hout := exec_pack_embed hr.idle hp hre he
  exact ⟨p, e, _, hp, hpe, he, run_pair_ok hr.idle hhost hp hpe he, sameData_of_dataFields rfl, rfl, rfl, rfl, hc.busy,
    hc.done, hheader, (congrArg BitVec.toNat hfrmLen').trans hlen, hpayload, hcbLen'.trans hcbLen, hmsg'.trans hmsg,
    hmsgLen'.trans hmsgLen, hout⟩

/-- UNPACK on a written frame: a `FormatError` that keeps `MSG` and `MSGLEN`, or the payload the header announces (R104,
R162). -/
theorem exec_unpack_outcome (hr : Ready .unpack s) (h : exec .unpack s = .next t) :
    (s.frmLen.toNat < 4 → t.err = 2 ∧ t.msg = s.msg ∧ t.msgLen = s.msgLen) ∧
    (4 ≤ s.frmLen.toNat → ∃ L, s.headerLength = some L ∧
      (4 + L > s.frmLen.toNat → t.err = 2 ∧ t.msg = s.msg ∧ t.msgLen = s.msgLen) ∧
      (4 + L ≤ s.frmLen.toNat → t.err = 0 ∧ t.msgLen.toNat = L ∧ ∀ i < L, t.msg.read i = s.frm.read (4 + i))) := by
  have hbad : s.frameBad → t.err = 2 ∧ t.msg = s.msg ∧ t.msgLen = s.msgLen := fun hbad => by
    obtain ⟨hc, hd⟩ := exec_unpack_formatError hr.idle hbad h
    exact ⟨hc.err, hd.msg, hd.msgLen⟩
  refine ⟨fun hlt => hbad (.inl hlt), fun h4 => ?_⟩
  obtain ⟨L, hL⟩ := State.headerLength_some h4 hr.inputs
  refine ⟨L, hL, fun hgt => hbad (.inr ⟨L, hL, hgt⟩), fun hle => ?_⟩
  obtain ⟨hc, hout⟩ := exec_unpack_payload hr.idle hL hle h
  exact ⟨hc.err, hout⟩

/-- Settles O52: on a ragged buffer EXTRACT fails and the program stops; on whole pixels UNPACK runs on EXTRACT's bytes and
keeps them. -/
theorem decodeIsExtractThenUnpack : Obligations.DecodeIsExtractThenUnpack := by
  refine ⟨rfl, fun s hr hwf hhost => ?_⟩
  obtain ⟨x, hx⟩ := exec_total hr
  obtain ⟨_, hcx, -⟩ := exec_completed hr.idle hx
  obtain ⟨-, hcb, hmsg, hcbLen, hmsgLen, -⟩ := extractFrame s x hx
  by_cases h0 : s.cbLen % 4 = 0
  · obtain ⟨hxe, -⟩ := exec_extract_pixels hr.idle h0 hx
    have hrx := ready_unpack_of_extract hr hwf hx hxe
    obtain ⟨u, hu⟩ := exec_total hrx
    obtain ⟨_, hcu, -⟩ := exec_completed hrx.idle hu
    obtain ⟨-, hcb', hfrm', hcbLen', hfrmLen', -⟩ := unpackFrame x u hu
    have hlen : u.frmLen.toNat = usable s.cbLen / 8 := hfrmLen' ▸ exec_extract_frmLen hr h0 hx
    have hheader : u.headerLength = x.headerLength := State.headerLength_congr fun a _ => by rw [hfrm']
    have hout := exec_unpack_outcome hrx hu
    rw [hmsg, hmsgLen, ← hfrm', ← hfrmLen', ← hheader] at hout
    refine ⟨x, _, hx, run_pair_ok hr.idle hhost hx hxe hu, rfl, hcu.busy, hcu.done, rfl, hcb'.trans hcb,
      hcbLen'.trans hcbLen, fun hne => absurd hxe hne, fun _ => ⟨u, hu, sameData_of_dataFields rfl, rfl⟩,
      fun h4 => absurd h0 h4, fun _ => ⟨hfrm', hfrmLen', hlen, fun k hk => ?_, hout⟩⟩
    exact (hfrm' ▸ exec_extract_fbit hr.idle h0 hx (hk.trans_eq (congrArg (8 * ·) hlen))).symm
  · have hxe := exec_extract_ragged hr.idle h0 hx
    have hne : x.err ≠ 0 := fun h => absurd (hxe.symm.trans h) (by decide)
    obtain ⟨-, hd⟩ := exec_failed (e := .inputShape) hr.idle hx hxe
    exact ⟨x, _, hx, run_pair_error hr.idle hhost hx hne, rfl, hcx.busy, hcx.done, rfl, hcb, hcbLen,
      fun _ => ⟨sameData_of_dataFields rfl, rfl⟩, fun h => absurd h hne,
      fun _ => ⟨hxe, hd.withHostSide ..⟩, fun h => absurd h h0⟩

/-- Settles O53: ENCODE leaves EMBED's buffer (O51), EXTRACT gives PACK's frame back as a prefix of its bytes, and UNPACK reads
that frame whatever follows it (O27). -/
theorem encodeThenDecodeGivesThePayloadBack : Obligations.EncodeThenDecodeGivesThePayloadBack := by
  intro s hr hwf hcb h0 hfit hhost
  obtain ⟨p, e, t, hp, -, he, hrun, hd, hstatus, -, -, hbusy, -⟩ := encodeIsPackThenEmbed.2 s hr hwf hcb hhost
  have hre := ready_embed_of_pack hr hwf hcb hp
  obtain ⟨herr, -⟩ := (exec_pack_embed hr.idle hp hre he).2.2 h0 (.inr hfit)
  obtain ⟨-, -, -, hcbLen, -⟩ := packFrame s p hp
  obtain ⟨-, hlen, -⟩ := exec_pack_output hr.idle hp
  have hwfp := exec_wf hwf hp
  have hd' : SameData e { t with host := expandLine .decode } := hd.withHostSide (expandLine .decode) ..
  have hre' : Ready .extract e := (exec_ready hre hwfp he).of_inputs_subset (by decide)
  have hrt := hre'.of_sameData hd' hbusy
  have hwft : ∀ m, (State.mem { t with host := expandLine .decode } m).wf = true := fun m =>
    hd'.mem m ▸ exec_wf hwfp he m
  obtain ⟨x, hx, hxe, hle, hprefix⟩ := exec_extract_embedded hre he herr (by rw [hlen, hcbLen]; exact hfit) hrt hd.cb hd.cbLen
  have hrx := ready_unpack_of_extract hrt hwft hx hxe
  obtain ⟨w, hw, hwe, hmsgLen, hmsg⟩ := unpackInvertsPack s p x hr hp hrx hle hprefix
  exact ⟨t, _, hrun, (congrArg errField hstatus).trans herr, run_pair_ok hrt.idle rfl hx hxe hw, hwe, rfl, hmsgLen, hmsg⟩

end Sys2Proof.Machine
end

section
/-! PROOFS. The statements settled: O25, O31, O39, O40, O41. Which error each command ends in, by the condition on the state
it is issued in, and what an error leaves unchanged (R170 to R173, R176). -/

namespace Sys2Proof.Machine

variable {s t : State}

/-- The condition of `FormatError` in the bytes of the header (R172). -/
theorem State.frameBad_iff : s.frameBad ↔ s.frmLen.toNat < 4 ∨
    (4 ≤ s.frmLen.toNat ∧ ∃ b0 b1 b2 b3, s.frm.read 0 = some b0 ∧ s.frm.read 1 = some b1 ∧ s.frm.read 2 = some b2 ∧
      s.frm.read 3 = some b3 ∧ 4 + unbe32 b0 b1 b2 b3 > s.frmLen.toNat) := by
  constructor
  · rintro (hlt | ⟨L, hL, hgt⟩)
    · exact .inl hlt
    · obtain ⟨b0, b1, b2, b3, h0, h1, h2, h3, rfl⟩ := State.headerLength_cells hL
      exact (Nat.lt_or_ge s.frmLen.toNat 4).imp_right fun h4 => ⟨h4, b0, b1, b2, b3, h0, h1, h2, h3, hgt⟩
  · rintro (hlt | ⟨-, b0, b1, b2, b3, h0, h1, h2, h3, hgt⟩)
    · exact .inl hlt
    · exact .inr ⟨_, by simp only [State.headerLength, h0, h1, h2, h3], hgt⟩

section
variable (hb : s.busy = false)
include hb

/-- UNPACK fails on a bad frame and succeeds on a good one (R172). -/
theorem exec_unpack_err (h : exec .unpack s = .next t) : (s.frameBad ∧ t.err = 2) ∨ (¬ s.frameBad ∧ t.err = 0) := by
  by_cases hbad : s.frameBad
  · exact .inl ⟨hbad, exec_unpack_bad hb hbad h⟩
  · exact .inr ⟨hbad, (exec_unpack_good hb hbad h).1⟩

/-- EMBED fails on a ragged buffer, fails on a frame too long, or succeeds (R171, R173). -/
theorem exec_embed_err (h : exec .embed s = .next t) : (s.cbLen % 4 ≠ 0 ∧ t.err = 3) ∨ (s.frameTooLong ∧ t.err = 1) ∨
    (s.cbLen % 4 = 0 ∧ ¬ s.frameTooLong ∧ t.err = 0) := by
  by_cases h0 : s.cbLen % 4 = 0
  · by_cases hlong : s.frameTooLong
    · exact .inr (.inl ⟨hlong, exec_embed_tooLong hb hlong h⟩)
    · exact .inr (.inr ⟨h0, hlong, (exec_embed_fits hb h0 hlong h).1⟩)
  · exact .inl ⟨h0, exec_embed_ragged hb h0 h⟩

/-- EXTRACT fails on a ragged buffer and succeeds on whole pixels (R173). -/
theorem exec_extract_err (h : exec .extract s = .next t) :
    (s.cbLen % 4 ≠ 0 ∧ t.err = 3) ∨ (s.cbLen % 4 = 0 ∧ t.err = 0) := by
  by_cases h0 : s.cbLen % 4 = 0
  · exact .inr ⟨h0, (exec_extract_pixels hb h0 h).1⟩
  · exact .inl ⟨h0, exec_extract_ragged hb h0 h⟩

end

/-- Settles O25, by the two ways of UNPACK. -/
theorem formatErrorExactly : Obligations.FormatErrorExactly := by
  intro s hr
  obtain ⟨t, h⟩ := exec_total hr
  refine ⟨t, h, Iff.trans ?_ State.frameBad_iff⟩
  rcases exec_unpack_err hr.idle h with ⟨hbad, he⟩ | ⟨hgood, he⟩
  · simp [he, hbad]
  · simp [he, hgood]

/-- Settles O31, by the three ways of EMBED; that `CB` is kept is R176's rule about every error. -/
theorem capacityErrorExactly : Obligations.CapacityErrorExactly := by
  intro s hr
  obtain ⟨t, h⟩ := exec_total hr
  refine ⟨t, h, show t.err = 1 ↔ s.frameTooLong from ?_, fun he => (exec_failed (e := .capacity) hr.idle h he).2.cb⟩
  rcases exec_embed_err hr.idle h with ⟨h4, he⟩ | ⟨hlong, he⟩ | ⟨-, hfit, he⟩
  · have hfit : ¬ s.frameTooLong := fun ⟨_, h0, _⟩ => h4 h0
    simp [he, hfit]
  · simp [he, hlong]
  · simp [he, hfit]

/-- Settles O39: the ways of each command, a frame too long being one on whole pixels. -/
theorem inputShapeErrorExactly : Obligations.InputShapeErrorExactly := by
  intro i s hr
  obtain ⟨t, h⟩ := exec_total hr
  refine ⟨t, h, ?_⟩
  cases i with
  | pack => simp [(exec_pack_output hr.idle h).1]
  | unpack => rcases exec_unpack_err hr.idle h with ⟨-, he⟩ | ⟨-, he⟩ <;> simp [he]
  | embed =>
    rcases exec_embed_err hr.idle h with ⟨h4, he⟩ | ⟨⟨-, h0, -⟩, he⟩ | ⟨h0, -, he⟩
    · simp [he, h4]
    · simp [he, h0]
    · simp [he, h0]
  | extract => rcases exec_extract_err hr.idle h with ⟨h0, he⟩ | ⟨h0, he⟩ <;> simp [he, h0]

/-- Settles O40: the ways of each command, of which EMBED's `CapacityError` has `TRUNC` 0 in its condition. -/
theorem eachCommandsErrors : Obligations.EachCommandsErrors := by
  intro i s hr
  obtain ⟨t, h⟩ := exec_total hr
  obtain ⟨_, hc, -⟩ := exec_completed hr.idle h
  refine ⟨t, h, hc.busy, hc.done, ?_⟩
  cases i with
  | pack => exact (exec_pack_output hr.idle h).1
  | unpack => exact (exec_unpack_err hr.idle h).symm.imp And.right And.right
  | embed =>
    rcases exec_embed_err hr.idle h with ⟨-, he⟩ | ⟨⟨htr, -⟩, he⟩ | ⟨-, -, he⟩
    · exact .inr (.inr he)
    · exact .inr (.inl ⟨he, htr⟩)
    · exact .inl he
  | extract => exact (exec_extract_err hr.idle h).symm.imp And.right And.right

/-- Settles O41: a completion is idle, so the engine stays; and a command that ends in an error has kept its data. -/
theorem errorsChangeOnlyStatus : Obligations.ErrorsChangeOnlyStatus := by
  refine ⟨fun e s => ?_, fun i s t hb h hne => ?_⟩
  · have hc : Completed s (some e) (s.raise e) := State.complete_completed s (some e)
    exact ⟨hc, sameData_of_dataFields rfl, engineStep_idle hc.busy⟩
  · obtain ⟨e, hc, -⟩ := exec_completed hb h
    obtain ⟨k, rfl⟩ := Option.ne_none_iff_exists'.1 fun h0 => hne (hc.err.trans (errCode_eq_zero.2 h0))
    exact ⟨⟨k, hc⟩, exec_error_sameData hb h hne, exec_sameHost h, engineStep_idle hc.busy⟩

end Sys2Proof.Machine
end

section
/-! PROOFS. The statements settled: O45, O3. Every shorter run of the engine answers, and before R203's count the command is
still busy; the `Reset` move (R190). -/

namespace Sys2Proof.Machine

/-- A run of the engine that answers a state has answered one after every smaller number of steps. -/
theorem runEngine_of_le {m n : Nat} {s t : State} (hmn : m ≤ n) (h : runEngine n s = .next t) :
    ∃ u, runEngine m s = .next u := by
  induction m generalizing n s with
  | zero => exact ⟨s, runEngine_zero s⟩
  | succ m ih =>
    obtain ⟨k, rfl⟩ := Nat.exists_eq_add_of_le' (Nat.one_le_of_lt hmn)
    obtain ⟨u, hu, hrest⟩ := runEngine_succ_eq_next h
    rw [runEngine_cons hu]
    exact ih (Nat.le_of_succ_le_succ hmn) hrest

/-- Settles O45: the counted run answers, so each shorter one does, and none of them has reached the completion. -/
theorem stepCountsAreExact : Obligations.StepCountsAreExact := by
  intro i s hr n hn
  obtain ⟨_, -, hrun⟩ := engineStepsRealiseTheCommand i s hr
  obtain ⟨t, ht⟩ := runEngine_of_le hn.le hrun
  exact ⟨t, ht, (runEngine_beforeCompletion hr hn ht).1⟩

/-- Settles O3: the step is the `Reset` move's, whose cleared block is idle, so the engine leaves it as it is. -/
theorem resetMoveClearsTheBlock : Obligations.ResetMoveClearsTheBlock := by
  intro s rest hh
  have hidle : ({ s with host := rest } : State).resetBlock.busy = false := by simp [State.busy, busyField]
  exact ⟨_, (step_move hh).trans hostMove_reset, rfl, rfl, rfl, rfl, rfl, fun m a => by cases m <;> rfl, rfl, rfl,
    engineStep_idle hidle⟩

end Sys2Proof.Machine
end
